-- ==== Sys2Proof/Word.lean ====
section
/-! DEFINITION. The word types of PMFB. -/

namespace Sys2Proof

/-- One byte: a framebuffer byte, an XM byte, a byte of a transaction (R28, R59, R100). -/
abbrev Byte := BitVec 8

/-- One operation word, 128 bits (R80). -/
abbrev Word := BitVec 128

/-- An XM address, 32 bits (R59). -/
abbrev XAddr := BitVec 32

/-- A bus device address, 7 bits (R27). -/
abbrev DevAddr := BitVec 7

end Sys2Proof
end

