-- ==== Sys2Proof/Syntax.lean ====
section
/-! DEFINITION. The operations of PMFB, one constructor per row of spec/opcode_table.json. -/

namespace Sys2Proof

/-- The tri-state colour (R85). -/
inductive Colour where
  | clear
  | set
  | toggle
  deriving DecidableEq, Repr, Inhabited

/-- The operand of INVERT (R86). -/
inductive InvertMode where
  | normal
  | inverted
  deriving DecidableEq, Repr, Inhabited

/-- The operand of ORIENT (R86). -/
inductive Orientation where
  | normal
  | rotated
  deriving DecidableEq, Repr, Inhabited

/-- The operand of POWER (R86). -/
inductive PowerArg where
  | off
  | on
  deriving DecidableEq, Repr, Inhabited

/-- The geometry selector: one of exactly two panel families (R11, R87). -/
inductive Family where
  | f0
  | f1
  deriving DecidableEq, Repr, Inhabited

/-- The operations (R83). Operands are the decoded values of R84: signed operands are integers, the
string length, read-back index and character code are naturals; their ranges are `Instr.wellFormed`. -/
inductive Instr where
  | construct (addr7 : DevAddr) (sel : Family)
  | destruct
  | setpix (x y : Int) (c : Colour)
  | clear (c : Colour)
  | flush
  | flushx (addr : XAddr)
  | loadbmp (addr : XAddr)
  | contrast (v : Byte)
  | invert (e : InvertMode)
  | orient (e : Orientation)
  | power (e : PowerArg)
  | getbufsz
  | getw
  | geth
  | rdfb (idx : Nat)
  | line (x0 y0 x1 y1 : Int) (c : Colour)
  | hline (x y w : Int) (c : Colour)
  | vline (x y h : Int) (c : Colour)
  | rect (x y w h : Int) (c : Colour)
  | frect (x y w h : Int) (c : Colour)
  | pbar (x y w h progress : Int) (c : Colour)
  | char (x y : Int) (ch : Nat) (c : Colour)
  | string (x y : Int) (addr : XAddr) (len : Nat) (c : Colour)
  | setfont (addr : XAddr)
  | getfont
  deriving DecidableEq, Repr

end Sys2Proof
end

