-- ==== Sys2Proof/WellFormed.lean ====
section
/-! DEFINITION. Which operations an operation word can carry: the operand ranges of R84. -/

namespace Sys2Proof

/-- The range of a signed 16-bit operand (R84). -/
def fitsS16 (v : Int) : Bool := decide (-32768 ≤ v) && decide (v ≤ 32767)

/-- The range of an unsigned 16-bit operand (R84). -/
def fitsU16 (v : Nat) : Bool := decide (v < 65536)

/-- The range of an unsigned 8-bit operand (R84). -/
def fitsU8 (v : Nat) : Bool := decide (v < 256)

/-- Every operand lies in its field's range (R84); an operand out of it is an assembly error (R94). -/
def Instr.wellFormed : Instr → Bool
  | .construct _ _ => true
  | .destruct => true
  | .setpix x y _ => fitsS16 x && fitsS16 y
  | .clear _ => true
  | .flush => true
  | .flushx _ => true
  | .loadbmp _ => true
  | .contrast _ => true
  | .invert _ => true
  | .orient _ => true
  | .power _ => true
  | .getbufsz => true
  | .getw => true
  | .geth => true
  | .rdfb idx => fitsU16 idx
  | .line x0 y0 x1 y1 _ => fitsS16 x0 && fitsS16 y0 && fitsS16 x1 && fitsS16 y1
  | .hline x y w _ => fitsS16 x && fitsS16 y && fitsS16 w
  | .vline x y h _ => fitsS16 x && fitsS16 y && fitsS16 h
  | .rect x y w h _ => fitsS16 x && fitsS16 y && fitsS16 w && fitsS16 h
  | .frect x y w h _ => fitsS16 x && fitsS16 y && fitsS16 w && fitsS16 h
  | .pbar x y w h p _ => fitsS16 x && fitsS16 y && fitsS16 w && fitsS16 h && fitsS16 p
  | .char x y ch _ => fitsS16 x && fitsS16 y && fitsU8 ch
  | .string x y _ len _ => fitsS16 x && fitsS16 y && fitsU16 len
  | .setfont _ => true
  | .getfont => true

end Sys2Proof
end

