-- ==== Sys2Proof/Decode.lean ====
section
/-! DEFINITION. The operation word: fields, formats, decoder and encoder (30_encoding.md, part A). -/

namespace Sys2Proof

/-! ## Bytes and words (R80) -/

/-- The little-endian reading of a byte list: byte 0 is least significant. -/
def natOfBytes : List Byte → Nat
  | [] => 0
  | b :: bs => b.toNat + 256 * natOfBytes bs

/-- The 16 bytes `b[0] .. b[15]` of an operation as its word (R80); any other number of bytes is no
operation word (R92). -/
def wordOfBytes (bs : List Byte) : Option Word :=
  if bs.length = 16 then some (BitVec.ofNat 128 (natOfBytes bs)) else none

/-- The 16 bytes of a word, `W[8k+7 : 8k]` for `k = 0 .. 15` (R80). -/
def bytesOfWord (w : Word) : List Byte :=
  (List.range 16).map fun k => w.extractLsb' (8 * k) 8

/-! ## Fields (R81) -/

/-- The eight fields of an operation word, at the same bit positions in every format (R81). -/
structure Fields where
  opc : Byte
  mod : Byte
  a : BitVec 16
  b : BitVec 16
  c : BitVec 16
  d : BitVec 16
  e : BitVec 16
  addr : XAddr
  deriving DecidableEq, Repr

/-- The fields of a word: OPC W[7:0], MOD W[15:8], A W[31:16], B W[47:32], C W[63:48], D W[79:64],
E W[95:80], ADDR W[127:96] (R81). -/
def splitWord (w : Word) : Fields where
  opc := w.extractLsb' 0 8
  mod := w.extractLsb' 8 8
  a := w.extractLsb' 16 16
  b := w.extractLsb' 32 16
  c := w.extractLsb' 48 16
  d := w.extractLsb' 64 16
  e := w.extractLsb' 80 16
  addr := w.extractLsb' 96 32

/-- The word with the given fields (R81). -/
def joinFields (f : Fields) : Word :=
  f.addr ++ f.e ++ f.d ++ f.c ++ f.b ++ f.a ++ f.mod ++ f.opc

/-! ## Formats (R82, R83) -/

/-- The twelve formats (R82). -/
inductive Format where
  | N | M | I | P | Q | L | S | R | G | K | T | X
  deriving DecidableEq, Repr

/-- The format of an operation code, `none` for an unassigned one (R83, R90). -/
def formatOf (opc : Byte) : Option Format :=
  match opc.toNat with
  | 0x01 => some .I
  | 0x02 => some .N
  | 0x03 => some .P
  | 0x04 => some .M
  | 0x05 => some .N
  | 0x06 => some .X
  | 0x07 => some .X
  | 0x08 => some .M
  | 0x09 => some .M
  | 0x0A => some .M
  | 0x0B => some .M
  | 0x0C => some .N
  | 0x0D => some .N
  | 0x0E => some .N
  | 0x0F => some .Q
  | 0x10 => some .L
  | 0x11 => some .S
  | 0x12 => some .S
  | 0x13 => some .R
  | 0x14 => some .R
  | 0x15 => some .G
  | 0x18 => some .K
  | 0x19 => some .T
  | 0x1A => some .X
  | 0x1B => some .N
  | _ => none

/-- Every bit of a field the format does not use is 0 (R82, R89). In format I the bits A[15:1] and
MOD[7] must be 0; in format K the bits C[15:8]. -/
def Fields.reservedClear (f : Fields) : Format → Bool
  | .N => f.mod == 0 && f.a == 0 && f.b == 0 && f.c == 0 && f.d == 0 && f.e == 0 && f.addr == 0
  | .M => f.a == 0 && f.b == 0 && f.c == 0 && f.d == 0 && f.e == 0 && f.addr == 0
  | .I => f.mod.extractLsb' 7 1 == 0 && f.a.extractLsb' 1 15 == 0 && f.b == 0 && f.c == 0 &&
      f.d == 0 && f.e == 0 && f.addr == 0
  | .P => f.c == 0 && f.d == 0 && f.e == 0 && f.addr == 0
  | .Q => f.mod == 0 && f.b == 0 && f.c == 0 && f.d == 0 && f.e == 0 && f.addr == 0
  | .L => f.e == 0 && f.addr == 0
  | .S => f.d == 0 && f.e == 0 && f.addr == 0
  | .R => f.e == 0 && f.addr == 0
  | .G => f.addr == 0
  | .K => f.c.extractLsb' 8 8 == 0 && f.d == 0 && f.e == 0 && f.addr == 0
  | .T => f.d == 0 && f.e == 0
  | .X => f.mod == 0 && f.a == 0 && f.b == 0 && f.c == 0 && f.d == 0 && f.e == 0

/-! ## Operands (R84 to R88) -/

/-- The colour a MOD value names (R85). -/
def colourOf (m : Byte) : Option Colour :=
  match m.toNat with
  | 0 => some .clear
  | 1 => some .set
  | 2 => some .toggle
  | _ => none

/-- The MOD value of a colour (R85). -/
def colourCode : Colour → Byte
  | .clear => 0
  | .set => 1
  | .toggle => 2

/-- The operand of INVERT a MOD value names (R86). -/
def invertOf (m : Byte) : Option InvertMode :=
  match m.toNat with
  | 0 => some .normal
  | 1 => some .inverted
  | _ => none

/-- The MOD value of an INVERT operand (R86). -/
def invertCode : InvertMode → Byte
  | .normal => 0
  | .inverted => 1

/-- The operand of ORIENT a MOD value names (R86). -/
def orientOf (m : Byte) : Option Orientation :=
  match m.toNat with
  | 0 => some .normal
  | 1 => some .rotated
  | _ => none

/-- The MOD value of an ORIENT operand (R86). -/
def orientCode : Orientation → Byte
  | .normal => 0
  | .rotated => 1

/-- The operand of POWER a MOD value names (R86). -/
def powerOf (m : Byte) : Option PowerArg :=
  match m.toNat with
  | 0 => some .off
  | 1 => some .on
  | _ => none

/-- The MOD value of a POWER operand (R86). -/
def powerCode : PowerArg → Byte
  | .off => 0
  | .on => 1

/-- The family a selector bit names (R87). -/
def familyOf (a0 : BitVec 1) : Family := if a0 = 0 then .f0 else .f1

/-- The selector bit of a family (R87). -/
def familyCode : Family → BitVec 1
  | .f0 => 0
  | .f1 => 1

/-- `sext_16` of a field (R16, R84). -/
def sext16 (v : BitVec 16) : Int := v.toInt

/-- The 16-bit field of a signed operand (R84). -/
def field16 (v : Int) : BitVec 16 := BitVec.ofInt 16 v

/-! ## Decoding (R89, R90, R93) -/

/-- Why bytes are no operation. Each is raised by the decoder; each is the spec's "illegal word"
(R89, R90), safe: the spec refuses the word too. The names are the model's (log entry 17). -/
inductive Reject where
  /-- Not 16 bytes (R80, R92). Safe. -/
  | notSixteenBytes
  /-- OPC is unassigned (R90). Safe. -/
  | unassignedOpcode
  /-- A reserved bit is 1 (R89). Safe. -/
  | reservedBit
  /-- MOD names no colour (R85, R89). Safe. -/
  | badColour
  /-- MOD names no enum value (R86, R89). Safe. -/
  | badEnum
  deriving DecidableEq, Repr

/-- An operation that takes the MOD field as an operand: refused with `why` if MOD names no value. -/
def withMod {α : Type} (o : Option α) (why : Reject) (k : α → Instr) : Except Reject Instr :=
  match o with
  | some v => .ok (k v)
  | none => .error why

/-- The operation with the operands of R84, for fields whose reserved bits are clear. -/
def operands (f : Fields) : Except Reject Instr :=
  match f.opc.toNat with
  | 0x01 => .ok (.construct (f.mod.extractLsb' 0 7) (familyOf (f.a.extractLsb' 0 1)))
  | 0x02 => .ok .destruct
  | 0x03 => withMod (colourOf f.mod) .badColour fun c => .setpix (sext16 f.a) (sext16 f.b) c
  | 0x04 => withMod (colourOf f.mod) .badColour fun c => .clear c
  | 0x05 => .ok .flush
  | 0x06 => .ok (.flushx f.addr)
  | 0x07 => .ok (.loadbmp f.addr)
  | 0x08 => .ok (.contrast f.mod)
  | 0x09 => withMod (invertOf f.mod) .badEnum fun e => .invert e
  | 0x0A => withMod (orientOf f.mod) .badEnum fun e => .orient e
  | 0x0B => withMod (powerOf f.mod) .badEnum fun e => .power e
  | 0x0C => .ok .getbufsz
  | 0x0D => .ok .getw
  | 0x0E => .ok .geth
  | 0x0F => .ok (.rdfb f.a.toNat)
  | 0x10 => withMod (colourOf f.mod) .badColour fun c =>
      .line (sext16 f.a) (sext16 f.b) (sext16 f.c) (sext16 f.d) c
  | 0x11 => withMod (colourOf f.mod) .badColour fun c =>
      .hline (sext16 f.a) (sext16 f.b) (sext16 f.c) c
  | 0x12 => withMod (colourOf f.mod) .badColour fun c =>
      .vline (sext16 f.a) (sext16 f.b) (sext16 f.c) c
  | 0x13 => withMod (colourOf f.mod) .badColour fun c =>
      .rect (sext16 f.a) (sext16 f.b) (sext16 f.c) (sext16 f.d) c
  | 0x14 => withMod (colourOf f.mod) .badColour fun c =>
      .frect (sext16 f.a) (sext16 f.b) (sext16 f.c) (sext16 f.d) c
  | 0x15 => withMod (colourOf f.mod) .badColour fun c =>
      .pbar (sext16 f.a) (sext16 f.b) (sext16 f.c) (sext16 f.d) (sext16 f.e) c
  | 0x18 => withMod (colourOf f.mod) .badColour fun c =>
      .char (sext16 f.a) (sext16 f.b) (f.c.extractLsb' 0 8).toNat c
  | 0x19 => withMod (colourOf f.mod) .badColour fun c =>
      .string (sext16 f.a) (sext16 f.b) f.addr f.c.toNat c
  | 0x1A => .ok (.setfont f.addr)
  | 0x1B => .ok .getfont
  | _ => .error .unassignedOpcode

/-- The operation a word's fields spell, or why they spell none (R89, R90, R93). -/
def decodeFields (f : Fields) : Except Reject Instr :=
  match formatOf f.opc with
  | none => .error .unassignedOpcode
  | some fmt => if f.reservedClear fmt then operands f else .error .reservedBit

/-- The decoder: total on words, from the word alone (R93). -/
def decode (w : Word) : Except Reject Instr := decodeFields (splitWord w)

/-- The decoder on bytes as the host hands them over (R80). -/
def decodeBytes (bs : List Byte) : Except Reject Instr :=
  match wordOfBytes bs with
  | some w => decode w
  | none => .error .notSixteenBytes

/-! ## Encoding -/

/-- No field but the operation code. -/
def bareFields (opc : Byte) : Fields := ⟨opc, 0, 0, 0, 0, 0, 0, 0⟩

/-- The fields of an operation's word (R81 to R88). -/
def fieldsOf : Instr → Fields
  | .construct addr7 sel =>
      { bareFields 0x01 with mod := addr7.zeroExtend 8, a := (familyCode sel).zeroExtend 16 }
  | .destruct => bareFields 0x02
  | .setpix x y c => { bareFields 0x03 with mod := colourCode c, a := field16 x, b := field16 y }
  | .clear c => { bareFields 0x04 with mod := colourCode c }
  | .flush => bareFields 0x05
  | .flushx addr => { bareFields 0x06 with addr := addr }
  | .loadbmp addr => { bareFields 0x07 with addr := addr }
  | .contrast v => { bareFields 0x08 with mod := v }
  | .invert e => { bareFields 0x09 with mod := invertCode e }
  | .orient e => { bareFields 0x0A with mod := orientCode e }
  | .power e => { bareFields 0x0B with mod := powerCode e }
  | .getbufsz => bareFields 0x0C
  | .getw => bareFields 0x0D
  | .geth => bareFields 0x0E
  | .rdfb idx => { bareFields 0x0F with a := BitVec.ofNat 16 idx }
  | .line x0 y0 x1 y1 c =>
      { bareFields 0x10 with mod := colourCode c, a := field16 x0, b := field16 y0,
                             c := field16 x1, d := field16 y1 }
  | .hline x y w c =>
      { bareFields 0x11 with mod := colourCode c, a := field16 x, b := field16 y, c := field16 w }
  | .vline x y h c =>
      { bareFields 0x12 with mod := colourCode c, a := field16 x, b := field16 y, c := field16 h }
  | .rect x y w h c =>
      { bareFields 0x13 with mod := colourCode c, a := field16 x, b := field16 y,
                             c := field16 w, d := field16 h }
  | .frect x y w h c =>
      { bareFields 0x14 with mod := colourCode c, a := field16 x, b := field16 y,
                             c := field16 w, d := field16 h }
  | .pbar x y w h p c =>
      { bareFields 0x15 with mod := colourCode c, a := field16 x, b := field16 y,
                             c := field16 w, d := field16 h, e := field16 p }
  | .char x y ch c =>
      { bareFields 0x18 with mod := colourCode c, a := field16 x, b := field16 y,
                             c := BitVec.ofNat 16 ch }
  | .string x y addr len c =>
      { bareFields 0x19 with mod := colourCode c, a := field16 x, b := field16 y,
                             c := BitVec.ofNat 16 len, addr := addr }
  | .setfont addr => { bareFields 0x1A with addr := addr }
  | .getfont => bareFields 0x1B

/-- The operation word of an operation (30_encoding.md, part A). -/
def encode (i : Instr) : Word := joinFields (fieldsOf i)

/-! ## The host's reading of a table word -/

/-- The operation the decoder reads from a word given as the opcode table numbers its bits; bits at
`nbits` and above are 0. -/
def decodeTableWord (nbits w : Nat) : Option Instr :=
  match decodeBytes (bytesOfWord (BitVec.ofNat 128 (w % 2 ^ nbits))) with
  | .ok i => some i
  | .error _ => none

end Sys2Proof
end

