-- ==== Sys2Proof/Machine/Memory.lean ====
section
/-! DEFINITION. Byte memories: a list of cells in one canonical form. The framebuffer and XM are both held
so. An unlisted address holds no value (R28, R59). -/

namespace Sys2Proof.Machine

/-- Cells with strictly rising addresses. An unlisted address holds no value, so no cell can repeat what
an unlisted address reads as. -/
abbrev Memory := List Host.Cell

/-- The canonical form: addresses strictly rising. -/
abbrev Memory.wf (m : Memory) : Prop := m.Pairwise fun x y => x.1 < y.1

/-- The byte at an address, or `none` where it holds no value. -/
def Memory.read : Memory → Nat → Option Byte
  | [], _ => none
  | (k, b) :: m, a => if a = k then some b else Memory.read m a

/-- The memory with a byte at an address. -/
def Memory.write : Memory → Nat → Byte → Memory
  | [], a, v => [(a, v)]
  | (k, b) :: m, a, v =>
      if a < k then (a, v) :: (k, b) :: m
      else if a = k then (a, v) :: m
      else (k, b) :: Memory.write m a v

/-- The memory with no value at an address: an unlisted address holds none, so the cell goes. -/
def Memory.erase (m : Memory) (a : Nat) : Memory := m.filter fun x => decide (x.1 ≠ a)

/-- The cells of bytes laid out from an address upward. -/
def Memory.cellsFrom : Nat → List Byte → Memory
  | _, [] => []
  | a, b :: bs => (a, b) :: Memory.cellsFrom (a + 1) bs

/-- The memory holding exactly these bytes, at addresses 0, 1, 2, ... -/
def Memory.ofBytes (bs : List Byte) : Memory := Memory.cellsFrom 0 bs

end Sys2Proof.Machine
end

