-- ==== Sys2Proof/Config.lean ====
section
/-! DEFINITION. The parameters of the machine (00_scope.md section 4) and the free values. -/

namespace Sys2Proof

/-- One row of the panel family table FAMILY (R11). -/
structure Geometry where
  width : Nat
  height : Nat
  quirk : Bool
  deriving DecidableEq, Repr

/-- The command byte table CMD (R104). -/
structure CmdTable where
  displayOff : Byte
  displayOn : Byte
  contrast : Byte
  normal : Byte
  invert : Byte
  orientNormal : List Byte
  orientRotated : List Byte
  addrModeSeq : List Byte
  deriving DecidableEq, Repr

/-- The parameters: FAMILY (R11), CMD (R104), BRINGUP_f (R107), FLUSH_WIN_f (R108) and DEFAULT_FONT
(R14). Plain data, held in `State.cfg`, so that a statement about every state is a statement about
every parameter table. -/
structure Config where
  family0 : Geometry
  family1 : Geometry
  cmd : CmdTable
  bringup0 : List Byte
  bringup1 : List Byte
  flushWin0 : List Byte
  flushWin1 : List Byte
  defaultFont : Option XAddr
  deriving DecidableEq, Repr

/-- The answer to a draw (R15). -/
inductive Answer where
  | ok
  | fail
  deriving DecidableEq, Repr, Inhabited

/-! ## Free values: constants with no body, so that nothing can be proved of their value -/

/-- FLUSH_WIN_f, which the spec leaves OPEN with no default (R108): the window of the machine after
reset. Free value, safe. Log entry 4. -/
opaque Config.openFlushWin : Family → List Byte

/-- The transport's answer for the transaction at a `buslog` position, where the run does not fix it
(R15). Free value, safe. Log entry 5. -/
opaque Config.freeBusAnswer : Nat → Answer

/-- The allocator's answer for the n-th CONSTRUCT, where the run does not fix it (R15). Free value, safe.
Log entry 5. -/
opaque Config.freeAllocAnswer : Nat → Answer

/-- The value read from an allocated framebuffer byte that nothing has written (R293). Free value, safe.
Log entry 8. -/
opaque Config.freeFbByte : Nat → Byte

/-- `fault_info` for a detail that does not fit 32 bits. Free value, safe. Log entry 9. -/
opaque Config.freeInfo : Nat → BitVec 32

/-- Whether a read from this address that both meets an undefined byte and passes the top of XM records
0xFFFFFFFF. Free value, safe. Log entry 10. -/
opaque Config.topReportedFirst : Nat → Bool

end Sys2Proof
end

