-- ==== Sys2Proof/Machine/Parameters.lean ====
section
/-! DEFINITION. What the parameters mean: geometry, the tables by family, the spec's defaults, and the
constraints of R11. -/

namespace Sys2Proof.Machine

/-- FB_BYTES of a geometry (R12). -/
def fbBytes (g : Geometry) : Nat := g.width * g.height / 8

/-- PAGES of a geometry (R12). -/
def pages (g : Geometry) : Nat := g.height / 8

/-- The row of FAMILY that a family selects (R11, R26). -/
def geomOf (cfg : Config) : Family → Geometry
  | .f0 => cfg.family0
  | .f1 => cfg.family1

/-- BRINGUP_f (R107). -/
def bringupOf (cfg : Config) : Family → List Byte
  | .f0 => cfg.bringup0
  | .f1 => cfg.bringup1

/-- FLUSH_WIN_f (R108). -/
def flushWinOf (cfg : Config) : Family → List Byte
  | .f0 => cfg.flushWin0
  | .f1 => cfg.flushWin1

/-- The constraints on one row of FAMILY (R11). -/
def geometryOk (g : Geometry) : Bool :=
  decide (g.height % 8 = 0) && decide (1 ≤ g.width) && decide (g.width ≤ 32767) &&
    decide (8 ≤ g.height) && decide (g.height ≤ 32767) && decide (fbBytes g ≤ 65536)

/-- The constraints on the parameters: R11 (exactly one family has the quirk), and two command bytes for
each orientation (R105). -/
def configOk (cfg : Config) : Bool :=
  geometryOk cfg.family0 && geometryOk cfg.family1 && (cfg.family0.quirk != cfg.family1.quirk) &&
    decide (cfg.cmd.orientNormal.length = 2) && decide (cfg.cmd.orientRotated.length = 2)

/-- FAMILY's default, family 0: 128 x 64, no quirk (R11). PRESUMED (the spec: from general knowledge),
unsafe. Log entry 1. -/
def defaultFamily0 : Geometry := ⟨128, 64, false⟩

/-- FAMILY's default, family 1: 128 x 32, quirk (R11). PRESUMED, unsafe. Log entry 1. -/
def defaultFamily1 : Geometry := ⟨128, 32, true⟩

/-- CMD's defaults (R104). PRESUMED (the spec: from general knowledge), unsafe. Log entry 2. -/
def defaultCmd : CmdTable where
  displayOff := 0xAE
  displayOn := 0xAF
  contrast := 0x81
  normal := 0xA6
  invert := 0xA7
  orientNormal := [0xA1, 0xC8]
  orientRotated := [0xA0, 0xC0]
  addrModeSeq := [0x00, 0x10, 0x40, 0x20, 0x00]

/-- BRINGUP_f's default for both families (R107). PRESUMED (the spec: from general knowledge), unsafe.
Log entry 3. -/
def defaultBringup : List Byte :=
  [0xA8, 0x3F, 0xD3, 0x00, 0xD5, 0x80, 0xD9, 0xF1, 0xDA, 0x12, 0xDB, 0x40, 0x8D, 0x14]

/-- The parameters of the machine after reset: the spec's defaults, and the free FLUSH_WIN_f (R108).
DEFAULT_FONT is none (R14), log entry 21. -/
def defaultConfig : Config where
  family0 := defaultFamily0
  family1 := defaultFamily1
  cmd := defaultCmd
  bringup0 := defaultBringup
  bringup1 := defaultBringup
  flushWin0 := Config.openFlushWin .f0
  flushWin1 := Config.openFlushWin .f1
  defaultFont := none

end Sys2Proof.Machine
end

