-- ==== Sys2Proof/Machine/State.lean ====
section
/-! DEFINITION. The state of one PMFB instance (10_state.md) and the inputs its steps read. -/

namespace Sys2Proof.Machine

/-- The device power/init state (R24). -/
inductive PowerState where
  | uninit
  | ready
  | off
  deriving DecidableEq, Repr

/-- The fault codes held in `fault` (R252). -/
inductive FaultCode where
  | none
  | illegal
  | state
  | overrun
  | clearToggle
  | extRead
  | fontUnset
  | bus
  | alloc
  | index
  deriving DecidableEq, Repr

/-- One transaction of the bus log: device address, all bytes with the control prefix, the transport's
answer (R36, R100). -/
structure Transaction where
  addr : DevAddr
  bytes : List Byte
  outcome : Answer
  deriving DecidableEq, Repr

/-- What exists only while the framebuffer is allocated (R25): the family, the device address and the
framebuffer. An unlisted framebuffer byte holds no value (R28, R293). -/
structure Surface where
  fam : Family
  devaddr : DevAddr
  fb : Memory
  deriving DecidableEq, Repr

/-- The state record (R23), the parameters (R11 to R14), and the inputs a step reads: XM (R38), the
words the host has still to hand over (R21) and the draws (R15). -/
structure State where
  /-- The parameters; no step changes them. -/
  cfg : Config
  /-- `pstate` (R24). -/
  pstate : PowerState
  /-- Present exactly while `alive` (R25): `fam`, `devaddr`, `fb` (R26 to R28). -/
  surf : Option Surface
  /-- `sh_contrast` (R29). -/
  shContrast : Option Byte
  /-- `sh_invert` (R30). -/
  shInvert : Option InvertMode
  /-- `sh_orient` (R31). -/
  shOrient : Option Orientation
  /-- `font` (R33). -/
  font : Option XAddr
  /-- `res` (R34). -/
  res : Option (BitVec 32)
  /-- `fault` (R35). -/
  fault : FaultCode
  /-- `fault_word` (R42). -/
  faultWord : Option Word
  /-- `fault_info` (R42). -/
  faultInfo : BitVec 32
  /-- `buslog` (R36). -/
  buslog : List Transaction
  /-- `shown` (R37). -/
  shown : Option (List Byte)
  /-- XM, the host's memory (R38, R59). -/
  xm : Memory
  /-- The words the host has still to hand over; the head is the word being executed (R21). -/
  pending : List Word
  /-- The operation index `k` (R21). -/
  opIndex : Nat
  /-- The model's own: the transport's answers by `buslog` position, as far as fixed (R15). -/
  busScript : List Answer
  /-- The model's own: the allocator's answers, as far as fixed (R15). -/
  allocScript : List Answer
  /-- The model's own: allocation draws taken so far (R15). -/
  allocCount : Nat
  deriving DecidableEq, Repr

/-- Why PMFB takes no step. No operation raises one: a fault of the spec is a NEXT state that records it
(R262). -/
inductive Fault where
  /-- Raised by the step and by every operation on a block that has recorded a fault: "From then on PMFB
  takes no step" (R262). Safe: the spec stops too. Log entry 12. -/
  | stuck
  /-- Raised by the step when the host has no further word: the run has ended (R21) or the block waits
  (R291). Safe: PMFB never acts on its own (R275). Log entry 11. -/
  | noWord
  deriving DecidableEq, Repr

/-- Why the model gives an operation no meaning. -/
inductive Refusal where
  /-- Raised by an arm of `exec` whose operation has no meaning yet (none has at present). Safe. -/
  | notModelled (mnemonic : String)
  deriving DecidableEq, Repr

/-- The block reset (R290), with the inputs of the run: parameters, XM, and the draws as far as fixed. -/
def State.resetWith (cfg : Config) (xm : Memory) (busScript allocScript : List Answer) : State where
  cfg := cfg
  pstate := .uninit
  surf := none
  shContrast := none
  shInvert := none
  shOrient := none
  font := none
  res := none
  fault := .none
  faultWord := none
  faultInfo := 0
  buslog := []
  shown := none
  xm := xm
  pending := []
  opIndex := 0
  busScript := busScript
  allocScript := allocScript
  allocCount := 0

/-- The machine right after the block reset (R290): the default parameters, nothing defined in XM, every
draw free. -/
def State.reset : State := State.resetWith defaultConfig [] [] []

end Sys2Proof.Machine
end

