-- ==== Sys2Proof/Machine/Flags.lean ====
section
/-! DEFINITION. PMFB has no flag and no condition code (R22): the only status is the fault register and
the result register. Here: the numbers of the fault codes and the writes of the status registers. -/

namespace Sys2Proof.Machine

/-- The 8-bit number of a fault code (R252). -/
def FaultCode.code : FaultCode → BitVec 8
  | .none => 0
  | .illegal => 1
  | .state => 2
  | .overrun => 3
  | .clearToggle => 4
  | .extRead => 5
  | .fontUnset => 6
  | .bus => 7
  | .alloc => 8
  | .index => 9

/-- A detail as the 32 bits of `fault_info` (R42). What a detail of 2^32 or more records is not stated: a
free value, safe, log entry 9. -/
def infoOf (n : Nat) : BitVec 32 := if n < 2 ^ 32 then BitVec.ofNat 32 n else Config.freeInfo n

/-- The write of `res`: a value zero-extended to 32 bits (R34). -/
def setRes (v : BitVec 32) (s : State) : State := { s with res := some v }

end Sys2Proof.Machine
end

