-- ==== Sys2Proof/Machine/Operands.lean ====
section
/-! DEFINITION. Operand forms of the pixel operations: bounds, row transform, bit address, colour
(20_memory.md section 2, 40_display_surface.md section 3). -/

namespace Sys2Proof.Machine

/-- The bounds check of `plot`, on the logical row (R128). -/
def inBounds (g : Geometry) (x y : Int) : Bool :=
  decide (0 ≤ x) && decide (x < g.width) && decide (0 ≤ y) && decide (y < g.height)

/-- The buffer row of a logical row: `2y + 1` on the quirk family (R127). -/
def bufferRow (g : Geometry) (y : Nat) : Nat := if g.quirk then 2 * y + 1 else y

/-- The byte index of a column and buffer row (R54). -/
def byteIndex (g : Geometry) (x r : Nat) : Nat := x + r / 8 * g.width

/-- The bit number of a buffer row, 0 = LSB = top row of the page (R53, R54). -/
def bitIndex (r : Nat) : Nat := r % 8

/-- Byte index and bit number of a pixel that passes the bounds check (R126). The index can lie past the
buffer, on the quirk family only (R127). -/
def pixelAddr (g : Geometry) (x y : Int) : Nat × Nat :=
  (byteIndex g x.toNat (bufferRow g y.toNat), bitIndex (bufferRow g y.toNat))

/-- A colour applied to bit `k` of a byte (R125). -/
def applyColour (c : Colour) (k : Nat) (v : Byte) : Byte :=
  match c with
  | .set => v ||| (1#8 <<< k)
  | .clear => v &&& (0xFF#8 ^^^ (1#8 <<< k))
  | .toggle => v ^^^ (1#8 <<< k)

/-- The byte CLEAR writes (R129). -/
def fillByte (c : Colour) : Byte := if c = .set then 0xFF else 0x00

end Sys2Proof.Machine
end

