-- ==== Sys2Proof/Machine/Ops.lean ====
section
/-! DEFINITION. The named operations every meaning is written over: the common step, taking a fault,
sequencing, the framebuffer, external memory and the bus. -/

namespace Sys2Proof.Machine

/-! ## Accessors of the state -/

/-- `alive` (R25). -/
def State.alive (s : State) : Bool := s.surf.isSome

/-- The operation word being executed (R21, R120). -/
def State.opWord (s : State) : Option Word := s.pending.head?

/-- Geometry of the constructed family (R12, R26). -/
def State.geom (s : State) (d : Surface) : Geometry := geomOf s.cfg d.fam

/-- FB_BYTES of the constructed family (R12). -/
def State.fbSize (s : State) (d : Surface) : Nat := fbBytes (s.geom d)

/-! ## Taking a fault -/

/-- Fault entry (R262): the code, the word being executed and the detail are recorded, and the operation
ends. There is no handler and no return (R250, R266), so this is the whole of taking an exception. -/
def raise (c : FaultCode) (info : BitVec 32) (s : State) : State :=
  { s with fault := c, faultWord := s.opWord, faultInfo := info }

/-! ## Sequencing -/

/-- The next step of an operation, which runs only while no fault is recorded (R262, R263). -/
def andThen (s : State) (f : State → State) : State := if s.fault = .none then f s else s

/-- `for a in as: f a` (R18), ended by the first fault. -/
def forEach {α : Type} (f : α → State → State) : List α → State → State
  | [], s => s
  | a :: as, s => andThen s fun s => forEach f as (f a s)

/-! ## The common step (R120), after decoding -/

/-- An operation on a block that may be stuck (R120, R262). -/
def operation (s : State) (body : State → State) : Host.Outcome State Fault Refusal :=
  if s.fault = .none then .next (body s) else .fault .stuck

/-- An operation other than CONSTRUCT: `F_STATE` if not `alive` (R120, R254). -/
def onSurface (s : State) (body : Surface → State → State) : Host.Outcome State Fault Refusal :=
  operation s fun s =>
    match s.surf with
    | some d => body d s
    | none => raise .state 0 s

/-! ## Framebuffer (R55, R56) -/

/-- The framebuffer replaced. -/
def State.withFb (s : State) (d : Surface) (fb : Memory) : State :=
  { s with surf := some { d with fb := fb } }

/-- FBRead (R55). A byte nothing has written since allocation holds no value; no run reads one (R293). If
read, it is a free value, safe, log entry 8. -/
def fbRead (d : Surface) (i : Nat) : Byte := (d.fb.read i).getD (Config.freeFbByte i)

/-- FBWrite (R56): past the end nothing is written and `F_OVERRUN` is raised with the index. -/
def fbWrite (d : Surface) (i : Nat) (v : Byte) (s : State) : State :=
  if i < s.fbSize d then s.withFb d (d.fb.write i v) else raise .overrun (infoOf i) s

/-- The bytes `fb[0] .. fb[FB_BYTES-1]` in ascending order (R57, R130). -/
def fbBytesOf (s : State) (d : Surface) : List Byte := (List.range (s.fbSize d)).map (fbRead d)

/-- The writes `FBWrite(i, bytes[i])` for `i = 0 .. FB_BYTES-1`, `bytes` of that length (R122 group 7,
R129, R132), as one write of the whole buffer. Log entry 16. -/
def fbFill (d : Surface) (bytes : List Byte) (s : State) : State :=
  s.withFb d (Memory.ofBytes bytes)

/-- The pixel-set (R126): bounds check (R128), row transform (R127), overrun check (R56), colour (R125). -/
def plot (x y : Int) (c : Colour) (s : State) : State :=
  match s.surf with
  | none => s
  | some d =>
    if inBounds (s.geom d) x y then
      let a := pixelAddr (s.geom d) x y
      if a.1 < s.fbSize d then fbWrite d a.1 (applyColour c a.2 (fbRead d a.1)) s
      else raise .overrun (infoOf a.1) s
    else s

/-- The pixel-set on each pixel in order, ended by the first fault (R180). -/
def plotAll (c : Colour) (ps : List (Int × Int)) (s : State) : State :=
  forEach (fun p => plot p.1 p.2 c) ps s

/-! ## External memory (R59, R60) -/

/-- The first address of a read that lies in XM and holds no byte. -/
def firstUndefined (xm : Memory) (a n : Nat) : Option Nat :=
  ((List.range n).map (a + ·)).find? fun q => decide (q < 2 ^ 32) && (xm.read q).isNone

/-- MemRead (R60): the `n` bytes from address `a`, or the detail of `F_EXT_READ` (R252). Where a read both
meets an undefined byte and passes the top of XM, which of the two details is recorded is not stated: a
free choice, safe, log entry 10. -/
def memRead (xm : Memory) (a n : Nat) : Except (BitVec 32) (List Byte) :=
  if 2 ^ 32 < a + n then
    match firstUndefined xm a n with
    | none => .error 0xFFFFFFFF
    | some q => .error (if Config.topReportedFirst a then 0xFFFFFFFF else BitVec.ofNat 32 q)
  else
    match firstUndefined xm a n with
    | none => .ok ((List.range n).filterMap fun i => xm.read (a + i))
    | some q => .error (BitVec.ofNat 32 q)

/-- MemRead inside an operation: the step that needs the bytes, or `F_EXT_READ` (R257). -/
def withMem (a n : Nat) (k : List Byte → State → State) (s : State) : State :=
  match memRead s.xm a n with
  | .ok bs => k bs s
  | .error info => raise .extRead info s

/-! ## Draws (R15) -/

/-- The transport's answer for the transaction at a `buslog` position. Log entry 5. -/
def State.busAnswer (s : State) (p : Nat) : Answer := (s.busScript[p]?).getD (Config.freeBusAnswer p)

/-- The allocator's answer for the next CONSTRUCT. Log entry 5. -/
def State.allocAnswer (s : State) : Answer :=
  (s.allocScript[s.allocCount]?).getD (Config.freeAllocAnswer s.allocCount)

/-! ## The bus (R100 to R102, R109) -/

/-- One transaction: logged with the transport's answer; on fail `F_BUS` with its position (R101, R259). -/
def busSend (bytes : List Byte) (s : State) : State :=
  match s.surf with
  | none => s
  | some d =>
    let p := s.buslog.length
    let t := { s with buslog := s.buslog ++ [⟨d.devaddr, bytes, s.busAnswer p⟩] }
    if s.busAnswer p = .ok then t else raise .bus (infoOf p) t

/-- BusCmd (R101). -/
def busCmd (b : Byte) (s : State) : State := busSend [0x00, b] s

/-- BusCmds (R109). -/
def busCmds (bs : List Byte) (s : State) : State := forEach busCmd bs s

/-- BusData (R102): `shown` takes the payload of a transaction that was ok (R37). -/
def busData (payload : List Byte) (s : State) : State :=
  andThen (busSend (0x40 :: payload) s) fun s => { s with shown := some payload }

/-- FlushBytes (R130): the window commands of the family, then one data transaction. -/
def flushBytes (d : Surface) (payload : List Byte) (s : State) : State :=
  andThen (busCmds (flushWinOf s.cfg d.fam) s) (busData payload)

end Sys2Proof.Machine
end

