-- ==== Sys2Proof/Machine/Glyphs.lean ====
section
/-! DEFINITION. The glyph operations of the Rasterizer and font selection (42_rasterizer_glyphs.md). -/

namespace Sys2Proof.Machine

/-! ## Font table -/

/-- GlyphParams (R221): the step that needs glyph height and width, read from the font header each time;
`F_FONT_UNSET` with no font (R258). `k` receives the font address, H and W. -/
def withGlyphParams (k : Nat → Nat → Nat → State → State) (s : State) : State :=
  match s.font with
  | none => raise .fontUnset 0 s
  | some f =>
    withMem f.toNat 2 (fun bs => k f.toNat (bs.getD 0 0).toNat (bs.getD 1 0).toNat) s

/-- A character code with a glyph (R223). -/
def printable (ch : Nat) : Bool := decide (0x20 ≤ ch) && decide (ch ≤ 0x7E)

/-- The address of a glyph's first column (R220, R224). -/
def glyphBase (font W ch : Nat) : Nat := font + 2 + (ch - 0x20) * W

/-! ## Glyph blit -/

/-- The pixels of one column byte: a pixel per set bit, rows 0 to `H-1` and at most 7, top to bottom
(R222, R224). -/
def columnPixels (x y : Int) (H : Nat) (b : Byte) : List (Int × Int) :=
  ((List.range H).filter fun row => decide (row ≤ 7) && b.getLsbD row).map fun row : Nat => (x, y + (row : Int))

/-- One column of a glyph: its byte is read just before its bits are plotted (R222). -/
def drawColumn (x y : Int) (c : Colour) (H base col : Nat) (s : State) : State :=
  withMem (base + col) 1 (fun bs => plotAll c (columnPixels (x + col) y H (bs.getD 0 0))) s

/-- DrawGlyph (R222); an unsupported code is skipped (R223). -/
def drawGlyph (x y : Int) (ch : Nat) (c : Colour) (s : State) : State :=
  if printable ch then
    withGlyphParams (fun font H W =>
      forEach (drawColumn x y c H (glyphBase font W ch)) (List.range W)) s
  else s

/-- CHAR (R222). -/
def execChar (x y : Int) (ch : Nat) (c : Colour) (s : State) : Host.Outcome State Fault Refusal :=
  onSurface s fun _ s => drawGlyph x y ch c s

/-! ## String layout -/

/-- The loop of STRING (R225): `n` characters from address `a`, cursor `cx`; read the character, draw it,
read the header again for the advance. -/
def drawString (y : Int) (c : Colour) : Nat → Int → Nat → State → State
  | 0, _, _, s => s
  | n + 1, cx, a, s =>
      withMem a 1 (fun bs s =>
        andThen (drawGlyph cx y (bs.getD 0 0).toNat c s) fun s =>
          withGlyphParams (fun _ _ W => drawString y c n (cx + W + 1) (a + 1)) s) s

/-- STRING (R225). -/
def execString (x y : Int) (addr : XAddr) (len : Nat) (c : Colour) (s : State) :
    Host.Outcome State Fault Refusal :=
  onSurface s fun _ s => drawString y c len x addr.toNat s

/-! ## Font selection -/

/-- SETFONT (R226). -/
def execSetfont (addr : XAddr) (s : State) : Host.Outcome State Fault Refusal :=
  onSurface s fun _ s => { s with font := some addr }

/-- GETFONT (R227). -/
def execGetfont (s : State) : Host.Outcome State Fault Refusal :=
  onSurface s fun _ s =>
    match s.font with
    | some f => setRes f s
    | none => raise .fontUnset 0 s

end Sys2Proof.Machine
end

