-- ==== Sys2Proof/Machine/Lines.lean ====
section
/-! DEFINITION. The line and shape operations of the Rasterizer (41_rasterizer_lines.md). Each is the list
of pixels it plots, in order, handed to the pixel-set (R180). -/

namespace Sys2Proof.Machine

/-! ## Lines -/

/-- The loop of LINE (R181): `n` iterations from `x`, with the running `y` and `err`. -/
def lineLoop (steep : Bool) (dx dy ystep : Int) : Nat → Int → Int → Int → List (Int × Int)
  | 0, _, _, _ => []
  | n + 1, x, y, err =>
      (if steep then (y, x) else (x, y)) ::
        (if err - dy < 0 then lineLoop steep dx dy ystep n (x + 1) (y + ystep) (err - dy + dx)
         else lineLoop steep dx dy ystep n (x + 1) y (err - dy))

/-- The loop of LINE from major-axis endpoints already in left-to-right order (R181). -/
def lineFrom (steep : Bool) (x0 y0 x1 y1 : Int) : List (Int × Int) :=
  lineLoop steep (x1 - x0) |y1 - y0| (if y1 ≥ y0 then 1 else -1) ((x1 - x0).toNat + 1) x0 y0
    ((x1 - x0) / 2)

/-- The two swaps of LINE (R181): the axes when steep, then the endpoints when right to left. -/
def linePixels (x0 y0 x1 y1 : Int) : List (Int × Int) :=
  let steep : Bool := decide (|y1 - y0| > |x1 - x0|)
  let a0 := if steep then y0 else x0
  let b0 := if steep then x0 else y0
  let a1 := if steep then y1 else x1
  let b1 := if steep then x1 else y1
  if a0 > a1 then lineFrom steep a1 b1 a0 b0 else lineFrom steep a0 b0 a1 b1

/-- HLINE's pixels (R183), exact arithmetic. -/
def hlinePixels (x y w : Int) : List (Int × Int) := linePixels x y (x + w - 1) y

/-- VLINE's pixels (R184), exact arithmetic. -/
def vlinePixels (x y h : Int) : List (Int × Int) := linePixels x y x (y + h - 1)

/-- LINE (R181). -/
def execLine (x0 y0 x1 y1 : Int) (c : Colour) (s : State) : Host.Outcome State Fault Refusal :=
  onSurface s fun _ s => plotAll c (linePixels x0 y0 x1 y1) s

/-- HLINE (R183). -/
def execHline (x y w : Int) (c : Colour) (s : State) : Host.Outcome State Fault Refusal :=
  onSurface s fun _ s => plotAll c (hlinePixels x y w) s

/-- VLINE (R184). -/
def execVline (x y h : Int) (c : Colour) (s : State) : Host.Outcome State Fault Refusal :=
  onSurface s fun _ s => plotAll c (vlinePixels x y h) s

/-! ## Rectangles -/

/-- RECT's pixels (R186): top, bottom, left, right edge. -/
def rectPixels (x y w h : Int) : List (Int × Int) :=
  hlinePixels x y w ++ hlinePixels x (y + h - 1) w ++ vlinePixels x y h ++ vlinePixels (x + w - 1) y h

/-- FRECT's pixels (R187): `w` columns left to right, none when `w <= 0`. -/
def frectPixels (x y w h : Int) : List (Int × Int) :=
  (List.range w.toNat).flatMap fun i : Nat => vlinePixels (x + (i : Int)) y h

/-- `clamp(v, lo, hi)` (R16). -/
def clamp (v lo hi : Int) : Int := min (max v lo) hi

/-- The fill width of PBAR (R188): exact product, then floor. -/
def fillWidth (w progress : Int) : Int := Int.fdiv (w * clamp progress 0 100) 100

/-- PBAR's pixels (R188): the outline at full size, then the fill from the left edge. -/
def pbarPixels (x y w h progress : Int) : List (Int × Int) :=
  rectPixels x y w h ++ frectPixels x y (fillWidth w progress) h

/-- RECT (R186). -/
def execRect (x y w h : Int) (c : Colour) (s : State) : Host.Outcome State Fault Refusal :=
  onSurface s fun _ s => plotAll c (rectPixels x y w h) s

/-- FRECT (R187). -/
def execFrect (x y w h : Int) (c : Colour) (s : State) : Host.Outcome State Fault Refusal :=
  onSurface s fun _ s => plotAll c (frectPixels x y w h) s

/-- PBAR (R188). -/
def execPbar (x y w h progress : Int) (c : Colour) (s : State) : Host.Outcome State Fault Refusal :=
  onSurface s fun _ s => plotAll c (pbarPixels x y w h progress) s

end Sys2Proof.Machine
end

