-- ==== Sys2Proof/Machine/Surface.lean ====
section
/-! DEFINITION. The Display Surface operations (40_display_surface.md). -/

namespace Sys2Proof.Machine

/-! ## Construction and destruction -/

/-- Bring-up groups 1 to 6 with their shadow writes (R106, R122). -/
def bringUpCommands (f : Family) (s : State) : State :=
  andThen (busCmd s.cfg.cmd.displayOff s) fun s =>
  andThen (busCmds s.cfg.cmd.addrModeSeq s) fun s =>
  andThen (busCmds [s.cfg.cmd.contrast, 0xFF] s) fun s =>
  andThen { s with shContrast := some 0xFF } fun s =>
  andThen (busCmds s.cfg.cmd.orientNormal s) fun s =>
  andThen { s with shOrient := some .normal } fun s =>
  andThen (busCmds (bringupOf s.cfg f) s) fun s =>
  busCmd s.cfg.cmd.displayOn s

/-- The bring-up sequence (R122) on the surface `d` just allocated: groups 1 to 6, the clear of group 7,
the flush of group 8. -/
def bringUp (d : Surface) (s : State) : State :=
  andThen (bringUpCommands d.fam s) fun s =>
  andThen (fbFill d (List.replicate (s.fbSize d) 0x00) s) fun s =>
  flushBytes d (List.replicate (s.fbSize d) 0x00) s

/-- CONSTRUCT after a successful allocation (R121): every byte without a value (R293), the shadow none, the
font DEFAULT_FONT. -/
def allocated (addr7 : DevAddr) (sel : Family) (s : State) : State :=
  { s with
    surf := some ⟨sel, addr7, []⟩
    shContrast := none
    shInvert := none
    shOrient := none
    font := s.cfg.defaultFont }

/-- CONSTRUCT (R121). `F_STATE` while alive (R120); `F_ALLOC` if the allocation draw fails (R260). -/
def constructBody (addr7 : DevAddr) (sel : Family) (s : State) : State :=
  if s.alive then raise .state 0 s
  else
    let s' := { s with pstate := .uninit, allocCount := s.allocCount + 1 }
    if s.allocAnswer = .ok then
      andThen (bringUp ⟨sel, addr7, []⟩ (allocated addr7 sel s')) fun s => { s with pstate := .ready }
    else raise .alloc 0 s'

/-- CONSTRUCT (R121). -/
def execConstruct (addr7 : DevAddr) (sel : Family) (s : State) : Host.Outcome State Fault Refusal :=
  operation s (constructBody addr7 sel)

/-- DESTRUCT (R124). -/
def execDestruct (s : State) : Host.Outcome State Fault Refusal :=
  onSurface s fun _ s => { s with surf := none }

/-! ## Pixel-set -/

/-- SETPIX (R126). -/
def execSetpix (x y : Int) (c : Colour) (s : State) : Host.Outcome State Fault Refusal :=
  onSurface s fun _ s => plot x y c s

/-! ## Whole-buffer operations -/

/-- CLEAR (R129); `F_CLEAR_TOGGLE` for TOGGLE (R256). -/
def execClear (c : Colour) (s : State) : Host.Outcome State Fault Refusal :=
  onSurface s fun d s =>
    if c = .toggle then raise .clearToggle 0 s
    else fbFill d (List.replicate (s.fbSize d) (fillByte c)) s

/-- FLUSH (R130). -/
def execFlush (s : State) : Host.Outcome State Fault Refusal :=
  onSurface s fun d s => flushBytes d (fbBytesOf s d) s

/-- FLUSHX (R131): the frame is read whole before the first transaction. -/
def execFlushx (addr : XAddr) (s : State) : Host.Outcome State Fault Refusal :=
  onSurface s fun d s => withMem addr.toNat (s.fbSize d) (flushBytes d) s

/-- LOADBMP (R132): the bitmap is read whole before the first write. -/
def execLoadbmp (addr : XAddr) (s : State) : Host.Outcome State Fault Refusal :=
  onSurface s fun d s => withMem addr.toNat (s.fbSize d) (fbFill d) s

/-! ## Setters: the shadow is written after every transaction succeeded (R133) -/

/-- CONTRAST (R133). -/
def execContrast (v : Byte) (s : State) : Host.Outcome State Fault Refusal :=
  onSurface s fun _ s =>
    andThen (busCmds [s.cfg.cmd.contrast, v] s) fun s => { s with shContrast := some v }

/-- The command byte of INVERT (R134). -/
def invertByte (t : CmdTable) (e : InvertMode) : Byte := if e = .inverted then t.invert else t.normal

/-- INVERT (R134). -/
def execInvert (e : InvertMode) (s : State) : Host.Outcome State Fault Refusal :=
  onSurface s fun _ s =>
    andThen (busCmd (invertByte s.cfg.cmd e) s) fun s => { s with shInvert := some e }

/-- The command bytes of ORIENT (R135). -/
def orientBytes (t : CmdTable) (e : Orientation) : List Byte :=
  if e = .rotated then t.orientRotated else t.orientNormal

/-- ORIENT (R135). -/
def execOrient (e : Orientation) (s : State) : Host.Outcome State Fault Refusal :=
  onSurface s fun _ s =>
    andThen (busCmds (orientBytes s.cfg.cmd e) s) fun s => { s with shOrient := some e }

/-- The command byte of POWER (R136). -/
def powerByte (t : CmdTable) (e : PowerArg) : Byte := if e = .on then t.displayOn else t.displayOff

/-- The power state POWER leads to (R136, R137). -/
def powerTarget (e : PowerArg) : PowerState := if e = .on then .ready else .off

/-- POWER (R136). -/
def execPower (e : PowerArg) (s : State) : Host.Outcome State Fault Refusal :=
  onSurface s fun _ s =>
    andThen (busCmd (powerByte s.cfg.cmd e) s) fun s => { s with pstate := powerTarget e }

/-! ## Accessors and read-back -/

/-- GETBUFSZ (R138). -/
def execGetbufsz (s : State) : Host.Outcome State Fault Refusal :=
  onSurface s fun d s => setRes (BitVec.ofNat 32 (s.fbSize d)) s

/-- GETW (R139). -/
def execGetw (s : State) : Host.Outcome State Fault Refusal :=
  onSurface s fun d s => setRes (BitVec.ofNat 32 (s.geom d).width) s

/-- GETH (R140). -/
def execGeth (s : State) : Host.Outcome State Fault Refusal :=
  onSurface s fun d s => setRes (BitVec.ofNat 32 (s.geom d).height) s

/-- RDFB (R141); `F_INDEX` past the buffer (R261). -/
def execRdfb (idx : Nat) (s : State) : Host.Outcome State Fault Refusal :=
  onSurface s fun d s =>
    if idx < s.fbSize d then setRes ((fbRead d idx).zeroExtend 32) s
    else raise .index (infoOf idx) s

end Sys2Proof.Machine
end

