-- ==== Sys2Proof/Machine/Dispatch.lean ====
section
/-! DEFINITION. The meaning of every operation: the common step of R120 after decoding. -/

namespace Sys2Proof.Machine

def exec (i : Instr) (s : State) : Host.Outcome State Fault Refusal :=
  match i with
  | .construct addr7 sel => Sys2Proof.Machine.execConstruct addr7 sel s
  | .destruct => Sys2Proof.Machine.execDestruct s
  | .setpix x y c => Sys2Proof.Machine.execSetpix x y c s
  | .clear c => Sys2Proof.Machine.execClear c s
  | .flush => Sys2Proof.Machine.execFlush s
  | .flushx addr => Sys2Proof.Machine.execFlushx addr s
  | .loadbmp addr => Sys2Proof.Machine.execLoadbmp addr s
  | .contrast v => Sys2Proof.Machine.execContrast v s
  | .invert e => Sys2Proof.Machine.execInvert e s
  | .orient e => Sys2Proof.Machine.execOrient e s
  | .power e => Sys2Proof.Machine.execPower e s
  | .getbufsz => Sys2Proof.Machine.execGetbufsz s
  | .getw => Sys2Proof.Machine.execGetw s
  | .geth => Sys2Proof.Machine.execGeth s
  | .rdfb idx => Sys2Proof.Machine.execRdfb idx s
  | .line x0 y0 x1 y1 c => Sys2Proof.Machine.execLine x0 y0 x1 y1 c s
  | .hline x y w c => Sys2Proof.Machine.execHline x y w c s
  | .vline x y h c => Sys2Proof.Machine.execVline x y h c s
  | .rect x y w h c => Sys2Proof.Machine.execRect x y w h c s
  | .frect x y w h c => Sys2Proof.Machine.execFrect x y w h c s
  | .pbar x y w h progress c => Sys2Proof.Machine.execPbar x y w h progress c s
  | .char x y ch c => Sys2Proof.Machine.execChar x y ch c s
  | .string x y addr len c => Sys2Proof.Machine.execString x y addr len c s
  | .setfont addr => Sys2Proof.Machine.execSetfont addr s
  | .getfont => Sys2Proof.Machine.execGetfont s

end Sys2Proof.Machine
end

