-- ==== Sys2Proof/Machine/Run.lean ====
section
/-! DEFINITION. What a step does with a word: decoding, the illegal word, the operation index (R21, R120). -/

namespace Sys2Proof.Machine

/-- The index moves past a word that completed without a fault (R21). -/
def State.retire (s : State) : State :=
  if s.fault = .none then { s with pending := s.pending.tail, opIndex := s.opIndex + 1 } else s

/-- The outcome of an operation, with the index moved. -/
def retireOutcome : Host.Outcome State Fault Refusal → Host.Outcome State Fault Refusal
  | .next s => .next s.retire
  | .fault f => .fault f
  | .refused r => .refused r

/-- One word, decoded and executed; an illegal word raises `F_ILLEGAL` before any other check (R89, R253). -/
def runWord (w : Word) (s : State) : Host.Outcome State Fault Refusal :=
  match decode w with
  | .ok i => retireOutcome (exec i s)
  | .error _ => .next (raise .illegal 0 s)

end Sys2Proof.Machine
end

