-- ==== Sys2Proof/Machine/Step.lean ====
section
/-! DEFINITION. One step: the next word of the host, executed to completion or to its first fault (R120). -/

namespace Sys2Proof.Machine

/-- One step (R120). A block that has recorded a fault takes none (R262); without a word from the host PMFB
takes none either (R275). -/
def step (s : State) : Host.Outcome State Fault Refusal :=
  if s.fault = .none then
    match s.opWord with
    | some w => runWord w s
    | none => .fault .noWord
  else .fault .stuck

/-- The state with a word handed over by the host as the next one (R275): the word numbered as the opcode
table numbers it, bits at `nbits` and above 0. -/
def State.withFetchWord (s : State) (nbits w : Nat) : State :=
  { s with pending := BitVec.ofNat 128 (w % 2 ^ nbits) :: s.pending.tail }

end Sys2Proof.Machine
end

