-- ==== Sys2Proof/Machine/Assembly.lean ====
section
/-! DEFINITION. The assembler: one line of text to one operation word (30_encoding.md, R94, R95). -/

namespace Sys2Proof.Machine

/-! ## Text -/

/-- A line cut at its commas; a comma inside a quoted character does not cut. -/
def splitCommas : List Char → List Char → List (List Char)
  | acc, [] => [acc.reverse]
  | acc, '\'' :: c :: '\'' :: rest => splitCommas ('\'' :: c :: '\'' :: acc) rest
  | acc, ',' :: rest => acc.reverse :: splitCommas [] rest
  | acc, c :: rest => splitCommas (c :: acc) rest

/-- Spaces at both ends removed. -/
def trimSpaces (cs : List Char) : List Char :=
  ((cs.dropWhile (· = ' ')).reverse.dropWhile (· = ' ')).reverse

/-- The value of a digit in a base of at most 16; letters of either case. -/
def digitOf (base : Nat) (c : Char) : Option Nat :=
  let v :=
    if '0' ≤ c ∧ c ≤ '9' then some (c.toNat - 48)
    else if 'a' ≤ c ∧ c ≤ 'f' then some (c.toNat - 87)
    else if 'A' ≤ c ∧ c ≤ 'F' then some (c.toNat - 55)
    else none
  v.bind fun n => if n < base then some n else none

/-- The digits of a number, at least one. -/
def digitsOf (base : Nat) : List Char → Option Nat
  | [] => none
  | c :: cs => (c :: cs).foldl (fun acc d => acc.bind fun n => (digitOf base d).map fun v => n * base + v) (some 0)

/-- A number: decimal, optionally negative, or `0x` hexadecimal (R94). -/
def numberOf : List Char → Option Int
  | '-' :: cs => (digitsOf 10 cs).map fun n => -(n : Int)
  | '0' :: 'x' :: cs => (digitsOf 16 cs).map fun n => (n : Int)
  | cs => (digitsOf 10 cs).map fun n => (n : Int)

/-! ## Operands: a number out of its field's range is an assembly error, never wrapped (R94) -/

/-- A signed 16-bit operand. -/
def asmS16 (cs : List Char) : Option Int := (numberOf cs).filter fitsS16

/-- An unsigned operand of `n` bits. -/
def asmBits (n : Nat) (cs : List Char) : Option (BitVec n) :=
  (numberOf cs).bind fun v => if 0 ≤ v ∧ v < 2 ^ n then some (BitVec.ofInt n v) else none

/-- A colour: `SET`, `CLEAR` or `TOGGLE`. -/
def asmColour (cs : List Char) : Option Colour :=
  if cs = "SET".toList then some .set
  else if cs = "CLEAR".toList then some .clear
  else if cs = "TOGGLE".toList then some .toggle
  else none

/-- The operand of INVERT. -/
def asmInvert (cs : List Char) : Option InvertMode :=
  if cs = "NORMAL".toList then some .normal else if cs = "INVERTED".toList then some .inverted else none

/-- The operand of ORIENT. -/
def asmOrient (cs : List Char) : Option Orientation :=
  if cs = "NORMAL".toList then some .normal else if cs = "ROTATED".toList then some .rotated else none

/-- The operand of POWER. -/
def asmPower (cs : List Char) : Option PowerArg :=
  if cs = "OFF".toList then some .off else if cs = "ON".toList then some .on else none

/-- A character code: a number, or a quoted character meaning its ASCII code. -/
def asmChar : List Char → Option (BitVec 8)
  | ['\'', c, '\''] => if c.toNat < 128 then some (BitVec.ofNat 8 c.toNat) else none
  | cs => asmBits 8 cs

/-! ## Lines -/

/-- The operation of a mnemonic and its operands, in the order of R94; the four pseudo-instructions expand
to one operation each (R95). `none`: an assembly error. -/
def assembleParts (m : String) (ops : List (List Char)) : Option Instr :=
  match m, ops with
  | "CONSTRUCT", [a, f] => do return .construct (← asmBits 7 a) (familyOf (← asmBits 1 f))
  | "DESTRUCT", [] => some .destruct
  | "SETPIX", [x, y, c] => do return .setpix (← asmS16 x) (← asmS16 y) (← asmColour c)
  | "CLEAR", [c] => do return .clear (← asmColour c)
  | "FLUSH", [] => some .flush
  | "FLUSHX", [a] => do return .flushx (← asmBits 32 a)
  | "LOADBMP", [a] => do return .loadbmp (← asmBits 32 a)
  | "CONTRAST", [v] => do return .contrast (← asmBits 8 v)
  | "INVERT", [e] => do return .invert (← asmInvert e)
  | "ORIENT", [e] => do return .orient (← asmOrient e)
  | "POWER", [e] => do return .power (← asmPower e)
  | "GETBUFSZ", [] => some .getbufsz
  | "GETW", [] => some .getw
  | "GETH", [] => some .geth
  | "RDFB", [i] => do return .rdfb (← asmBits 16 i).toNat
  | "LINE", [x0, y0, x1, y1, c] => do
      return .line (← asmS16 x0) (← asmS16 y0) (← asmS16 x1) (← asmS16 y1) (← asmColour c)
  | "HLINE", [x, y, w, c] => do return .hline (← asmS16 x) (← asmS16 y) (← asmS16 w) (← asmColour c)
  | "VLINE", [x, y, h, c] => do return .vline (← asmS16 x) (← asmS16 y) (← asmS16 h) (← asmColour c)
  | "RECT", [x, y, w, h, c] => do
      return .rect (← asmS16 x) (← asmS16 y) (← asmS16 w) (← asmS16 h) (← asmColour c)
  | "FRECT", [x, y, w, h, c] => do
      return .frect (← asmS16 x) (← asmS16 y) (← asmS16 w) (← asmS16 h) (← asmColour c)
  | "PBAR", [x, y, w, h, p, c] => do
      return .pbar (← asmS16 x) (← asmS16 y) (← asmS16 w) (← asmS16 h) (← asmS16 p) (← asmColour c)
  | "CHAR", [x, y, ch, c] => do
      return .char (← asmS16 x) (← asmS16 y) (← asmChar ch).toNat (← asmColour c)
  | "STRING", [x, y, a, n, c] => do
      return .string (← asmS16 x) (← asmS16 y) (← asmBits 32 a) (← asmBits 16 n).toNat (← asmColour c)
  | "SETFONT", [a] => do return .setfont (← asmBits 32 a)
  | "GETFONT", [] => some .getfont
  | "CLS", [] => some (.clear .clear)
  | "FILL", [] => some (.clear .set)
  | "ON", [] => some (.power .on)
  | "OFF", [] => some (.power .off)
  | _, _ => none

/-- The operation a line of assembly text spells (R94, R95), `none` on an assembly error: the mnemonic, then
the operands after it, cut at commas. Log entry 19. -/
def assembleOp (line : String) : Option Instr :=
  let cs := trimSpaces line.toList
  let rest := trimSpaces (cs.dropWhile (· ≠ ' '))
  assembleParts (String.ofList (cs.takeWhile (· ≠ ' ')))
    (if rest = [] then [] else (splitCommas [] rest).map trimSpaces)

/-- The operation word of a line of assembly text (R94). -/
def assemble (line : String) : Option Word := (assembleOp line).map encode

end Sys2Proof.Machine
end

