-- ==== Sys2Proof/Machine/Platform.lean ====
section
/-! DEFINITION. The outside of the block: what the host can do between steps, the end of a run, and several
instances on one transport (60_exceptions.md sections 6 and 9). -/

namespace Sys2Proof.Machine

/-! ## The host's moves (R275) -/

/-- What the host can do between two steps. It has no other move: it cannot act inside an operation and
cannot reach the framebuffer but through operations (R275). -/
inductive HostMove where
  /-- Hand over one operation word (R275). -/
  | issue (w : Word)
  /-- Define, change or undefine one XM byte (R59). -/
  | setXm (addr : XAddr) (v : Option Byte)
  /-- Start over from the block reset (R266, R290). -/
  | blockReset
  deriving DecidableEq, Repr

/-- The state after a host's move. The block reset keeps the run's inputs: parameters, XM, draws; the
words not yet executed are dropped. Log entry 20. -/
def hostMove : HostMove → State → State
  | .issue w, s => { s with pending := s.pending ++ [w] }
  | .setXm a (some v), s => { s with xm := s.xm.write a.toNat v }
  | .setXm a none, s => { s with xm := s.xm.erase a.toNat }
  | .blockReset, s => State.resetWith s.cfg s.xm s.busScript s.allocScript

/-- Moves of the host, in order. -/
def hostMoves (ms : List HostMove) (s : State) : State := ms.foldl (fun s m => hostMove m s) s

/-! ## The end of a run (R276) -/

/-- Every word has executed and no fault is recorded (R276). -/
def runSucceeded (s : State) : Bool := decide (s.pending = []) && decide (s.fault = .none)

/-- A fault is recorded: the run has ended unsuccessfully (R276). -/
def runFaulted (s : State) : Bool := decide (s.fault ≠ .none)

/-! ## Several instances on one transport (R271, R272) -/

/-- The instances attached to one transport, and every transaction it has carried, in its order, each with
the number of its instance. Instances share no state (R271); XM is the host's, so each holds the same
copy, which no step changes. Log entry 18. -/
structure Platform where
  members : List State
  wire : List (Nat × Transaction)
  deriving DecidableEq, Repr

/-- The transactions a step appended to an instance's log. -/
def newTransactions (before after : State) : List Transaction :=
  after.buslog.drop before.buslog.length

/-- One step of instance `j`; which instance steps is the host's choice (R272). `none`: no such instance. -/
def Platform.stepAt (p : Platform) (j : Nat) : Option (Host.Outcome Platform Fault Refusal) :=
  match p.members[j]? with
  | none => none
  | some s =>
    match step s with
    | .next t =>
        some (.next ⟨p.members.set j t, p.wire ++ (newTransactions s t).map fun x => (j, x)⟩)
    | .fault f => some (.fault f)
    | .refused r => some (.refused r)

/-- The host changes one XM byte: every instance reads the same XM. -/
def Platform.setXm (p : Platform) (a : XAddr) (v : Option Byte) : Platform :=
  { p with members := p.members.map (hostMove (.setXm a v)) }

/-- The transactions of one instance on the wire. -/
def Platform.wireOf (p : Platform) (j : Nat) : List Transaction :=
  (p.wire.filter fun x => decide (x.1 = j)).map (·.2)

end Sys2Proof.Machine
end

