-- ==== Sys2Proof/Safety.lean ====
section
/-! DEFINITION. What holds of every state a run can be in, and the terms statements use. -/

namespace Sys2Proof.Machine

/-! ## The bus log (R36, R100 to R102) -/

/-- A command transaction `[0x00, b]` or a data transaction `[0x40] ++ d` (R100 to R102). -/
def framed (t : Transaction) : Bool :=
  match t.bytes with
  | [0x00, _] => true
  | 0x40 :: _ => true
  | _ => false

/-- The payload of a data transaction that was ok (R37). -/
def payloadOf (t : Transaction) : Option (List Byte) :=
  match t.bytes with
  | 0x40 :: d => if t.outcome = .ok then some d else none
  | _ => none

/-- The payload of the last data transaction that was ok, `none` before the first (R37). -/
def lastShown (log : List Transaction) : Option (List Byte) :=
  log.foldl (fun acc t => (payloadOf t).or acc) none

/-! ## Framebuffer -/

/-- Every byte of the framebuffer holds a value. -/
def fbDefined (n : Nat) (fb : Memory) : Prop := ∀ i, i < n → (fb.read i).isSome = true

/-- A framebuffer of `n` bytes: canonical, no cell outside it (R51). -/
def fbWf (n : Nat) (fb : Memory) : Prop := fb.wf ∧ ∀ i, n ≤ i → fb.read i = none

/-- `for i = 0 .. n-1: FBWrite(i, bytes[i])` (R129, R132). -/
def writeEach (bytes : List Byte) : State → State :=
  forEach (fun (p : Byte × Nat) s =>
    match s.surf with
    | some d => fbWrite d p.2 p.1 s
    | none => s) bytes.zipIdx

/-- An XM: canonical, no cell above the top (R59). -/
def xmWf (xm : Memory) : Prop := xm.wf ∧ ∀ a, 2 ^ 32 ≤ a → xm.read a = none

/-! ## The invariant -/

/-- What every step keeps. -/
structure Inv (s : State) : Prop where
  /-- The parameters meet R11 and R105. -/
  cfgOk : configOk s.cfg = true
  /-- XM is a partial map on 32-bit addresses in canonical form (R59). -/
  xmOk : xmWf s.xm
  /-- The framebuffer is canonical and no byte lies outside it (R51). -/
  fbOk : ∀ d, s.surf = some d → fbWf (s.fbSize d) d.fb
  /-- While alive and not faulted, every framebuffer byte holds a value (R130). -/
  fbFull : ∀ d, s.surf = some d → s.fault = .none → fbDefined (s.fbSize d) d.fb
  /-- While alive and not faulted, the power state is READY or OFF (R24, R137). -/
  powered : s.surf.isSome = true → s.fault = .none → s.pstate ≠ .uninit
  /-- While alive and not faulted, contrast and orientation have been commanded (R123). -/
  commanded : s.surf.isSome = true → s.fault = .none →
    s.shContrast.isSome = true ∧ s.shOrient.isSome = true
  /-- Fault word and detail are recorded only with a fault (R42). -/
  noFault : s.fault = .none → s.faultWord = none ∧ s.faultInfo = 0
  /-- A recorded fault names the word it met (R42). -/
  faulted : s.fault ≠ .none → s.faultWord = s.opWord ∧ s.faultWord.isSome = true
  /-- Every transaction is a command or a data transaction (R100 to R102). -/
  logFramed : ∀ t, t ∈ s.buslog → framed t = true
  /-- Every transaction was ok, but the last one when `F_BUS` is recorded (R259). -/
  logOk : ∀ t, t ∈ s.buslog.dropLast → t.outcome = .ok
  /-- The last transaction failed exactly when `F_BUS` is recorded, and the detail is its position
  (R252, R259). -/
  logLast : s.fault ≠ .bus → ∀ t, t ∈ s.buslog → t.outcome = .ok
  /-- `F_BUS` is recorded with the position of the failed transaction, the last of the log (R252). -/
  logFail : s.fault = .bus →
    ∃ t, s.buslog.getLast? = some t ∧ t.outcome = .fail ∧ s.faultInfo = infoOf (s.buslog.length - 1)
  /-- `shown` is a function of the bus log (R37). -/
  shownOk : s.shown = lastShown s.buslog

/-! ## Terms of statements -/

/-- The transport answers ok for the next `n` transactions. -/
def busOk (s : State) (n : Nat) : Prop :=
  ∀ p, s.buslog.length ≤ p → p < s.buslog.length + n → s.busAnswer p = .ok

/-- The transactions of a list of byte strings, all ok, to one device. -/
def okLog (a : DevAddr) (bss : List (List Byte)) : List Transaction := bss.map fun bs => ⟨a, bs, .ok⟩

/-- The command transactions of a list of command bytes (R101). -/
def cmdBytes (bs : List Byte) : List (List Byte) := bs.map fun b => [0x00, b]

/-- The transactions of one flush of `d` (R130). -/
def flushLog (cfg : Config) (f : Family) (d : List Byte) : List (List Byte) :=
  cmdBytes (flushWinOf cfg f) ++ [0x40 :: d]

/-- The command bytes of bring-up groups 1 to 6 (R106). -/
def bringUpBytes (cfg : Config) (f : Family) : List Byte :=
  [cfg.cmd.displayOff] ++ cfg.cmd.addrModeSeq ++ [cfg.cmd.contrast, 0xFF] ++ cfg.cmd.orientNormal ++
    bringupOf cfg f ++ [cfg.cmd.displayOn]

/-- One bit of a framebuffer byte. -/
def fbBit (fb : Memory) (i k : Nat) : Option Bool := (fb.read i).map fun b => b.getLsbD k

/-- A bit after `n` applications of a colour (R125). -/
def bitAfter (c : Colour) (n : Nat) (b : Bool) : Bool :=
  match c with
  | .set => b || decide (0 < n)
  | .clear => b && decide (n = 0)
  | .toggle => b ^^ decide (n % 2 = 1)

/-- The pixels that pass the bounds check (R128), as byte index and bit number (R126, R127). -/
def targets (g : Geometry) (ps : List (Int × Int)) : List (Nat × Nat) :=
  (ps.filter fun p => inBounds g p.1 p.2).map fun p => pixelAddr g p.1 p.2

/-- No pixel of the list that passes the bounds check lies past the buffer (R56). -/
def noOverrun (g : Geometry) (ps : List (Int × Int)) : Prop := ∀ a, a ∈ targets g ps → a.1 < fbBytes g

/-- How often the pixels of a list reach a bit. -/
def hits (g : Geometry) (ps : List (Int × Int)) (i k : Nat) : Nat := (targets g ps).count (i, k)

/-- The framebuffer after the pixels of a list were plotted: each bit as its colour applied as often as it
was reached (R125, R299), and no byte outside the buffer. -/
def Painted (g : Geometry) (c : Colour) (ps : List (Int × Int)) (fb fb' : Memory) : Prop :=
  fbWf (fbBytes g) fb' ∧ fbDefined (fbBytes g) fb' ∧
    ∀ i k, i < fbBytes g → k < 8 → fbBit fb' i k = (fbBit fb i k).map (bitAfter c (hits g ps i k))

/-- The block has recorded no fault and is alive with surface `d`. -/
def Live (s : State) (d : Surface) : Prop := s.fault = .none ∧ s.surf = some d

/-- `Live`, and the framebuffer is canonical, inside its size, and every byte of it holds a value: so it is
in every state of a run (`Inv`). -/
def Ready (s : State) (d : Surface) : Prop :=
  Live s d ∧ fbWf (s.fbSize d) d.fb ∧ fbDefined (s.fbSize d) d.fb

/-- The transport answers ok for the next `m` transactions and fail for the one after. -/
def busFailsAt (s : State) (m : Nat) : Prop :=
  busOk s m ∧ s.busAnswer (s.buslog.length + m) = .fail

/-- What the log gains when the transaction number `m` of a list fails: those before it ok, it failed
(R101, R263). -/
def failLog (a : DevAddr) (bss : List (List Byte)) (m : Nat) : List Transaction :=
  okLog a (bss.take m) ++ (bss[m]?.toList.map fun bs => ⟨a, bs, .fail⟩)

/-! ## The opcode table -/

/-- One row of spec/opcode_table.json: the word's bits under `mask` equal `value`; a colour operand
(word bits 9:8) is not 3. -/
structure TableRow where
  mnemonic : String
  value : Word
  mask : Word
  colour : Bool
  deriving DecidableEq, Repr

/-- The rows of spec/opcode_table.json, as the table has them. -/
def opcodeTable : List TableRow :=
  [⟨"CONSTRUCT", 0x00000000000000000000000000000001, 0xFFFFFFFFFFFFFFFFFFFFFFFFFFFE80FF, false⟩,
   ⟨"DESTRUCT", 0x00000000000000000000000000000002, 0xFFFFFFFFFFFFFFFFFFFFFFFFFFFFFFFF, false⟩,
   ⟨"SETPIX", 0x00000000000000000000000000000003, 0xFFFFFFFFFFFFFFFFFFFF00000000FCFF, true⟩,
   ⟨"CLEAR", 0x00000000000000000000000000000004, 0xFFFFFFFFFFFFFFFFFFFFFFFFFFFFFCFF, true⟩,
   ⟨"FLUSH", 0x00000000000000000000000000000005, 0xFFFFFFFFFFFFFFFFFFFFFFFFFFFFFFFF, false⟩,
   ⟨"FLUSHX", 0x00000000000000000000000000000006, 0x00000000FFFFFFFFFFFFFFFFFFFFFFFF, false⟩,
   ⟨"LOADBMP", 0x00000000000000000000000000000007, 0x00000000FFFFFFFFFFFFFFFFFFFFFFFF, false⟩,
   ⟨"CONTRAST", 0x00000000000000000000000000000008, 0xFFFFFFFFFFFFFFFFFFFFFFFFFFFF00FF, false⟩,
   ⟨"INVERT", 0x00000000000000000000000000000009, 0xFFFFFFFFFFFFFFFFFFFFFFFFFFFFFEFF, false⟩,
   ⟨"ORIENT", 0x0000000000000000000000000000000A, 0xFFFFFFFFFFFFFFFFFFFFFFFFFFFFFEFF, false⟩,
   ⟨"POWER", 0x0000000000000000000000000000000B, 0xFFFFFFFFFFFFFFFFFFFFFFFFFFFFFEFF, false⟩,
   ⟨"GETBUFSZ", 0x0000000000000000000000000000000C, 0xFFFFFFFFFFFFFFFFFFFFFFFFFFFFFFFF, false⟩,
   ⟨"GETW", 0x0000000000000000000000000000000D, 0xFFFFFFFFFFFFFFFFFFFFFFFFFFFFFFFF, false⟩,
   ⟨"GETH", 0x0000000000000000000000000000000E, 0xFFFFFFFFFFFFFFFFFFFFFFFFFFFFFFFF, false⟩,
   ⟨"RDFB", 0x0000000000000000000000000000000F, 0xFFFFFFFFFFFFFFFFFFFFFFFF0000FFFF, false⟩,
   ⟨"LINE", 0x00000000000000000000000000000010, 0xFFFFFFFFFFFF0000000000000000FCFF, true⟩,
   ⟨"HLINE", 0x00000000000000000000000000000011, 0xFFFFFFFFFFFFFFFF000000000000FCFF, true⟩,
   ⟨"VLINE", 0x00000000000000000000000000000012, 0xFFFFFFFFFFFFFFFF000000000000FCFF, true⟩,
   ⟨"RECT", 0x00000000000000000000000000000013, 0xFFFFFFFFFFFF0000000000000000FCFF, true⟩,
   ⟨"FRECT", 0x00000000000000000000000000000014, 0xFFFFFFFFFFFF0000000000000000FCFF, true⟩,
   ⟨"PBAR", 0x00000000000000000000000000000015, 0xFFFFFFFF00000000000000000000FCFF, true⟩,
   ⟨"CHAR", 0x00000000000000000000000000000018, 0xFFFFFFFFFFFFFFFFFF0000000000FCFF, true⟩,
   ⟨"STRING", 0x00000000000000000000000000000019, 0x00000000FFFFFFFF000000000000FCFF, true⟩,
   ⟨"SETFONT", 0x0000000000000000000000000000001A, 0x00000000FFFFFFFFFFFFFFFFFFFFFFFF, false⟩,
   ⟨"GETFONT", 0x0000000000000000000000000000001B, 0xFFFFFFFFFFFFFFFFFFFFFFFFFFFFFFFF, false⟩]

/-- A word a row of the table describes. -/
def TableRow.holds (r : TableRow) (w : Word) : Prop :=
  w &&& r.mask = r.value ∧ (r.colour = true → w.extractLsb' 8 2 ≠ 3)

/-- A word that spells an operation, by the opcode table (R83, R89, R90). -/
def legalWord (w : Word) : Prop := ∃ r ∈ opcodeTable, r.holds w

/-! ## Glyphs and strings -/

/-- The pixels of a glyph with the given column bytes, leftmost first, at `(x, y)` (R222). -/
def glyphPixels (x y : Int) (H : Nat) (cols : List Byte) : List (Int × Int) :=
  cols.zipIdx.flatMap fun p => columnPixels (x + p.2) y H p.1

/-- The pixels of a string of codes with cursor `cx`: each supported code's glyph, each code advancing the
cursor by `W + 1` (R225). -/
def stringPixels (y : Int) (H W : Nat) (glyph : Nat → List Byte) : List Nat → Int → List (Int × Int)
  | [], _ => []
  | ch :: cs, cx =>
      (if 0x20 ≤ ch ∧ ch ≤ 0x7E then glyphPixels cx y H (glyph ch) else []) ++
        stringPixels y H W glyph cs (cx + W + 1)

/-- XM holds these bytes from an address on, each of them below its top (R60). -/
def xmHolds (xm : Memory) (a : Nat) (bs : List Byte) : Prop :=
  ∀ i, i < bs.length → a + i < 2 ^ 32 ∧ xm.read (a + i) = bs[i]?

/-- The font register names a table with header `H`, `W` that holds the glyph of every supported code of a
string (R220, R223). -/
def fontHolds (s : State) (f : XAddr) (H W : Byte) (glyph : Nat → List Byte) (str : List Byte) : Prop :=
  s.font = some f ∧ xmHolds s.xm f.toNat [H, W] ∧
    ∀ b, b ∈ str → 0x20 ≤ b.toNat → b.toNat ≤ 0x7E → (glyph b.toNat).length = W.toNat ∧
      xmHolds s.xm (f.toNat + 2 + (b.toNat - 0x20) * W.toNat) (glyph b.toNat)

/-- `DrawsCode s i x y c before ch`: the code `ch` is what CHAR draws, or what STRING draws after the string
bytes `before`; `x`, `y` and `c` are the operands (R222, R225). -/
inductive DrawsCode (s : State) : Instr → Int → Int → Colour → List Byte → Nat → Prop
  | char (x y : Int) (ch : Nat) (c : Colour) : DrawsCode s (.char x y ch c) x y c [] ch
  | string {x y : Int} {addr : XAddr} {len : Nat} {c : Colour} {before : List Byte} {b : Byte}
      (more : before.length < len) (bytes : xmHolds s.xm addr.toNat (before ++ [b])) :
      DrawsCode s (.string x y addr len c) x y c before b.toNat

/-- `DrawsColumns s i c ps ch f W cols`: CHAR or STRING, within the supported code `ch` of the font at `f` of width
`W`, has read the columns `cols`, all of the glyph or its first few, and `ps` are the pixels up to there: those of
the characters before, each advancing the cursor by `W + 1`, and those of `cols` (R222, R224, R225). -/
inductive DrawsColumns (s : State) :
    Instr → Colour → List (Int × Int) → Nat → XAddr → Nat → List Byte → Prop
  | intro {i : Instr} {x y : Int} {c : Colour} {before : List Byte} {ch : Nat} {f : XAddr} {H W : Byte}
      {glyph : Nat → List Byte} {cols : List Byte}
      (code : DrawsCode s i x y c before ch) (low : 0x20 ≤ ch) (high : ch ≤ 0x7E)
      (font : fontHolds s f H W glyph before) (within : cols.length ≤ W.toNat)
      (bytes : xmHolds s.xm (f.toNat + 2 + (ch - 0x20) * W.toNat) cols) :
      DrawsColumns s i c
        (stringPixels y H.toNat W.toNat glyph (before.map BitVec.toNat) x ++
          glyphPixels (x + before.length * (W.toNat + 1)) y H.toNat cols) ch f W.toNat cols

/-- `TextReads s i c ps a`: CHAR or STRING, with the pixels `ps` plotted in colour `c`, reads the XM byte at
address `a` (R221, R222, R225). The header's second byte is read with its first, which is defined. -/
inductive TextReads (s : State) : Instr → Colour → List (Int × Int) → Nat → Prop
  /-- The byte of a string after the characters `before`. -/
  | stringByte {x y : Int} {addr : XAddr} {len : Nat} {c : Colour} {before : List Byte} {f : XAddr} {H W : Byte}
      {glyph : Nat → List Byte} (more : before.length < len) (bytes : xmHolds s.xm addr.toNat before)
      (font : before ≠ [] → fontHolds s f H W glyph before) :
      TextReads s (.string x y addr len c) c
        (stringPixels y H.toNat W.toNat glyph (before.map BitVec.toNat) x) (addr.toNat + before.length)
  /-- The font header: for a supported code, and for any code of a string, whose advance needs `W`. -/
  | header {i : Instr} {x y : Int} {c : Colour} {ch : Nat} {f : XAddr} {k : Nat}
      (code : DrawsCode s i x y c [] ch)
      (needed : (0x20 ≤ ch ∧ ch ≤ 0x7E) ∨ ∃ addr len, i = .string x y addr len c)
      (font : s.font = some f) (byte : k = 0 ∨ (k = 1 ∧ (s.xm.read f.toNat).isSome = true)) :
      TextReads s i c [] (f.toNat + k)
  /-- The glyph column after `cols`. -/
  | column {i : Instr} {c : Colour} {ps : List (Int × Int)} {ch W : Nat} {f : XAddr} {cols : List Byte}
      (columns : DrawsColumns s i c ps ch f W cols) (more : cols.length < W) :
      TextReads s i c ps (f.toNat + 2 + (ch - 0x20) * W + cols.length)

/-! ## Assembly text (R94) -/

/-- A number as assembly text: decimal, with a minus sign if negative, or `0x` hexadecimal (R94; the case of
the letters: log entry 19). -/
def numberText (v : Int) (t : String) : Prop :=
  t = toString v ∨ ∃ n : Nat, v = n ∧ t = "0x" ++ String.ofList (Nat.toDigits 16 n)

/-- A character code as assembly text: a number, or a quoted character meaning its ASCII code (R94). -/
def codeText (v : Int) (t : String) : Prop :=
  numberText v t ∨ ∃ ch : Char, ch.toNat < 128 ∧ v = ch.toNat ∧ t = String.ofList ['\'', ch, '\'']

/-- A line: the mnemonic, then the operands, comma-separated (R94). -/
def lineText (mnemonic : String) (operands : List String) : String :=
  mnemonic ++ " " ++ String.intercalate ", " operands

/-- A colour as assembly text (R94). -/
def colourText : Colour → String
  | .set => "SET"
  | .clear => "CLEAR"
  | .toggle => "TOGGLE"

/-- A number that a signed 16-bit field holds (R84). -/
def signed16 (v : Int) : Bool := decide (-32768 ≤ v) && decide (v ≤ 32767)

/-- A number that an unsigned field of `n` bits holds (R84). -/
def unsigned (n : Nat) (v : Int) : Bool := decide (0 ≤ v) && decide (v < 2 ^ n)

/-! ## Outcomes that agree but for some fields -/

/-- Two outcomes agree once `erase` has blanked some fields of their states. -/
def agreeUpTo (erase : State → State) (o o' : Host.Outcome State Fault Refusal) : Prop :=
  match o, o' with
  | .next t, .next t' => erase t = erase t'
  | .fault f, .fault f' => f = f'
  | .refused r, .refused r' => r = r'
  | _, _ => False

/-- The shadow fields blanked (R32). -/
def eraseShadow (s : State) : State := { s with shContrast := none, shInvert := none, shOrient := none }

/-- The power state blanked (R268). -/
def erasePower (s : State) : State := { s with pstate := .uninit }

/-- The next operation after an outcome, which runs only if no fault is recorded (R262). -/
def andExec (o : Host.Outcome State Fault Refusal) (i : Instr) : Host.Outcome State Fault Refusal :=
  match o with
  | .next t => if t.fault = .none then exec i t else .next t
  | .fault f => .fault f
  | .refused r => .refused r

/-! ## Classes of operations -/

/-- The Rasterizer operations and SETPIX: those that change the framebuffer through the pixel-set only
(R180). -/
def drawsOnly : Instr → Bool
  | .setpix .. | .line .. | .hline .. | .vline .. | .rect .. | .frect .. | .pbar .. | .char .. | .string .. => true
  | .construct .. | .destruct | .clear .. | .flush | .flushx .. | .loadbmp .. | .contrast .. | .invert .. |
    .orient .. | .power .. | .getbufsz | .getw | .geth | .rdfb .. | .setfont .. | .getfont => false

/-- The operations that emit transactions (R65). -/
def emits : Instr → Bool
  | .construct .. | .flush | .flushx .. | .contrast .. | .invert .. | .orient .. | .power .. => true
  | .destruct | .setpix .. | .clear .. | .loadbmp .. | .getbufsz | .getw | .geth | .rdfb .. | .line .. |
    .hline .. | .vline .. | .rect .. | .frect .. | .pbar .. | .char .. | .string .. | .setfont .. | .getfont => false

/-- CONSTRUCT. -/
def isConstruct : Instr → Bool
  | .construct .. => true
  | .destruct | .setpix .. | .clear .. | .flush | .flushx .. | .loadbmp .. | .contrast .. | .invert .. |
    .orient .. | .power .. | .getbufsz | .getw | .geth | .rdfb .. | .line .. | .hline .. | .vline .. |
    .rect .. | .frect .. | .pbar .. | .char .. | .string .. | .setfont .. | .getfont => false

/-- The pixels of a line or shape operation, in plotting order (R181 to R188); none for the others. -/
def shapePixels : Instr → Option (List (Int × Int) × Colour)
  | .line x0 y0 x1 y1 c => some (linePixels x0 y0 x1 y1, c)
  | .hline x y w c => some (hlinePixels x y w, c)
  | .vline x y h c => some (vlinePixels x y h, c)
  | .rect x y w h c => some (rectPixels x y w h, c)
  | .frect x y w h c => some (frectPixels x y w h, c)
  | .pbar x y w h p c => some (pbarPixels x y w h p, c)
  | .construct .. | .destruct | .setpix .. | .clear .. | .flush | .flushx .. | .loadbmp .. | .contrast .. |
    .invert .. | .orient .. | .power .. | .getbufsz | .getw | .geth | .rdfb .. | .char .. | .string .. |
    .setfont .. | .getfont => none

end Sys2Proof.Machine
end

