-- ==== Sys2Proof/Certificates/Slice0/Obligations.lean ====
section
/-! DEFINITION. The statements about the model, from the spec's numbered rules. A fault entry is written out
as the record it leaves: `fault`, `fault_word` (the word being executed, the head of `pending`) and
`fault_info`, everything else as before (R262). -/

open Sys2Proof Sys2Proof.Machine

/-! ## The operation word (30_encoding.md) -/

/-- Decoding the bytes of a well-formed operation's word gives the operation back, at every operand the
encoding admits. -/
def Obligations.DecodeOfEncodeIsIdentity : Prop :=
  ∀ i : Instr, i.wellFormed = true → decodeBytes (bytesOfWord (encode i)) = .ok i

/-- A word that decodes is the word of the operation it decodes to, so no two words spell one operation
(R93). -/
def Obligations.EncodeOfDecodeIsIdentity : Prop :=
  ∀ (w : Word) (i : Instr), decode w = .ok i → i.wellFormed = true ∧ encode i = w

/-- A word decodes to an operation exactly when a row of the opcode table describes it: reserved bits 0, MOD
a colour or enum value, OPC assigned (R89, R90). -/
def Obligations.DecodeAcceptsExactlyTheTable : Prop :=
  ∀ w : Word, (∃ i, decode w = .ok i) ↔ legalWord w

/-- Sixteen bytes, and no other number, are a word: bits 8k+7..8k are byte k (R80). -/
def Obligations.WordBytesAreLittleEndian : Prop :=
  ∀ (bs : List Byte) (w : Word), wordOfBytes bs = some w ↔
    bs.length = 16 ∧ ∀ k, k < 16 → bs[k]? = some (w.extractLsb' (8 * k) 8)

/-- Words written out from the encoding, one of each format, decode to their operations (R81 to R88). -/
def Obligations.WrittenOutWordsDecode : Prop :=
  decode 0x00000000000000000000000000013C01 = .ok (.construct 0x3C .f1) ∧
  decode 0x00000000000000000000000A00030103 = .ok (.setpix 3 10 .set) ∧
  decode 0x0000000000000000000000000000FF08 = .ok (.contrast 0xFF) ∧
  decode 0x0000000000000000000000000000010A = .ok (.orient .rotated) ∧
  decode 0x000000000000000000000000FFFF000F = .ok (.rdfb 65535) ∧
  decode 0x00000000000000030003000000000110 = .ok (.line 0 0 3 3 .set) ∧
  decode 0x0000000000000000FFFD000500020112 = .ok (.vline 2 5 (-3) .set) ∧
  decode 0x00000000000000030004000000000213 = .ok (.rect 0 0 4 3 .toggle) ∧
  decode 0x000000000032000A0064000000000115 = .ok (.pbar 0 0 100 10 50 .set) ∧
  decode 0x00000000000000000021000000000118 = .ok (.char 0 0 0x21 .set) ∧
  decode 0x00002000000000000002000000000119 = .ok (.string 0 0 0x2000 2 .set) ∧
  decode 0x00003000000000000000000000000007 = .ok (.loadbmp 0x3000) ∧
  decode 0x0000000000000000000000000000001B = .ok .getfont

/-- The assembler (R94): for every mnemonic, a line whose numbers, decimal or hexadecimal, lie in their fields'
ranges assembles to the operation with exactly those operands in that order; a line with a number out of its
field's range does not assemble, so none is ever wrapped; CHAR's code may be a quoted character. Every line that
assembles gives the word of one well-formed operation. The four pseudo-instructions expand to one operation each
(R95). The spacing and the hexadecimal letters are the model's choice (log entry 19). -/
def Obligations.AssembledLinesDecodeToTheirOperation : Prop :=
  (∀ (line : String) (w : Word), assemble line = some w →
    ∃ i, assembleOp line = some i ∧ i.wellFormed = true ∧ decode w = .ok i) ∧
  (∀ p, p ∈ [("CLS", Instr.clear .clear), ("FILL", .clear .set), ("ON", .power .on), ("OFF", .power .off),
      ("DESTRUCT", .destruct), ("FLUSH", .flush), ("GETBUFSZ", .getbufsz), ("GETW", .getw), ("GETH", .geth),
      ("GETFONT", .getfont), ("INVERT NORMAL", .invert .normal), ("INVERT INVERTED", .invert .inverted),
      ("ORIENT NORMAL", .orient .normal), ("ORIENT ROTATED", .orient .rotated), ("POWER OFF", .power .off),
      ("POWER ON", .power .on), ("CLEAR SET", .clear .set), ("CLEAR CLEAR", .clear .clear),
      ("CLEAR TOGGLE", .clear .toggle)] → assembleOp p.1 = some p.2) ∧
  (∀ (v u : Int) (tv tu : String), numberText v tv → numberText u tu →
    assembleOp (lineText "CONSTRUCT" [tv, tu]) = (if unsigned 7 v ∧ unsigned 1 u then
      some (.construct (BitVec.ofInt 7 v) (if u = 0 then .f0 else .f1)) else none) ∧
    assembleOp (lineText "CONTRAST" [tv]) =
      (if unsigned 8 v then some (.contrast (BitVec.ofInt 8 v)) else none) ∧
    assembleOp (lineText "RDFB" [tv]) = (if unsigned 16 v then some (.rdfb v.toNat) else none) ∧
    assembleOp (lineText "FLUSHX" [tv]) =
      (if unsigned 32 v then some (.flushx (BitVec.ofInt 32 v)) else none) ∧
    assembleOp (lineText "LOADBMP" [tv]) =
      (if unsigned 32 v then some (.loadbmp (BitVec.ofInt 32 v)) else none) ∧
    assembleOp (lineText "SETFONT" [tv]) =
      (if unsigned 32 v then some (.setfont (BitVec.ofInt 32 v)) else none)) ∧
  (∀ (x y w h p : Int) (tx ty tw th tp : String) (c : Colour), numberText x tx → numberText y ty →
    numberText w tw → numberText h th → numberText p tp →
    assembleOp (lineText "SETPIX" [tx, ty, colourText c]) =
      (if signed16 x ∧ signed16 y then some (.setpix x y c) else none) ∧
    assembleOp (lineText "HLINE" [tx, ty, tw, colourText c]) =
      (if signed16 x ∧ signed16 y ∧ signed16 w then some (.hline x y w c) else none) ∧
    assembleOp (lineText "VLINE" [tx, ty, th, colourText c]) =
      (if signed16 x ∧ signed16 y ∧ signed16 h then some (.vline x y h c) else none) ∧
    assembleOp (lineText "LINE" [tx, ty, tw, th, colourText c]) =
      (if signed16 x ∧ signed16 y ∧ signed16 w ∧ signed16 h then some (.line x y w h c) else none) ∧
    assembleOp (lineText "RECT" [tx, ty, tw, th, colourText c]) =
      (if signed16 x ∧ signed16 y ∧ signed16 w ∧ signed16 h then some (.rect x y w h c) else none) ∧
    assembleOp (lineText "FRECT" [tx, ty, tw, th, colourText c]) =
      (if signed16 x ∧ signed16 y ∧ signed16 w ∧ signed16 h then some (.frect x y w h c) else none) ∧
    assembleOp (lineText "PBAR" [tx, ty, tw, th, tp, colourText c]) =
      (if signed16 x ∧ signed16 y ∧ signed16 w ∧ signed16 h ∧ signed16 p then some (.pbar x y w h p c)
        else none)) ∧
  (∀ (x y a n ch : Int) (tx ty ta tn tch : String) (c : Colour), numberText x tx → numberText y ty →
    numberText a ta → numberText n tn → codeText ch tch →
    assembleOp (lineText "CHAR" [tx, ty, tch, colourText c]) =
      (if signed16 x ∧ signed16 y ∧ unsigned 8 ch then some (.char x y ch.toNat c) else none) ∧
    assembleOp (lineText "STRING" [tx, ty, ta, tn, colourText c]) =
      (if signed16 x ∧ signed16 y ∧ unsigned 32 a ∧ unsigned 16 n then
        some (.string x y (BitVec.ofInt 32 a) n.toNat c) else none))

/-! ## The common step (R120) -/

/-- When the next word decodes to `i`, the step is `exec i`; the index and the host's words advance exactly
when no fault was recorded (R21, R120). -/
def Obligations.StepRunsTheDecodedOperation : Prop :=
  ∀ (s : State) (w : Word) (rest : List Word) (i : Instr),
    s.fault = .none → s.pending = w :: rest → decode w = .ok i →
    ∃ t, exec i s = .next t ∧ t.pending = s.pending ∧ t.opIndex = s.opIndex ∧
      step s = .next (if t.fault = .none then { t with pending := rest, opIndex := s.opIndex + 1 } else t)

/-- A word that is no row of the opcode table raises `F_ILLEGAL` whatever the state, before the lifecycle
check, and has no other effect (R89, R253). -/
def Obligations.IllegalWordRaisesIllegal : Prop :=
  ∀ (s : State) (w : Word) (rest : List Word),
    s.fault = .none → s.pending = w :: rest → ¬ legalWord w →
    step s = .next { s with fault := .illegal, faultWord := some w, faultInfo := 0 }

/-- A block that has recorded a fault takes no step, and no operation runs on it (R262). -/
def Obligations.FaultedBlockIsStuck : Prop :=
  ∀ s : State, s.fault ≠ .none → step s = .fault .stuck ∧ ∀ i, exec i s = .fault .stuck

/-- CONSTRUCT while alive, and any other operation while not alive, raises `F_STATE` (R254). -/
def Obligations.LifecycleMisuseRaisesState : Prop :=
  ∀ (s : State) (i : Instr), s.fault = .none → (isConstruct i = true ↔ s.surf.isSome = true) →
    exec i s = .next { s with fault := .state, faultWord := s.pending.head?, faultInfo := 0 }

/-- Every operation of a block without a fault runs to completion or to its first fault: no form is
refused and none stops the model (R64, R69). -/
def Obligations.EveryOperationAnswersNext : Prop :=
  ∀ (s : State) (i : Instr), s.fault = .none → ∃ t, exec i s = .next t

/-! ## Construction and destruction -/

/-- CONSTRUCT with every draw ok: the bring-up transactions, the cleared framebuffer, the flush, the shadow
and READY (R121, R122, R123). -/
def Obligations.ConstructBringsUp : Prop :=
  ∀ (s : State) (a : DevAddr) (f : Family) (zeros : List Byte),
    s.fault = .none → s.surf = none → s.allocAnswer = .ok →
    zeros = List.replicate ((geomOf s.cfg f).width * (geomOf s.cfg f).height / 8) 0x00 →
    busOk s (1 + s.cfg.cmd.addrModeSeq.length + 2 + s.cfg.cmd.orientNormal.length +
      (bringupOf s.cfg f).length + 1 + (flushWinOf s.cfg f).length + 1) →
    ∃ fb, (fbWf zeros.length fb ∧ ∀ i, i < zeros.length → fb.read i = some 0x00) ∧
      exec (.construct a f) s = .next { s with
        pstate := .ready
        surf := some ⟨f, a, fb⟩
        shContrast := some 0xFF
        shInvert := none
        shOrient := some .normal
        font := s.cfg.defaultFont
        buslog := s.buslog ++ okLog a
          (cmdBytes ([s.cfg.cmd.displayOff] ++ s.cfg.cmd.addrModeSeq ++ [s.cfg.cmd.contrast, 0xFF] ++
            s.cfg.cmd.orientNormal ++ bringupOf s.cfg f ++ [s.cfg.cmd.displayOn] ++ flushWinOf s.cfg f) ++
            [0x40 :: zeros])
        shown := some zeros
        allocCount := s.allocCount + 1 }

/-- A failed allocation: `F_ALLOC`, nothing emitted, not alive (R260). -/
def Obligations.ConstructAllocationFailure : Prop :=
  ∀ (s : State) (a : DevAddr) (f : Family),
    s.fault = .none → s.surf = none → s.allocAnswer = .fail →
    exec (.construct a f) s = .next { s with
      pstate := .uninit
      allocCount := s.allocCount + 1
      fault := .alloc
      faultWord := s.pending.head?
      faultInfo := 0 }

/-- CONSTRUCT whose transaction number `m` fails: `F_BUS` with its position, the transactions up to and
including it logged, UNINIT, alive; the shadow of the groups already done, the framebuffer without values
until group 7 (R121, R259, R263). -/
def Obligations.ConstructBusFailure : Prop :=
  ∀ (s : State) (a : DevAddr) (f : Family) (m : Nat) (zeros : List Byte) (bss : List (List Byte)),
    s.fault = .none → s.surf = none → s.allocAnswer = .ok →
    zeros = List.replicate (fbBytes (geomOf s.cfg f)) 0x00 →
    bss = cmdBytes (bringUpBytes s.cfg f) ++ flushLog s.cfg f zeros →
    m < bss.length → busFailsAt s m →
    exec (.construct a f) s = .next { s with
      pstate := .uninit
      surf := some ⟨f, a, if m < (bringUpBytes s.cfg f).length then [] else Memory.ofBytes zeros⟩
      shContrast := if m < 1 + s.cfg.cmd.addrModeSeq.length + 2 then none else some 0xFF
      shInvert := none
      shOrient :=
        if m < 1 + s.cfg.cmd.addrModeSeq.length + 2 + s.cfg.cmd.orientNormal.length then none
        else some .normal
      font := s.cfg.defaultFont
      buslog := s.buslog ++ failLog a bss m
      allocCount := s.allocCount + 1
      fault := .bus
      faultWord := s.pending.head?
      faultInfo := infoOf (s.buslog.length + m) }

/-- DESTRUCT drops the surface and changes nothing else (R124). -/
def Obligations.DestructReleases : Prop :=
  ∀ (s : State) (d : Surface), Live s d → exec .destruct s = .next { s with surf := none }

/-! ## The pixel-set -/

/-- SETPIX (R126): skipped outside the panel, one bit of one byte inside it, `F_OVERRUN` past the buffer;
the row transform on the quirk family, the colour as R125 gives it, every other byte as before. -/
def Obligations.SetpixWritesOneBit : Prop :=
  ∀ (s : State) (d : Surface) (x y : Int) (c : Colour) (g : Geometry), Ready s d → g = geomOf s.cfg d.fam →
    (¬ (0 ≤ x ∧ x < g.width ∧ 0 ≤ y ∧ y < g.height) → exec (.setpix x y c) s = .next s) ∧
    ((0 ≤ x ∧ x < g.width ∧ 0 ≤ y ∧ y < g.height) →
      ∀ r i k : Nat, (r : Int) = (if g.quirk then 2 * y + 1 else y) →
        (i : Int) = x + r / 8 * g.width → k = r % 8 →
        (g.width * g.height / 8 ≤ i → exec (.setpix x y c) s = .next { s with
          fault := .overrun, faultWord := s.pending.head?, faultInfo := infoOf i }) ∧
        (i < g.width * g.height / 8 → ∃ fb v v',
          exec (.setpix x y c) s = .next { s with surf := some { d with fb := fb } } ∧
          d.fb.read i = some v ∧ fb.read i = some v' ∧
          (∀ j, j ≠ i → fb.read j = d.fb.read j) ∧
          v' = (match c with
            | .set => v ||| (1#8 <<< k)
            | .clear => v &&& (0xFF#8 ^^^ (1#8 <<< k))
            | .toggle => v ^^^ (1#8 <<< k))))

/-- The row transform (R127, R298): a pixel that passes the bounds check overruns exactly on the quirk
family with `y >= HEIGHT/2`; the quirk family reaches odd bits only; distinct pixels have distinct bits
(R126). -/
def Obligations.RowTransformConsequences : Prop :=
  ∀ (cfg : Config) (f : Family) (g : Geometry) (x y x' y' : Int), configOk cfg = true → g = geomOf cfg f →
    inBounds g x y = true → inBounds g x' y' = true →
    ((pixelAddr g x y).1 < fbBytes g ↔ (g.quirk = true → 2 * y < g.height)) ∧
    (g.quirk = true → (pixelAddr g x y).2 % 2 = 1) ∧
    (pixelAddr g x y = pixelAddr g x' y' → x = x' ∧ y = y')

/-- TOGGLE twice restores the block, and SET or CLEAR twice is once (R65). -/
def Obligations.SetpixTwice : Prop :=
  ∀ (s : State) (d : Surface) (x y : Int) (t : State), Ready s d →
    (exec (.setpix x y .toggle) s = .next t → t.fault = .none → exec (.setpix x y .toggle) t = .next s) ∧
    (∀ c, c = .set ∨ c = .clear → exec (.setpix x y c) s = .next t → t.fault = .none →
      exec (.setpix x y c) t = .next t)

/-! ## Whole-buffer operations -/

/-- CLEAR (R129): TOGGLE faults before any write; SET and CLEAR write every byte and nothing else. -/
def Obligations.ClearFillsTheBuffer : Prop :=
  ∀ (s : State) (d : Surface), Live s d →
    exec (.clear .toggle) s = .next { s with
      fault := .clearToggle, faultWord := s.pending.head?, faultInfo := 0 } ∧
    ∀ (c : Colour) (v : Byte), (c = .set ∧ v = 0xFF) ∨ (c = .clear ∧ v = 0x00) →
      ∃ fb, exec (.clear c) s = .next { s with surf := some { d with fb := fb } } ∧
        fbWf (s.fbSize d) fb ∧ ∀ i, i < s.fbSize d → fb.read i = some v

/-- The whole-buffer write of CLEAR and LOADBMP is the loop of byte writes the spec gives (R129, R132). -/
def Obligations.FillIsTheLoopOfWrites : Prop :=
  ∀ (s : State) (d : Surface) (bytes : List Byte), Live s d → fbWf (s.fbSize d) d.fb →
    bytes.length = s.fbSize d →
    fbFill d bytes s = writeEach bytes s

/-- FLUSH (R130): the window commands, one data transaction with the framebuffer in ascending order, and
`shown`; the framebuffer and all else as before. -/
def Obligations.FlushSendsTheFramebuffer : Prop :=
  ∀ (s : State) (d : Surface), Ready s d → busOk s ((flushWinOf s.cfg d.fam).length + 1) →
    ∃ bytes : List Byte, bytes.length = s.fbSize d ∧ (∀ i, i < s.fbSize d → bytes[i]? = d.fb.read i) ∧
      exec .flush s = .next { s with
        buslog := s.buslog ++ okLog d.devaddr (cmdBytes (flushWinOf s.cfg d.fam) ++ [0x40 :: bytes])
        shown := some bytes }

/-- FLUSHX (R131) with the frame defined in XM: the same with the frame's bytes; the framebuffer as
before. -/
def Obligations.FlushxSendsTheFrame : Prop :=
  ∀ (s : State) (d : Surface) (addr : XAddr) (bytes : List Byte), Live s d →
    bytes.length = s.fbSize d → xmHolds s.xm addr.toNat bytes →
    busOk s ((flushWinOf s.cfg d.fam).length + 1) →
    exec (.flushx addr) s = .next { s with
      buslog := s.buslog ++ okLog d.devaddr (cmdBytes (flushWinOf s.cfg d.fam) ++ [0x40 :: bytes])
      shown := some bytes }

/-- LOADBMP (R132) with the bitmap defined in XM: the framebuffer is the bitmap, nothing else changes. -/
def Obligations.LoadbmpCopiesTheBitmap : Prop :=
  ∀ (s : State) (d : Surface) (addr : XAddr) (bytes : List Byte), Live s d →
    bytes.length = s.fbSize d → xmHolds s.xm addr.toNat bytes →
    ∃ fb, exec (.loadbmp addr) s = .next { s with surf := some { d with fb := fb } } ∧
      fbWf (s.fbSize d) fb ∧ ∀ i, i < s.fbSize d → fb.read i = bytes[i]?

/-- A LOADBMP followed by a read-back of any byte gives the bitmap's byte (R74). -/
def Obligations.LoadbmpThenReadBack : Prop :=
  ∀ (s : State) (d : Surface) (addr : XAddr) (bytes : List Byte) (i : Nat) (b : Byte), Live s d →
    bytes.length = s.fbSize d → xmHolds s.xm addr.toNat bytes → bytes[i]? = some b →
    ∃ t u, exec (.loadbmp addr) s = .next t ∧ exec (.rdfb i) t = .next u ∧
      u.res = some (b.zeroExtend 32) ∧ u.fault = .none

/-- FLUSHX and LOADBMP of a source that is not wholly defined raise `F_EXT_READ` before any effect; the
detail is the first undefined address, or 0xFFFFFFFF where all of XM the read covers is defined and it
passes the top (R60, R257, R263). Where it meets both, the detail is one of the two (log entry 10). -/
def Obligations.ShortSourceRaisesExtRead : Prop :=
  ∀ (s : State) (d : Surface) (addr : XAddr) (i : Instr), Live s d →
    i = .flushx addr ∨ i = .loadbmp addr →
    (∀ q, q < addr.toNat + s.fbSize d → addr.toNat ≤ q → q < 2 ^ 32 → s.xm.read q = none →
      (∀ q', addr.toNat ≤ q' → q' < q → s.xm.read q' ≠ none) →
      ∃ info, exec i s = .next { s with
          fault := .extRead, faultWord := s.pending.head?, faultInfo := info } ∧
        (info = BitVec.ofNat 32 q ∨ (2 ^ 32 < addr.toNat + s.fbSize d ∧ info = 0xFFFFFFFF))) ∧
    (2 ^ 32 < addr.toNat + s.fbSize d → (∀ q, addr.toNat ≤ q → q < 2 ^ 32 → s.xm.read q ≠ none) →
      exec i s = .next { s with
        fault := .extRead, faultWord := s.pending.head?, faultInfo := 0xFFFFFFFF })

/-! ## Setters and power -/

/-- CONTRAST: the opcode and the value, then the shadow (R133). -/
def Obligations.ContrastSendsAndShadows : Prop :=
  ∀ (s : State) (d : Surface) (v : Byte), Live s d → busOk s 2 →
    exec (.contrast v) s = .next { s with
      buslog := s.buslog ++ okLog d.devaddr [[0x00, s.cfg.cmd.contrast], [0x00, v]]
      shContrast := some v }

/-- INVERT: the command of its operand, then the shadow (R134). -/
def Obligations.InvertSendsAndShadows : Prop :=
  ∀ (s : State) (d : Surface) (e : InvertMode), Live s d → busOk s 1 →
    exec (.invert e) s = .next { s with
      buslog := s.buslog ++ okLog d.devaddr
        [[0x00, match e with | .inverted => s.cfg.cmd.invert | .normal => s.cfg.cmd.normal]]
      shInvert := some e }

/-- ORIENT: the commands of its operand, then the shadow (R135). -/
def Obligations.OrientSendsAndShadows : Prop :=
  ∀ (s : State) (d : Surface) (e : Orientation) (bs : List Byte), Live s d →
    bs = (match e with | .rotated => s.cfg.cmd.orientRotated | .normal => s.cfg.cmd.orientNormal) →
    busOk s bs.length →
    exec (.orient e) s = .next { s with
      buslog := s.buslog ++ okLog d.devaddr (bs.map fun b => [0x00, b])
      shOrient := some e }

/-- POWER: the command of its operand, then the power state, from any power state (R136, R137). -/
def Obligations.PowerSendsAndSwitches : Prop :=
  ∀ (s : State) (d : Surface), Live s d → busOk s 1 →
    exec (.power .on) s = .next { s with
      buslog := s.buslog ++ okLog d.devaddr [[0x00, s.cfg.cmd.displayOn]], pstate := .ready } ∧
    exec (.power .off) s = .next { s with
      buslog := s.buslog ++ okLog d.devaddr [[0x00, s.cfg.cmd.displayOff]], pstate := .off }

/-- The bytes a setter or a flush of the framebuffer's bytes sends, each one transaction. -/
def Sys2Proof.Machine.sends (s : State) (d : Surface) : Instr → Option (List (List Byte))
  | .contrast v => some (cmdBytes [s.cfg.cmd.contrast, v])
  | .invert e => some (cmdBytes [invertByte s.cfg.cmd e])
  | .orient e => some (cmdBytes (orientBytes s.cfg.cmd e))
  | .power e => some (cmdBytes [powerByte s.cfg.cmd e])
  | .flush => some (flushLog s.cfg d.fam (fbBytesOf s d))
  | .construct .. | .destruct | .setpix .. | .clear .. | .flushx .. | .loadbmp .. | .getbufsz | .getw |
    .geth | .rdfb .. | .line .. | .hline .. | .vline .. | .rect .. | .frect .. | .pbar .. | .char .. |
    .string .. | .setfont .. | .getfont => none

/-- A transaction the transport refuses: it is logged with outcome fail, `F_BUS` names its position, the
transactions before it stay, those after it are not sent, and nothing else changes: no shadow, no power
state, no `shown` (R259, R263). -/
def Obligations.BusFailureStopsTheOperation : Prop :=
  ∀ (s : State) (d : Surface) (i : Instr) (bss : List (List Byte)) (m : Nat), Live s d →
    (sends s d i = some bss ∨ ∃ addr bytes, i = .flushx addr ∧ bytes.length = s.fbSize d ∧
      xmHolds s.xm addr.toNat bytes ∧ bss = flushLog s.cfg d.fam bytes) →
    m < bss.length → busFailsAt s m →
    exec i s = .next { s with
      buslog := s.buslog ++ failLog d.devaddr bss m
      fault := .bus
      faultWord := s.pending.head?
      faultInfo := infoOf (s.buslog.length + m) }

/-- Only CONSTRUCT and POWER change the power state (R137, R274). -/
def Obligations.OnlyConstructAndPowerMovePower : Prop :=
  ∀ (s t : State) (i : Instr), exec i s = .next t → t.pstate ≠ s.pstate →
    isConstruct i = true ∨ ∃ e, i = .power e

/-! ## Accessors and read-back -/

/-- GETBUFSZ, GETW and GETH write FB_BYTES, WIDTH and HEIGHT to `res` and change nothing else (R138, R139,
R140). -/
def Obligations.AccessorsReturnGeometry : Prop :=
  ∀ (s : State) (d : Surface) (g : Geometry), configOk s.cfg = true → Live s d → g = geomOf s.cfg d.fam →
    ∃ n w h : BitVec 32,
      n.toNat = g.width * g.height / 8 ∧ w.toNat = g.width ∧ h.toNat = g.height ∧
      exec .getbufsz s = .next { s with res := some n } ∧
      exec .getw s = .next { s with res := some w } ∧
      exec .geth s = .next { s with res := some h }

/-- RDFB writes the raw byte to `res`, or raises `F_INDEX` past the buffer with the index as detail (R141,
R252, R261). -/
def Obligations.RdfbReadsOneByte : Prop :=
  ∀ (s : State) (d : Surface) (i : Nat), Ready s d →
    (∀ b, i < s.fbSize d → d.fb.read i = some b →
      exec (.rdfb i) s = .next { s with res := some (b.zeroExtend 32) }) ∧
    (s.fbSize d ≤ i → i < 65536 → exec (.rdfb i) s = .next { s with
      fault := .index, faultWord := s.pending.head?, faultInfo := BitVec.ofNat 32 i })

/-! ## The Rasterizer -/

/-- The pixels of LINE (R181) from its endpoints: with the major axis taken left to right, pixel `i` lies
`i` along the major axis and `ceil((i*dy - dx div 2) / dx)` along the minor axis; `max(dx, dy) + 1` of
them (R182). -/
def Obligations.LinePixelsAreBresenham : Prop :=
  ∀ (x0 y0 x1 y1 a0 b0 a1 b1 : Int) (steep : Bool) (p q : Int × Int),
    steep = decide (|y1 - y0| > |x1 - x0|) →
    p = (if steep then (y0, x0) else (x0, y0)) → q = (if steep then (y1, x1) else (x1, y1)) →
    ((a0, b0), (a1, b1)) = (if p.1 > q.1 then (q, p) else (p, q)) →
    (linePixels x0 y0 x1 y1).length = (max |x1 - x0| |y1 - y0|).toNat + 1 ∧
    ∀ i : Nat, i < (linePixels x0 y0 x1 y1).length →
      ∃ m : Int, (linePixels x0 y0 x1 y1)[i]? =
          some (if steep then (b0 + m, a0 + i) else (a0 + i, b0 + m)) ∧
        ((a0 = a1 ∧ m = 0) ∨ (a0 < a1 ∧
          m = (if b1 ≥ b0 then 1 else -1) * -((((a1 - a0) / 2) - i * |b1 - b0|) / (a1 - a0))))

/-- Each pixel of a line lies at a different position, and exchanging the endpoints gives the same pixels in
the same order (R182). -/
def Obligations.LineEachPixelOnceEitherWay : Prop :=
  ∀ x0 y0 x1 y1 : Int,
    (linePixels x0 y0 x1 y1).Nodup ∧ linePixels x1 y1 x0 y0 = linePixels x0 y0 x1 y1

/-- The pixels of HLINE and VLINE for every length, zero and negative ones included (R183, R184). -/
def Obligations.StraightLinePixels : Prop :=
  ∀ x y w : Int,
    hlinePixels x y w =
      (List.range ((if w ≥ 1 then w else 2 - w).toNat)).map
        (fun i : Nat => ((if w ≥ 1 then x else x + w - 1) + (i : Int), y)) ∧
    vlinePixels x y w =
      (List.range ((if w ≥ 1 then w else 2 - w).toNat)).map
        (fun i : Nat => (x, (if w ≥ 1 then y else y + w - 1) + (i : Int)))

/-- RECT of `w, h >= 2` reaches each corner twice, every other outline pixel once and no other pixel; with a
side of 1 the coinciding edges reach the ends three times and the rest twice, and a single point four
times (R186). -/
def Obligations.RectPixelCounts : Prop :=
  ∀ x y w h px py : Int, 1 ≤ w → 1 ≤ h →
    (rectPixels x y w h).count (px, py) =
      (if x ≤ px ∧ px < x + w ∧ py = y then 1 else 0) +
      (if x ≤ px ∧ px < x + w ∧ py = y + h - 1 then 1 else 0) +
      (if y ≤ py ∧ py < y + h ∧ px = x then 1 else 0) +
      (if y ≤ py ∧ py < y + h ∧ px = x + w - 1 then 1 else 0)

/-- FRECT of `w, h >= 1` reaches each pixel of the rectangle once and no other, column by column, each top
to bottom; `w <= 0` plots nothing (R187). -/
def Obligations.FrectPixelsOnce : Prop :=
  ∀ x y w h : Int,
    (w ≤ 0 → frectPixels x y w h = []) ∧
    (1 ≤ h → frectPixels x y w h = (List.range w.toNat).flatMap fun i : Nat =>
      (List.range h.toNat).map fun j : Nat => (x + (i : Int), y + (j : Int))) ∧
    (1 ≤ w → 1 ≤ h → ∀ px py : Int, (frectPixels x y w h).count (px, py) =
      if x ≤ px ∧ px < x + w ∧ y ≤ py ∧ py < y + h then 1 else 0)

/-- PBAR is the outline and then a fill from the left edge of width `floor(w * p / 100)`, with `progress`
clamped to 0 .. 100; no fill for `w <= 0` or `p = 0`, the full width for `p = 100` (R188). -/
def Obligations.PbarOutlineThenFill : Prop :=
  ∀ x y w h p : Int, ∃ q fw : Int,
    q = (if p < 0 then 0 else if 100 < p then 100 else p) ∧
    100 * fw ≤ w * q ∧ w * q < 100 * fw + 100 ∧
    pbarPixels x y w h p = rectPixels x y w h ++ frectPixels x y fw h ∧
    (p ≤ 0 → fw = 0) ∧ (100 ≤ p → fw = w) ∧ (w ≤ 0 → fw ≤ 0) ∧ (0 ≤ w → 0 ≤ fw ∧ fw ≤ w)

/-- The laws between operations (R96): HLINE and VLINE are lines, RECT is four lines, FRECT is `w` vertical lines,
PBAR is a RECT then an FRECT of the fill width; each part runs only if those before it did not fault. -/
def Obligations.ShapesAreTheirParts : Prop :=
  ∀ (s : State) (d : Surface) (x y w h p : Int) (c : Colour), Live s d →
    exec (.hline x y w c) s = exec (.line x y (x + w - 1) y c) s ∧
    exec (.vline x y h c) s = exec (.line x y x (y + h - 1) c) s ∧
    exec (.rect x y w h c) s =
      andExec (andExec (andExec (exec (.hline x y w c) s) (.hline x (y + h - 1) w c)) (.vline x y h c))
        (.vline (x + w - 1) y h c) ∧
    exec (.frect x y w h c) s =
      (List.range w.toNat).foldl (fun o (i : Nat) => andExec o (.vline (x + (i : Int)) y h c)) (.next s) ∧
    exec (.pbar x y w h p c) s = andExec (exec (.rect x y w h c) s) (.frect x y (fillWidth w p) h c)

/-- LINE, HLINE, VLINE, RECT, FRECT and PBAR whose pixels stay in the buffer complete: only the framebuffer
changes, and each of its bits is its colour applied as often as the pixels reach it (R125, R180, R299). -/
def Obligations.ShapesPaintTheirPixels : Prop :=
  ∀ (s : State) (d : Surface) (i : Instr) (ps : List (Int × Int)) (c : Colour), Ready s d →
    shapePixels i = some (ps, c) → noOverrun (s.geom d) ps →
    ∃ fb, exec i s = .next { s with surf := some { d with fb := fb } } ∧
      Painted (s.geom d) c ps d.fb fb

/-- The same operations, and CHAR and STRING, at their first overrunning pixel: the pixels before it stay,
`F_OVERRUN` records its byte index, those after it are not plotted. For CHAR and STRING the pixels are those of
the characters before and of the columns read so far of the glyph being drawn; what lies after them in XM is not
read (R222, R225, R255, R263). -/
def Obligations.ShapesStopAtTheFirstOverrun : Prop :=
  ∀ (s : State) (d : Surface) (i : Instr) (ps qs : List (Int × Int)) (p : Int × Int) (c : Colour),
    Ready s d →
    (shapePixels i = some (ps ++ p :: qs, c) ∨
      ∃ ch f W cols, DrawsColumns s i c (ps ++ p :: qs) ch f W cols) →
    noOverrun (s.geom d) ps →
    inBounds (s.geom d) p.1 p.2 = true → s.fbSize d ≤ (pixelAddr (s.geom d) p.1 p.2).1 →
    ∃ fb, exec i s = .next { s with
        surf := some { d with fb := fb }
        fault := .overrun
        faultWord := s.pending.head?
        faultInfo := infoOf (pixelAddr (s.geom d) p.1 p.2).1 } ∧
      Painted (s.geom d) c ps d.fb fb

/-- SETPIX and every Rasterizer drawing operation change only the framebuffer and, on a fault, the fault
registers: no transaction, no XM, no shadow, no `res`, no `font`, no `shown` (R180, R297). -/
def Obligations.DrawingChangesOnlyTheFramebuffer : Prop :=
  ∀ (s t : State) (d : Surface) (i : Instr), drawsOnly i = true → Live s d → exec i s = .next t →
    ∃ fb, t.surf = some { d with fb := fb } ∧
      t = { s with surf := t.surf, fault := t.fault, faultWord := t.faultWord, faultInfo := t.faultInfo } ∧
      (t.fault = .none → t.faultWord = s.faultWord ∧ t.faultInfo = s.faultInfo)

/-! ## Glyphs, strings, fonts -/

/-- CHAR of a supported code whose font bytes are defined (R222, R224): a pixel per set bit, bit 0 on top,
rows 0 to `min(H, 8) - 1`, column by column. -/
def Obligations.CharDrawsItsGlyph : Prop :=
  ∀ (s : State) (d : Surface) (x y : Int) (ch : Nat) (c : Colour) (f : XAddr) (H W : Byte) (cols : List Byte),
    Ready s d → 0x20 ≤ ch → ch ≤ 0x7E → s.font = some f → xmHolds s.xm f.toNat [H, W] →
    cols.length = W.toNat → xmHolds s.xm (f.toNat + 2 + (ch - 0x20) * W.toNat) cols →
    noOverrun (s.geom d) (glyphPixels x y H.toNat cols) →
    ∃ fb, exec (.char x y ch c) s = .next { s with surf := some { d with fb := fb } } ∧
      Painted (s.geom d) c (glyphPixels x y H.toNat cols) d.fb fb

/-- The pixels of a glyph are exactly the set bits of its columns in the rows below `H` and below 8, each
reached once, column by column and each column top to bottom (R222, R224). -/
def Obligations.GlyphPixelsAreSetBits : Prop :=
  ∀ (x y : Int) (H : Nat) (cols : List Byte),
    (∀ (col row : Nat) (b : Byte), cols[col]? = some b → row < H → row ≤ 7 → b.getLsbD row = true →
      (glyphPixels x y H cols).count (x + (col : Int), y + (row : Int)) = 1) ∧
    (∀ px py : Int, (¬ ∃ (col row : Nat) (b : Byte), cols[col]? = some b ∧ row < H ∧ row ≤ 7 ∧
        b.getLsbD row = true ∧ px = x + col ∧ py = y + row) →
      (glyphPixels x y H cols).count (px, py) = 0) ∧
    (glyphPixels x y H cols).Pairwise (fun p q => p.1 < q.1 ∨ (p.1 = q.1 ∧ p.2 < q.2))

/-- Text that is skipped: CHAR of an unsupported code and a STRING of length 0 have no effect and cannot fault,
whatever the font and XM (R223, R225). -/
def Obligations.SkippedTextHasNoEffect : Prop :=
  ∀ (s : State) (d : Surface) (x y : Int) (ch : Nat) (addr : XAddr) (c : Colour), Live s d →
    (ch < 0x20 ∨ 0x7E < ch → exec (.char x y ch c) s = .next s) ∧
    exec (.string x y addr 0 c) s = .next s

/-- A supported CHAR, GETFONT, and a STRING of at least one defined byte, with no font selected, raise
`F_FONT_UNSET` and change nothing else (R258). -/
def Obligations.NoFontRaisesFontUnset : Prop :=
  ∀ (s : State) (d : Surface) (i : Instr), Live s d → s.font = none →
    ((∃ x y ch c, i = .char x y ch c ∧ 0x20 ≤ ch ∧ ch ≤ 0x7E) ∨ i = .getfont ∨
      (∃ x y addr len c, i = .string x y addr len c ∧ 1 ≤ len ∧ (s.xm.read addr.toNat).isSome = true)) →
    exec i s = .next { s with fault := .fontUnset, faultWord := s.pending.head?, faultInfo := 0 }

/-- CHAR and STRING at the first byte they read that XM does not hold, be it a string byte, a byte of the font
header or a glyph column: what was plotted before stays, and `F_EXT_READ` records the byte's address, or
0xFFFFFFFF where it lies past the top of XM (R221, R222, R224, R225, R257, R263). -/
def Obligations.TextStopsAtAnUndefinedByte : Prop :=
  ∀ (s : State) (d : Surface) (i : Instr) (c : Colour) (ps : List (Int × Int)) (a : Nat),
    Ready s d → TextReads s i c ps a → noOverrun (s.geom d) ps →
    (a < 2 ^ 32 → s.xm.read a = none) →
    ∃ fb, exec i s = .next { s with
        surf := some { d with fb := fb }
        fault := .extRead
        faultWord := s.pending.head?
        faultInfo := if a < 2 ^ 32 then BitVec.ofNat 32 a else 0xFFFFFFFF } ∧
      Painted (s.geom d) c ps d.fb fb

/-- STRING whose characters, header and glyph bytes are defined (R225): each glyph at its cursor, every
character, supported or not, advancing it by `W + 1`. -/
def Obligations.StringDrawsItsGlyphs : Prop :=
  ∀ (s : State) (d : Surface) (x y : Int) (addr : XAddr) (c : Colour) (f : XAddr) (H W : Byte)
    (str : List Byte) (glyph : Nat → List Byte),
    Ready s d → fontHolds s f H W glyph str → xmHolds s.xm addr.toNat str →
    noOverrun (s.geom d) (stringPixels y H.toNat W.toNat glyph (str.map BitVec.toNat) x) →
    ∃ fb, exec (.string x y addr str.length c) s = .next { s with surf := some { d with fb := fb } } ∧
      Painted (s.geom d) c (stringPixels y H.toNat W.toNat glyph (str.map BitVec.toNat) x) d.fb fb

/-- SETFONT takes any address and reads nothing; GETFONT returns it in `res` (R226, R227). -/
def Obligations.FontRegisterSetAndGet : Prop :=
  ∀ (s : State) (d : Surface) (a : XAddr), Live s d →
    exec (.setfont a) s = .next { s with font := some a } ∧
    (s.font = some a → exec .getfont s = .next { s with res := some a })

/-! ## Whole-machine rules -/

/-- Every step keeps `Inv`: the parameters legal (R11), both memories canonical and inside their size (R51, R59);
while alive and not faulted every framebuffer byte defined (R130), READY or OFF (R137), contrast and orientation
commanded (R123); the fault registers consistent with `fault` (R42, R262); every transaction framed (R100) and ok,
but for a last failed one exactly under `F_BUS`, whose position is the detail (R259); `shown` the payload of the
last data transaction that was ok (R37). -/
def Obligations.StepKeepsInvariant : Prop :=
  ∀ s t : State, Inv s → step s = .next t → Inv t

/-- The reset state meets `Inv`; its parameters are the spec's defaults, which the model's log entries 1 to 3
mark PRESUMED. -/
def Obligations.ResetMeetsInvariant : Prop := Inv State.reset

/-- The host's moves between steps keep `Inv` (R59, R275, R290). -/
def Obligations.HostMovesKeepInvariant : Prop :=
  ∀ (s : State) (m : HostMove), Inv s → Inv (hostMove m s)

/-- The block reset leaves the state of R290. -/
def Obligations.ResetState : Prop :=
  State.reset.pstate = .uninit ∧ State.reset.alive = false ∧ State.reset.surf = none ∧
  State.reset.shContrast = none ∧ State.reset.shInvert = none ∧ State.reset.shOrient = none ∧
  State.reset.font = none ∧ State.reset.res = none ∧ State.reset.fault = .none ∧
  State.reset.faultWord = none ∧ State.reset.faultInfo = 0 ∧ State.reset.buslog = [] ∧
  State.reset.shown = none

/-- No step writes XM or the parameters (R38, R59, R12). -/
def Obligations.ExternalMemoryIsNeverWritten : Prop :=
  ∀ s t : State, step s = .next t → t.xm = s.xm ∧ t.cfg = s.cfg

/-- The bus log only grows; what a step adds is framed, goes to the constructed device, and all but the last
of it was ok (R36, R62, R100). -/
def Obligations.BusLogOnlyGrows : Prop :=
  ∀ s t : State, step s = .next t → ∃ l, t.buslog = s.buslog ++ l ∧
    (∀ x, x ∈ l → framed x = true ∧ ∃ d, t.surf = some d ∧ x.addr = d.devaddr) ∧
    (∀ x, x ∈ l.dropLast → x.outcome = .ok)

/-- The operations other than CONSTRUCT, FLUSH, FLUSHX, CONTRAST, INVERT, ORIENT and POWER emit nothing
(R65), and only CONSTRUCT, FLUSH and FLUSHX change what is shown (R297). -/
def Obligations.OnlyEmittersReachTheBus : Prop :=
  ∀ (s t : State) (i : Instr), exec i s = .next t →
    (emits i = false → t.buslog = s.buslog) ∧
    (t.shown ≠ s.shown → isConstruct i = true ∨ i = .flush ∨ ∃ a, i = .flushx a)

/-- No operation's effect depends on the shadow: two blocks that differ only in it take steps that differ
only in it (R32). -/
def Obligations.ShadowIsNeverRead : Prop :=
  ∀ (s : State) (c : Option Byte) (v : Option InvertMode) (o : Option Orientation),
    agreeUpTo eraseShadow (step s) (step { s with shContrast := c, shInvert := v, shOrient := o })

/-- No operation depends on the power state: every operation runs in OFF as in READY (R120, R268, R274). -/
def Obligations.PowerStateIsNeverRead : Prop :=
  ∀ (s : State) (p : PowerState), agreeUpTo erasePower (step s) (step { s with pstate := p })

/-- Instances on one transport (R271, R272): a step of one changes no other; the transactions its log gains are
appended to the wire as one block, in their order, so that instances never interleave inside an operation; and the
wire's part of every instance stays equal to that instance's log. How instances are held together is log entry
18. -/
def Obligations.InstancesAreIndependent : Prop :=
  ∀ (p q : Platform) (j : Nat), p.stepAt j = some (.next q) →
    q.members.length = p.members.length ∧
    (∀ k, k ≠ j → q.members[k]? = p.members[k]?) ∧
    (∃ s t l, p.members[j]? = some s ∧ step s = .next t ∧ q.members[j]? = some t ∧
      t.buslog = s.buslog ++ l ∧ q.wire = p.wire ++ l.map (fun x => (j, x))) ∧
    ((∀ k s, p.members[k]? = some s → p.wireOf k = s.buslog) →
      ∀ k s, q.members[k]? = some s → q.wireOf k = s.buslog)
end

