-- ==== Sys2Proof/Laws/Assembly.lean ====
section
/-! SUPPORT. What the assembler reads: a number's text is its number, and a line's operands are its texts between
the commas. -/

namespace Sys2Proof.Laws

open Sys2Proof Sys2Proof.Machine

/-! ## Numbers -/

theorem digitOf_digitChar {base n : Nat} (hb : base ≤ 16) (h : n < base) :
    digitOf base n.digitChar = some n := by
  have key : ∀ b : Fin 17, ∀ n : Fin 16, n.val < b.val → digitOf b.val n.val.digitChar = some n.val := by decide
  exact key ⟨base, by omega⟩ ⟨n, by omega⟩ h

theorem digitsOf_ne_nil {base : Nat} {cs : List Char} (h : cs ≠ []) :
    digitsOf base cs =
      cs.foldl (fun acc d => acc.bind fun n => (digitOf base d).map fun v => n * base + v) (some 0) := by
  cases cs with
  | nil => exact absurd rfl h
  | cons c cs => rfl

/-- The digits of a number read back as the number (R94). -/
theorem digitsOf_toDigits {base : Nat} (h1 : 1 < base) (h2 : base ≤ 16) (n : Nat) :
    digitsOf base (Nat.toDigits base n) = some n := by
  induction n using Nat.strong_induction_on with
  | _ n ih =>
    rw [digitsOf_ne_nil Nat.toDigits_ne_nil]
    by_cases hn : n < base
    · rw [Nat.toDigits_of_lt_base hn]
      simp [digitOf_digitChar h2 hn]
    · have ih := ih (n / base) (Nat.div_lt_self (by omega) h1)
      rw [digitsOf_ne_nil Nat.toDigits_ne_nil] at ih
      rw [Nat.toDigits_of_base_le h1 (by omega), List.foldl_append, ih]
      simp only [List.foldl_cons, List.foldl_nil, Option.bind_some,
        digitOf_digitChar h2 (Nat.mod_lt _ (by omega)), Option.map_some]
      rw [Nat.mul_comm, Nat.div_add_mod]

/-- No digit is a letter of the assembler's own: a space, a comma, a quote, a minus sign or an `x`. -/
def plainChar (c : Char) : Bool := c ≠ ' ' && c ≠ ',' && c ≠ '\'' && c ≠ 'x' && c ≠ '-'

theorem plainChar_toDigits {base : Nat} (h1 : 1 < base) (h2 : base ≤ 16) (n : Nat) :
    ∀ c ∈ Nat.toDigits base n, plainChar c = true := by
  have key : ∀ n : Fin 16, plainChar n.val.digitChar = true := by decide
  induction n using Nat.strong_induction_on with
  | _ n ih =>
    by_cases hn : n < base
    · rw [Nat.toDigits_of_lt_base hn]
      exact fun c hc => List.mem_singleton.1 hc ▸ key ⟨n, by omega⟩
    · rw [Nat.toDigits_of_base_le h1 (by omega)]
      intro c hc
      rcases List.mem_append.1 hc with hc | hc
      · exact ih _ (Nat.div_lt_self (by omega) h1) c hc
      · have := Nat.mod_lt n (show 0 < base by omega)
        exact List.mem_singleton.1 hc ▸ key ⟨n % base, by omega⟩

theorem numberOf_digits {cs : List Char} (h : ∀ c ∈ cs, plainChar c = true) :
    numberOf cs = (digitsOf 10 cs).map fun n => (n : Int) := by
  unfold numberOf
  split
  · exact absurd (h '-' List.mem_cons_self) (by decide)
  · exact absurd (h 'x' (List.mem_cons_of_mem _ List.mem_cons_self)) (by decide)
  · rfl

/-- The characters of a number's text: a minus sign or `0x` in front of digits. -/
theorem numberText_toList {v : Int} {t : String} (h : numberText v t) :
    (∃ n : Nat, v = n ∧ t.toList = Nat.toDigits 10 n) ∨
    (∃ n : Nat, v = -(n : Int) ∧ t.toList = '-' :: Nat.toDigits 10 n) ∨
    (∃ n : Nat, v = n ∧ t.toList = '0' :: 'x' :: Nat.toDigits 16 n) := by
  rcases h with rfl | ⟨n, rfl, rfl⟩
  · cases v with
    | ofNat n => exact .inl ⟨n, rfl, Nat.toList_repr⟩
    | negSucc n =>
      refine .inr (.inl ⟨n + 1, rfl, ?_⟩)
      change ("-" ++ (n + 1).repr).toList = _
      rw [String.toList_append, Nat.toList_repr]
      rfl
  · exact .inr (.inr ⟨n, rfl, by simp⟩)

/-- A number's text is read as the number (R94). -/
theorem numberOf_numberText {v : Int} {t : String} (h : numberText v t) : numberOf t.toList = some v := by
  rcases numberText_toList h with ⟨n, rfl, e⟩ | ⟨n, rfl, e⟩ | ⟨n, rfl, e⟩ <;> rw [e]
  · rw [numberOf_digits (plainChar_toDigits (by omega) (by omega) n), digitsOf_toDigits (by omega) (by omega)]
    rfl
  · simp [numberOf, digitsOf_toDigits]
  · simp [numberOf, digitsOf_toDigits]

/-- A signed operand: its number, or an assembly error (R84, R94). -/
theorem asmS16_numberText {v : Int} {t : String} (h : numberText v t) :
    asmS16 t.toList = if signed16 v then some v else none := by
  rw [asmS16, numberOf_numberText h]
  simp [Option.filter, fitsS16, signed16]

/-- An unsigned operand: its number, or an assembly error (R84, R94). -/
theorem asmBits_numberText (n : Nat) {v : Int} {t : String} (h : numberText v t) :
    asmBits n t.toList = if unsigned n v then some (BitVec.ofInt n v) else none := by
  simp [asmBits, numberOf_numberText h, unsigned]

/-- A character code: its number, or an assembly error (R94). -/
theorem asmChar_codeText {v : Int} {t : String} (h : codeText v t) :
    asmChar t.toList = if unsigned 8 v then some (BitVec.ofInt 8 v) else none := by
  rcases h with h | ⟨ch, hc, rfl, rfl⟩
  · rw [← asmBits_numberText 8 h]
    unfold asmChar
    split
    · rename_i e
      rcases numberText_toList h with ⟨n, _, e'⟩ | ⟨n, _, e'⟩ | ⟨n, _, e'⟩ <;> rw [e] at e'
      · exact absurd (plainChar_toDigits (by omega) (by omega) n '\'' (e' ▸ List.mem_cons_self)) (by decide)
      · cases e'
      · cases e'
    · rfl
  · rw [String.toList_ofList]
    have hu : unsigned 8 (ch.toNat : Int) = true := by simp [unsigned]; omega
    rw [asmChar, if_pos hc, if_pos hu, BitVec.ofInt_natCast]

/-- Operands are read in turn: the first assembly error is the line's. -/
theorem bind_ite_none {α β : Type} (p : Prop) [Decidable p] (a : α) (f : α → Option β) :
    ((if p then some a else none) >>= f) = if p then f a else none := by split <;> rfl

theorem asmColour_colourText (c : Colour) : asmColour (colourText c).toList = some c := by cases c <;> rfl

/-! ## Lines -/

/-- Text the assembler keeps in one piece: no space, comma or quote, or one quoted character. -/
def OneOperand (cs : List Char) : Prop :=
  (cs ≠ [] ∧ ∀ c ∈ cs, c ≠ ' ' ∧ c ≠ ',' ∧ c ≠ '\'') ∨ ∃ c, cs = ['\'', c, '\'']

theorem oneOperand_numberText {v : Int} {t : String} (h : numberText v t) : OneOperand t.toList := by
  have key : ∀ c, plainChar c = true → c ≠ ' ' ∧ c ≠ ',' ∧ c ≠ '\'' := by simp +contextual [plainChar]
  have digits : ∀ (b : Nat), 1 < b → b ≤ 16 → ∀ n : Nat, ∀ c ∈ Nat.toDigits b n, c ≠ ' ' ∧ c ≠ ',' ∧ c ≠ '\'' :=
    fun b h1 h2 n c hc => key c (plainChar_toDigits h1 h2 n c hc)
  rcases numberText_toList h with ⟨n, _, e⟩ | ⟨n, _, e⟩ | ⟨n, _, e⟩ <;> rw [e]
  · exact .inl ⟨Nat.toDigits_ne_nil, digits 10 (by omega) (by omega) n⟩
  · exact .inl ⟨by simp, List.forall_mem_cons.2 ⟨by decide, digits 10 (by omega) (by omega) n⟩⟩
  · exact .inl ⟨by simp, List.forall_mem_cons.2 ⟨by decide,
      List.forall_mem_cons.2 ⟨by decide, digits 16 (by omega) (by omega) n⟩⟩⟩

theorem oneOperand_codeText {v : Int} {t : String} (h : codeText v t) : OneOperand t.toList := by
  rcases h with h | ⟨c, _, _, rfl⟩
  · exact oneOperand_numberText h
  · exact .inr ⟨c, String.toList_ofList⟩

theorem oneOperand_colourText (c : Colour) : OneOperand (colourText c).toList := by
  refine .inl ?_
  cases c <;> simp [colourText]

theorem splitCommas_operand {cs : List Char} (h : OneOperand cs) (acc rest : List Char) :
    splitCommas acc (cs ++ rest) = splitCommas (cs.reverse ++ acc) rest := by
  rcases h with ⟨_, h⟩ | ⟨c, rfl⟩
  · clear * - h
    revert h
    induction cs generalizing acc with
    | nil => exact fun _ => rfl
    | cons c cs ih =>
      intro h
      obtain ⟨⟨_, h2, h3⟩, h⟩ := List.forall_mem_cons.1 h
      rw [List.cons_append, splitCommas, ih _ h, List.reverse_cons, List.append_assoc]
      · rfl
      · exact fun _ _ e _ => h3 e
      · exact h2
  · rfl

/-- Text without a space at either end. -/
def NoOuterSpace (cs : List Char) : Prop := cs.head? ≠ some ' ' ∧ cs.getLast? ≠ some ' '

theorem noOuterSpace_operand {cs : List Char} (h : OneOperand cs) : cs ≠ [] ∧ NoOuterSpace cs := by
  rcases h with ⟨hne, h⟩ | ⟨c, rfl⟩
  · exact ⟨hne, fun e => (h ' ' (List.mem_of_mem_head? e)).1 rfl,
      fun e => (h ' ' (List.mem_of_mem_getLast? e)).1 rfl⟩
  · exact ⟨by simp, by simp, by simp⟩

theorem trimSpaces_eq {cs : List Char} (h : NoOuterSpace cs) {acc : List Char} (ha : ∀ c ∈ acc, c = ' ') :
    trimSpaces (acc ++ cs) = cs := by
  have ends : ∀ cs : List Char, cs.head? ≠ some ' ' → cs.dropWhile (· = ' ') = cs := by
    intro cs h
    cases cs with
    | nil => rfl
    | cons c cs => rw [List.dropWhile_cons_of_neg]; simpa using h
  rw [trimSpaces, List.dropWhile_append_of_pos (by simpa using ha), ends _ h.1,
    ends _ (by rw [List.head?_reverse]; exact h.2), List.reverse_reverse]

theorem trimSpaces_self {cs : List Char} (h : NoOuterSpace cs) : trimSpaces cs = cs :=
  trimSpaces_eq (acc := []) h (by simp)

theorem noOuterSpace_operands {ops : List (List Char)} (hne : ops ≠ []) (h : ∀ o ∈ ops, OneOperand o) :
    [',', ' '].intercalate ops ≠ [] ∧ NoOuterSpace ([',', ' '].intercalate ops) := by
  induction ops with
  | nil => exact absurd rfl hne
  | cons o ops ih =>
    obtain ⟨ho, h⟩ := List.forall_mem_cons.1 h
    obtain ⟨h1, h2, h3⟩ := noOuterSpace_operand ho
    cases ops with
    | nil =>
      have e : [',', ' '].intercalate [o] = o := by simp [List.intercalate]
      rw [e]
      exact ⟨h1, h2, h3⟩
    | cons o' ops =>
      obtain ⟨k1, _, k3⟩ := ih (by simp) h
      rw [List.intercalate_cons_cons, List.append_assoc]
      refine ⟨by simp [h1], ?_, ?_⟩
      · rwa [List.head?_append_of_ne_nil _ h1]
      · rwa [List.getLast?_append_of_ne_nil _ (by simp), List.getLast?_append_of_ne_nil _ k1]

/-- A line's operands are its texts between the commas (R94). -/
theorem splitCommas_operands {ops : List (List Char)} (hne : ops ≠ []) (h : ∀ o ∈ ops, OneOperand o)
    {acc : List Char} (ha : ∀ c ∈ acc, c = ' ') :
    (splitCommas acc ([',', ' '].intercalate ops)).map trimSpaces = ops := by
  induction ops generalizing acc with
  | nil => exact absurd rfl hne
  | cons o ops ih =>
    obtain ⟨ho, h⟩ := List.forall_mem_cons.1 h
    have ha' : ∀ c ∈ acc.reverse, c = ' ' := fun c hc => ha c (List.mem_reverse.1 hc)
    cases ops with
    | nil =>
      have e : [',', ' '].intercalate [o] = o ++ [] := by simp [List.intercalate]
      rw [e, splitCommas_operand ho]
      simp [splitCommas, trimSpaces_eq (noOuterSpace_operand ho).2 ha']
    | cons o' ops =>
      rw [List.intercalate_cons_cons, List.append_assoc, splitCommas_operand ho]
      change ((o.reverse ++ acc).reverse :: splitCommas [' '] ([',', ' '].intercalate (o' :: ops))).map trimSpaces = _
      rw [List.map_cons, ih (by simp) h (by simp), List.reverse_append, List.reverse_reverse,
        trimSpaces_eq (noOuterSpace_operand ho).2 ha']

/-- A line of a mnemonic and its operands is assembled from those operands (R94). -/
theorem assembleOp_lineText {m : String} (hm : m.toList ≠ []) (hs : ∀ c ∈ m.toList, c ≠ ' ')
    {ops : List String} (hne : ops ≠ []) (h : ∀ o ∈ ops, OneOperand o.toList) :
    assembleOp (lineText m ops) = assembleParts m (ops.map String.toList) := by
  have hne' : ops.map String.toList ≠ [] := by simpa using hne
  have h' : ∀ o ∈ ops.map String.toList, OneOperand o := by simpa using h
  obtain ⟨k1, k2⟩ := noOuterSpace_operands hne' h'
  have e : (lineText m ops).toList = m.toList ++ ([' '] ++ [',', ' '].intercalate (ops.map String.toList)) := by
    simp [lineText, String.toList_append, String.toList_intercalate]
  have h1 : trimSpaces (lineText m ops).toList = (lineText m ops).toList := by
    rw [e]
    refine trimSpaces_self ?_
    refine ⟨?_, ?_⟩
    · rw [List.head?_append_of_ne_nil _ hm]
      exact fun e => hs ' ' (List.mem_of_mem_head? e) rfl
    · rw [List.getLast?_append_of_ne_nil _ (by simp), List.getLast?_append_of_ne_nil _ k1]
      exact k2.2
  have hs' : ∀ c ∈ m.toList, decide (c ≠ ' ') = true := by simpa using hs
  have h2 : (lineText m ops).toList.takeWhile (· ≠ ' ') = m.toList := by
    rw [e, List.takeWhile_append_of_pos hs']
    simp
  have h3 : (lineText m ops).toList.dropWhile (· ≠ ' ') =
      [' '] ++ [',', ' '].intercalate (ops.map String.toList) := by
    rw [e, List.dropWhile_append_of_pos hs']
    simp
  simp only [assembleOp, h1, h2, h3, trimSpaces_eq k2 (acc := [' ']) (by simp), if_neg k1,
    splitCommas_operands hne' h' (acc := []) (by simp), String.ofList_toList]

end Sys2Proof.Laws
end

