-- ==== Sys2Proof/Laws/Memory.lean ====
section
/-! SUPPORT. The laws of byte memories: every operation keeps the canonical form, and what a read gives
after each of them. -/

namespace Sys2Proof.Laws

open Sys2Proof Sys2Proof.Machine

@[simp] theorem read_nil (a : Nat) : Memory.read [] a = none := rfl

theorem read_cons (k : Nat) (b : Byte) (m : Memory) (a : Nat) :
    Memory.read ((k, b) :: m) a = if a = k then some b else m.read a := rfl

/-! ## Write -/

theorem read_write_same (m : Memory) (a : Nat) (v : Byte) : (m.write a v).read a = some v := by
  induction m with
  | nil => simp [Memory.write, Memory.read]
  | cons x m ih =>
    obtain ⟨k, b⟩ := x
    simp only [Memory.write]
    split
    · simp [read_cons]
    · split
      · simp [read_cons]
      · rename_i h; simp [read_cons, h, ih]

theorem read_write_ne (m : Memory) {a a' : Nat} (v : Byte) (h : a' ≠ a) :
    (m.write a v).read a' = m.read a' := by
  induction m with
  | nil => simp [Memory.write, Memory.read, h]
  | cons x m ih =>
    obtain ⟨k, b⟩ := x
    simp only [Memory.write]
    split
    · simp [read_cons, h]
    · split
      · rename_i h2; subst h2; simp [read_cons, h]
      · simp [read_cons, ih]

theorem read_write (m : Memory) (a a' : Nat) (v : Byte) :
    (m.write a v).read a' = if a' = a then some v else m.read a' := by
  split
  · rename_i h; rw [h, read_write_same]
  · rename_i h; exact read_write_ne m v h

/-- The addresses of a memory after a write. -/
theorem mem_write {m : Memory} {a : Nat} {v : Byte} {x : Host.Cell} (h : x ∈ m.write a v) :
    x = (a, v) ∨ x ∈ m := by
  induction m with
  | nil => simpa [Memory.write] using h
  | cons y m ih =>
    obtain ⟨k, b⟩ := y
    simp only [Memory.write] at h
    split at h
    · simpa using h
    · split at h
      · rcases List.mem_cons.1 h with h | h
        · exact .inl h
        · exact .inr (List.mem_cons_of_mem _ h)
      · rcases List.mem_cons.1 h with h | h
        · exact .inr (h ▸ List.mem_cons_self)
        · rcases ih h with h | h
          · exact .inl h
          · exact .inr (List.mem_cons_of_mem _ h)

theorem write_wf {m : Memory} (h : m.wf) (a : Nat) (v : Byte) : (m.write a v).wf := by
  induction m with
  | nil => simp [Memory.wf, Memory.write]
  | cons y m ih =>
    obtain ⟨k, b⟩ := y
    obtain ⟨h1, h2⟩ := List.pairwise_cons.1 h
    simp only [Memory.write, Memory.wf]
    split
    · rename_i hlt
      refine List.pairwise_cons.2 ⟨fun x hx => ?_, h⟩
      rcases List.mem_cons.1 hx with rfl | hx
      · exact hlt
      · exact lt_trans hlt (h1 x hx)
    · split
      · rename_i heq; subst heq
        exact List.pairwise_cons.2 ⟨h1, h2⟩
      · rename_i hlt hne
        refine List.pairwise_cons.2 ⟨fun x hx => ?_, ih h2⟩
        rcases mem_write hx with rfl | hx
        · show k < a; omega
        · exact h1 x hx

/-! ## Erase -/

theorem erase_wf {m : Memory} (h : m.wf) (a : Nat) : (m.erase a).wf := List.Pairwise.filter _ h

theorem read_erase (m : Memory) (a a' : Nat) :
    (m.erase a).read a' = if a' = a then none else m.read a' := by
  induction m with
  | nil => simp [Memory.erase]
  | cons y m ih =>
    obtain ⟨k, b⟩ := y
    simp only [Memory.erase, List.filter_cons] at ih ⊢
    by_cases hk : k = a
    · subst hk
      simp only [ne_eq, not_true_eq_false, decide_false, Bool.false_eq_true, if_false, ih, read_cons]
      split <;> simp_all
    · simp only [ne_eq, hk, not_false_eq_true, decide_true, if_true, read_cons, ih]
      by_cases h1 : a' = k
      · subst h1; simp [hk]
      · simp [h1]

/-! ## Memories laid out from bytes -/

theorem read_cellsFrom (a : Nat) (bs : List Byte) (i : Nat) :
    (Memory.cellsFrom a bs).read i = if a ≤ i then bs[i - a]? else none := by
  induction bs generalizing a with
  | nil => simp [Memory.cellsFrom]
  | cons b bs ih =>
    simp only [Memory.cellsFrom, read_cons, ih]
    by_cases h : i = a
    · subst h; simp
    · by_cases h2 : a ≤ i
      · have e : i - a = (i - (a + 1)) + 1 := by omega
        have h3 : a + 1 ≤ i := by omega
        simp [h, h2, h3, e]
      · have h3 : ¬ a + 1 ≤ i := by omega
        simp [h, h2, h3]

@[simp] theorem read_ofBytes (bs : List Byte) (i : Nat) : (Memory.ofBytes bs).read i = bs[i]? := by
  simp [Memory.ofBytes, read_cellsFrom]

theorem le_of_mem_cellsFrom {a : Nat} {bs : List Byte} {x : Host.Cell}
    (h : x ∈ Memory.cellsFrom a bs) : a ≤ x.1 := by
  induction bs generalizing a with
  | nil => simp [Memory.cellsFrom] at h
  | cons b bs ih =>
    rcases List.mem_cons.1 h with rfl | h
    · exact Nat.le_refl _
    · have := ih h; omega

theorem cellsFrom_wf (a : Nat) (bs : List Byte) : (Memory.cellsFrom a bs).wf := by
  induction bs generalizing a with
  | nil => exact .nil
  | cons b bs ih =>
    refine List.pairwise_cons.2 ⟨fun x hx => ?_, ih (a + 1)⟩
    have := le_of_mem_cellsFrom hx
    show a < x.1
    omega

theorem ofBytes_wf (bs : List Byte) : (Memory.ofBytes bs).wf := cellsFrom_wf 0 bs

/-! ## Equal memories are equal data -/

theorem read_eq_none_of_lt {m : Memory} {a : Nat} (h : ∀ x ∈ m, a < x.1) : m.read a = none := by
  induction m with
  | nil => rfl
  | cons y m ih =>
    obtain ⟨k, b⟩ := y
    have hk : a < k := h _ List.mem_cons_self
    have : a ≠ k := by omega
    rw [read_cons, if_neg this]
    exact ih fun x hx => h x (List.mem_cons_of_mem _ hx)

/-- Canonical memories with the same reads are the same list. -/
theorem memory_ext {m m' : Memory} (h : m.wf) (h' : m'.wf) (e : ∀ a, m.read a = m'.read a) : m = m' := by
  induction m generalizing m' with
  | nil =>
    cases m' with
    | nil => rfl
    | cons y t => have := e y.1; simp [Memory.read] at this
  | cons x t ih =>
    obtain ⟨k, b⟩ := x
    obtain ⟨h1, h2⟩ := List.pairwise_cons.1 h
    cases m' with
    | nil => have := e k; simp [read_cons] at this
    | cons y t' =>
      obtain ⟨k', b'⟩ := y
      obtain ⟨h1', h2'⟩ := List.pairwise_cons.1 h'
      have hk : k = k' := by
        rcases Nat.lt_trichotomy k k' with hl | he | hl
        · have e1 := e k
          rw [read_cons, if_pos rfl, read_cons, if_neg (by omega)] at e1
          rw [read_eq_none_of_lt (m := t') fun x hx => lt_trans hl (h1' x hx)] at e1
          cases e1
        · exact he
        · have e1 := e k'
          rw [read_cons (k := k'), if_pos rfl, read_cons, if_neg (by omega)] at e1
          rw [read_eq_none_of_lt (m := t) fun x hx => lt_trans hl (h1 x hx)] at e1
          cases e1
      subst hk
      have hb : b = b' := by simpa [read_cons] using e k
      subst hb
      congr 1
      refine ih h2 h2' fun a => ?_
      by_cases ha : a = k
      · subst ha
        rw [read_eq_none_of_lt (m := t) h1, read_eq_none_of_lt (m := t') h1']
      · simpa [read_cons, ha] using e a

/-- Writing the value an address already holds changes nothing. -/
theorem write_read_self {m : Memory} (h : m.wf) {a : Nat} {v : Byte} (e : m.read a = some v) :
    m.write a v = m := by
  refine memory_ext (write_wf h a v) h fun a' => ?_
  rw [read_write]
  split
  · rename_i h1; rw [h1, e]
  · rfl

/-- The last write to an address wins. -/
theorem write_write {m : Memory} (h : m.wf) (a : Nat) (v v' : Byte) :
    (m.write a v).write a v' = m.write a v' := by
  refine memory_ext (write_wf (write_wf h a v) a v') (write_wf h a v') fun a' => ?_
  simp only [read_write]
  split <;> rfl

end Sys2Proof.Laws
end

