-- ==== Sys2Proof/Laws/State.lean ====
section
/-! SUPPORT. One lemma per field per update of the state, all true by `rfl`. -/

namespace Sys2Proof.Laws

open Sys2Proof Sys2Proof.Machine

/-! ## raise -/

@[simp] theorem raise_cfg (c : FaultCode) (n : BitVec 32) (s : State) : (raise c n s).cfg = s.cfg := rfl
@[simp] theorem raise_pstate (c : FaultCode) (n : BitVec 32) (s : State) : (raise c n s).pstate = s.pstate := rfl
@[simp] theorem raise_surf (c : FaultCode) (n : BitVec 32) (s : State) : (raise c n s).surf = s.surf := rfl
@[simp] theorem raise_shContrast (c : FaultCode) (n : BitVec 32) (s : State) : (raise c n s).shContrast = s.shContrast := rfl
@[simp] theorem raise_shInvert (c : FaultCode) (n : BitVec 32) (s : State) : (raise c n s).shInvert = s.shInvert := rfl
@[simp] theorem raise_shOrient (c : FaultCode) (n : BitVec 32) (s : State) : (raise c n s).shOrient = s.shOrient := rfl
@[simp] theorem raise_font (c : FaultCode) (n : BitVec 32) (s : State) : (raise c n s).font = s.font := rfl
@[simp] theorem raise_res (c : FaultCode) (n : BitVec 32) (s : State) : (raise c n s).res = s.res := rfl
@[simp] theorem raise_fault (c : FaultCode) (n : BitVec 32) (s : State) : (raise c n s).fault = c := rfl
@[simp] theorem raise_faultWord (c : FaultCode) (n : BitVec 32) (s : State) : (raise c n s).faultWord = s.opWord := rfl
@[simp] theorem raise_faultInfo (c : FaultCode) (n : BitVec 32) (s : State) : (raise c n s).faultInfo = n := rfl
@[simp] theorem raise_buslog (c : FaultCode) (n : BitVec 32) (s : State) : (raise c n s).buslog = s.buslog := rfl
@[simp] theorem raise_shown (c : FaultCode) (n : BitVec 32) (s : State) : (raise c n s).shown = s.shown := rfl
@[simp] theorem raise_xm (c : FaultCode) (n : BitVec 32) (s : State) : (raise c n s).xm = s.xm := rfl
@[simp] theorem raise_pending (c : FaultCode) (n : BitVec 32) (s : State) : (raise c n s).pending = s.pending := rfl
@[simp] theorem raise_opIndex (c : FaultCode) (n : BitVec 32) (s : State) : (raise c n s).opIndex = s.opIndex := rfl
@[simp] theorem raise_busScript (c : FaultCode) (n : BitVec 32) (s : State) : (raise c n s).busScript = s.busScript := rfl
@[simp] theorem raise_allocScript (c : FaultCode) (n : BitVec 32) (s : State) : (raise c n s).allocScript = s.allocScript := rfl
@[simp] theorem raise_allocCount (c : FaultCode) (n : BitVec 32) (s : State) : (raise c n s).allocCount = s.allocCount := rfl

/-! ## withFb -/

@[simp] theorem withFb_cfg (s : State) (d : Surface) (m : Memory) : (s.withFb d m).cfg = s.cfg := rfl
@[simp] theorem withFb_pstate (s : State) (d : Surface) (m : Memory) : (s.withFb d m).pstate = s.pstate := rfl
@[simp] theorem withFb_surf (s : State) (d : Surface) (m : Memory) : (s.withFb d m).surf = some { d with fb := m } := rfl
@[simp] theorem withFb_shContrast (s : State) (d : Surface) (m : Memory) : (s.withFb d m).shContrast = s.shContrast := rfl
@[simp] theorem withFb_shInvert (s : State) (d : Surface) (m : Memory) : (s.withFb d m).shInvert = s.shInvert := rfl
@[simp] theorem withFb_shOrient (s : State) (d : Surface) (m : Memory) : (s.withFb d m).shOrient = s.shOrient := rfl
@[simp] theorem withFb_font (s : State) (d : Surface) (m : Memory) : (s.withFb d m).font = s.font := rfl
@[simp] theorem withFb_res (s : State) (d : Surface) (m : Memory) : (s.withFb d m).res = s.res := rfl
@[simp] theorem withFb_fault (s : State) (d : Surface) (m : Memory) : (s.withFb d m).fault = s.fault := rfl
@[simp] theorem withFb_faultWord (s : State) (d : Surface) (m : Memory) : (s.withFb d m).faultWord = s.faultWord := rfl
@[simp] theorem withFb_faultInfo (s : State) (d : Surface) (m : Memory) : (s.withFb d m).faultInfo = s.faultInfo := rfl
@[simp] theorem withFb_buslog (s : State) (d : Surface) (m : Memory) : (s.withFb d m).buslog = s.buslog := rfl
@[simp] theorem withFb_shown (s : State) (d : Surface) (m : Memory) : (s.withFb d m).shown = s.shown := rfl
@[simp] theorem withFb_xm (s : State) (d : Surface) (m : Memory) : (s.withFb d m).xm = s.xm := rfl
@[simp] theorem withFb_pending (s : State) (d : Surface) (m : Memory) : (s.withFb d m).pending = s.pending := rfl
@[simp] theorem withFb_opIndex (s : State) (d : Surface) (m : Memory) : (s.withFb d m).opIndex = s.opIndex := rfl
@[simp] theorem withFb_busScript (s : State) (d : Surface) (m : Memory) : (s.withFb d m).busScript = s.busScript := rfl
@[simp] theorem withFb_allocScript (s : State) (d : Surface) (m : Memory) : (s.withFb d m).allocScript = s.allocScript := rfl
@[simp] theorem withFb_allocCount (s : State) (d : Surface) (m : Memory) : (s.withFb d m).allocCount = s.allocCount := rfl

/-! ## setRes -/

@[simp] theorem setRes_cfg (v : BitVec 32) (s : State) : (setRes v s).cfg = s.cfg := rfl
@[simp] theorem setRes_pstate (v : BitVec 32) (s : State) : (setRes v s).pstate = s.pstate := rfl
@[simp] theorem setRes_surf (v : BitVec 32) (s : State) : (setRes v s).surf = s.surf := rfl
@[simp] theorem setRes_shContrast (v : BitVec 32) (s : State) : (setRes v s).shContrast = s.shContrast := rfl
@[simp] theorem setRes_shInvert (v : BitVec 32) (s : State) : (setRes v s).shInvert = s.shInvert := rfl
@[simp] theorem setRes_shOrient (v : BitVec 32) (s : State) : (setRes v s).shOrient = s.shOrient := rfl
@[simp] theorem setRes_font (v : BitVec 32) (s : State) : (setRes v s).font = s.font := rfl
@[simp] theorem setRes_res (v : BitVec 32) (s : State) : (setRes v s).res = some v := rfl
@[simp] theorem setRes_fault (v : BitVec 32) (s : State) : (setRes v s).fault = s.fault := rfl
@[simp] theorem setRes_faultWord (v : BitVec 32) (s : State) : (setRes v s).faultWord = s.faultWord := rfl
@[simp] theorem setRes_faultInfo (v : BitVec 32) (s : State) : (setRes v s).faultInfo = s.faultInfo := rfl
@[simp] theorem setRes_buslog (v : BitVec 32) (s : State) : (setRes v s).buslog = s.buslog := rfl
@[simp] theorem setRes_shown (v : BitVec 32) (s : State) : (setRes v s).shown = s.shown := rfl
@[simp] theorem setRes_xm (v : BitVec 32) (s : State) : (setRes v s).xm = s.xm := rfl
@[simp] theorem setRes_pending (v : BitVec 32) (s : State) : (setRes v s).pending = s.pending := rfl
@[simp] theorem setRes_opIndex (v : BitVec 32) (s : State) : (setRes v s).opIndex = s.opIndex := rfl
@[simp] theorem setRes_busScript (v : BitVec 32) (s : State) : (setRes v s).busScript = s.busScript := rfl
@[simp] theorem setRes_allocScript (v : BitVec 32) (s : State) : (setRes v s).allocScript = s.allocScript := rfl
@[simp] theorem setRes_allocCount (v : BitVec 32) (s : State) : (setRes v s).allocCount = s.allocCount := rfl

/-! ## resetWith -/

@[simp] theorem resetWith_cfg (c : Config) (x : Memory) (b a : List Answer) : (State.resetWith c x b a).cfg = c := rfl
@[simp] theorem resetWith_pstate (c : Config) (x : Memory) (b a : List Answer) : (State.resetWith c x b a).pstate = .uninit := rfl
@[simp] theorem resetWith_surf (c : Config) (x : Memory) (b a : List Answer) : (State.resetWith c x b a).surf = none := rfl
@[simp] theorem resetWith_shContrast (c : Config) (x : Memory) (b a : List Answer) : (State.resetWith c x b a).shContrast = none := rfl
@[simp] theorem resetWith_shInvert (c : Config) (x : Memory) (b a : List Answer) : (State.resetWith c x b a).shInvert = none := rfl
@[simp] theorem resetWith_shOrient (c : Config) (x : Memory) (b a : List Answer) : (State.resetWith c x b a).shOrient = none := rfl
@[simp] theorem resetWith_font (c : Config) (x : Memory) (b a : List Answer) : (State.resetWith c x b a).font = none := rfl
@[simp] theorem resetWith_res (c : Config) (x : Memory) (b a : List Answer) : (State.resetWith c x b a).res = none := rfl
@[simp] theorem resetWith_fault (c : Config) (x : Memory) (b a : List Answer) : (State.resetWith c x b a).fault = .none := rfl
@[simp] theorem resetWith_faultWord (c : Config) (x : Memory) (b a : List Answer) : (State.resetWith c x b a).faultWord = none := rfl
@[simp] theorem resetWith_faultInfo (c : Config) (x : Memory) (b a : List Answer) : (State.resetWith c x b a).faultInfo = 0 := rfl
@[simp] theorem resetWith_buslog (c : Config) (x : Memory) (b a : List Answer) : (State.resetWith c x b a).buslog = [] := rfl
@[simp] theorem resetWith_shown (c : Config) (x : Memory) (b a : List Answer) : (State.resetWith c x b a).shown = none := rfl
@[simp] theorem resetWith_xm (c : Config) (x : Memory) (b a : List Answer) : (State.resetWith c x b a).xm = x := rfl
@[simp] theorem resetWith_pending (c : Config) (x : Memory) (b a : List Answer) : (State.resetWith c x b a).pending = [] := rfl
@[simp] theorem resetWith_opIndex (c : Config) (x : Memory) (b a : List Answer) : (State.resetWith c x b a).opIndex = 0 := rfl
@[simp] theorem resetWith_busScript (c : Config) (x : Memory) (b a : List Answer) : (State.resetWith c x b a).busScript = b := rfl
@[simp] theorem resetWith_allocScript (c : Config) (x : Memory) (b a : List Answer) : (State.resetWith c x b a).allocScript = a := rfl
@[simp] theorem resetWith_allocCount (c : Config) (x : Memory) (b a : List Answer) : (State.resetWith c x b a).allocCount = 0 := rfl

end Sys2Proof.Laws
end

