-- ==== Sys2Proof/Laws/Ops.lean ====
section
/-! SUPPORT. What each shared operation can do, said once. -/

namespace Sys2Proof.Laws

open Sys2Proof Sys2Proof.Machine

/-! ## Sequencing -/

theorem andThen_none {s : State} (h : s.fault = .none) (f : State → State) : andThen s f = f s := by
  simp [andThen, h]

theorem andThen_fault {s : State} (h : s.fault ≠ .none) (f : State → State) : andThen s f = s := by
  simp [andThen, h]

theorem andThen_congr {s : State} {f g : State → State} (h : s.fault = .none → f s = g s) :
    andThen s f = andThen s g := by
  by_cases hf : s.fault = .none
  · rw [andThen_none hf, andThen_none hf, h hf]
  · rw [andThen_fault hf, andThen_fault hf]

/-- The steps after a fault do not run: sequencing is associative. -/
theorem andThen_andThen (s : State) (f g : State → State) :
    andThen (andThen s f) g = andThen s fun s => andThen (f s) g := by
  by_cases h : s.fault = .none
  · simp [andThen_none h]
  · simp [andThen_fault h]

section
variable {α : Type} (f : α → State → State)

@[simp] theorem forEach_nil (s : State) : forEach f [] s = s := rfl

theorem forEach_cons {s : State} (h : s.fault = .none) (a : α) (as : List α) :
    forEach f (a :: as) s = forEach f as (f a s) := andThen_none h _

theorem forEach_fault {s : State} (h : s.fault ≠ .none) (as : List α) : forEach f as s = s := by
  cases as with
  | nil => rfl
  | cons a as => exact andThen_fault h _

/-- A loop over two lists is the two loops in sequence. -/
theorem forEach_append (as bs : List α) (s : State) :
    forEach f (as ++ bs) s = andThen (forEach f as s) (forEach f bs) := by
  induction as generalizing s with
  | nil =>
    by_cases h : s.fault = .none
    · simp [andThen_none h]
    · simp [andThen_fault h, forEach_fault f h]
  | cons a as ih =>
    by_cases h : s.fault = .none
    · rw [List.cons_append, forEach_cons f h, forEach_cons f h, ih]
    · rw [forEach_fault f h, forEach_fault f h, andThen_fault h]

variable {f} in
/-- A loop stays within any reflexive and transitive relation that each of its steps, from a state with
no fault, stays within. -/
theorem forEach_rel {R : State → State → Prop} (refl : ∀ s, R s s)
    (trans : ∀ {a b c}, R a b → R b c → R a c) {as : List α}
    (hf : ∀ a ∈ as, ∀ s : State, s.fault = .none → R s (f a s)) (s : State) : R s (forEach f as s) := by
  induction as generalizing s with
  | nil => exact refl s
  | cons a as ih =>
    by_cases h : s.fault = .none
    · rw [forEach_cons f h]
      exact trans (hf a List.mem_cons_self s h)
        (ih (fun b hb => hf b (List.mem_cons_of_mem _ hb)) _)
    · rw [forEach_fault f h]
      exact refl s

end

/-- What holds after a first step and is kept by the second holds after both. -/
theorem andThen_rel {R : State → State → Prop} (trans : ∀ {a b c}, R a b → R b c → R a c)
    {s t : State} {f : State → State} (h1 : R s t) (h2 : t.fault = .none → R t (f t)) :
    R s (andThen t f) := by
  by_cases h : t.fault = .none
  · rw [andThen_none h]; exact trans h1 (h2 h)
  · rw [andThen_fault h]; exact h1

/-! ## The common step -/

/-- The two outcomes of an operation (R120, R262). -/
theorem operation_eq (s : State) (body : State → State) :
    (s.fault = .none ∧ operation s body = .next (body s)) ∨
      (s.fault ≠ .none ∧ operation s body = .fault .stuck) := by
  by_cases h : s.fault = .none
  · exact .inl ⟨h, by simp [operation, h]⟩
  · exact .inr ⟨h, by simp [operation, h]⟩

theorem operation_next {s : State} (h : s.fault = .none) (body : State → State) :
    operation s body = .next (body s) := by simp [operation, h]

theorem operation_stuck {s : State} (h : s.fault ≠ .none) (body : State → State) :
    operation s body = .fault .stuck := by simp [operation, h]

theorem onSurface_some {s : State} (h : s.fault = .none) {d : Surface} (hd : s.surf = some d)
    (body : Surface → State → State) : onSurface s body = .next (body d s) := by
  simp [onSurface, operation, h, hd]

theorem onSurface_none {s : State} (h : s.fault = .none) (hd : s.surf = none)
    (body : Surface → State → State) : onSurface s body = .next (raise .state 0 s) := by
  simp [onSurface, operation, h, hd]

theorem onSurface_stuck {s : State} (h : s.fault ≠ .none) (body : Surface → State → State) :
    onSurface s body = .fault .stuck := by simp [onSurface, operation, h]

/-- If an operation other than CONSTRUCT answers a next state, the block was not stuck, and either the
body ran on the surface or `F_STATE` was raised. -/
theorem onSurface_cases {s t : State} {body : Surface → State → State}
    (h : onSurface s body = .next t) :
    s.fault = .none ∧
      ((∃ d, s.surf = some d ∧ t = body d s) ∨ (s.surf = none ∧ t = raise .state 0 s)) := by
  by_cases hf : s.fault = .none
  · refine ⟨hf, ?_⟩
    cases hd : s.surf with
    | none => rw [onSurface_none hf hd] at h; cases h; exact .inr ⟨rfl, rfl⟩
    | some d => rw [onSurface_some hf hd] at h; cases h; exact .inl ⟨d, rfl, rfl⟩
  · rw [onSurface_stuck hf] at h; cases h

/-! ## Framebuffer -/

@[simp] theorem withFb_self (s : State) (d : Surface) (h : s.surf = some d) : s.withFb d d.fb = s := by
  cases s; simp_all [State.withFb]

@[simp] theorem withFb_withFb (s : State) (d : Surface) (m m' : Memory) :
    (s.withFb d m).withFb { d with fb := m } m' = s.withFb d m' := rfl

@[simp] theorem withFb_withFb' (s : State) (d : Surface) (m m' : Memory) :
    (s.withFb d m).withFb d m' = s.withFb d m' := rfl

@[simp] theorem geom_withFb (s : State) (d : Surface) (m : Memory) (d' : Surface) :
    (s.withFb d m).geom d' = s.geom d' := rfl

@[simp] theorem geom_fb (s : State) (d : Surface) (m : Memory) : s.geom { d with fb := m } = s.geom d := rfl

@[simp] theorem fbSize_withFb (s : State) (d : Surface) (m : Memory) (d' : Surface) :
    (s.withFb d m).fbSize d' = s.fbSize d' := rfl

@[simp] theorem fbSize_fb (s : State) (d : Surface) (m : Memory) :
    s.fbSize { d with fb := m } = s.fbSize d := rfl

theorem fbRead_eq {d : Surface} {i : Nat} {b : Byte} (h : d.fb.read i = some b) : fbRead d i = b := by
  simp [fbRead, h]

theorem fbWrite_in {s : State} {d : Surface} {i : Nat} (h : i < s.fbSize d) (v : Byte) :
    fbWrite d i v s = s.withFb d (d.fb.write i v) := by simp [fbWrite, h]

theorem fbWrite_past {s : State} {d : Surface} {i : Nat} (h : s.fbSize d ≤ i) (v : Byte) :
    fbWrite d i v s = raise .overrun (infoOf i) s := by
  simp [fbWrite, Nat.not_lt.2 h]

/-- A write inside a framebuffer keeps it a framebuffer. -/
theorem fbWf_write {n : Nat} {fb : Memory} (h : fbWf n fb) {i : Nat} (hi : i < n) (v : Byte) :
    fbWf n (fb.write i v) :=
  ⟨write_wf h.1 i v, fun j hj => by rw [read_write_ne _ _ (by omega : j ≠ i), h.2 j hj]⟩

theorem fbDefined_write {n : Nat} {fb : Memory} (h : fbDefined n fb) (i : Nat) (v : Byte) :
    fbDefined n (fb.write i v) := fun j hj => by
  rw [read_write]; split
  · rfl
  · exact h j hj

theorem fbWf_ofBytes (bs : List Byte) : fbWf bs.length (Memory.ofBytes bs) :=
  ⟨ofBytes_wf bs, fun i hi => by simpa using hi⟩

theorem fbDefined_ofBytes (bs : List Byte) : fbDefined bs.length (Memory.ofBytes bs) := fun i hi => by
  simpa using hi

@[simp] theorem length_fbBytesOf (s : State) (d : Surface) : (fbBytesOf s d).length = s.fbSize d := by
  simp [fbBytesOf]

/-- Byte `i` of a flushed framebuffer is framebuffer byte `i` (R57). -/
theorem fbBytesOf_get {s : State} {d : Surface} {i : Nat} (hi : i < s.fbSize d)
    (h : fbDefined (s.fbSize d) d.fb) : (fbBytesOf s d)[i]? = d.fb.read i := by
  obtain ⟨b, hb⟩ := Option.isSome_iff_exists.1 (h i hi)
  simp [fbBytesOf, hi, hb, fbRead_eq hb]

/-! ## Colours and bits -/

theorem bit_lt (r : Nat) : bitIndex r < 8 := Nat.mod_lt _ (by omega)

/-- Only bit `k` of a byte can change (R125). -/
theorem getLsbD_applyColour (c : Colour) {k : Nat} (hk : k < 8) (v : Byte) {k' : Nat} (hk' : k' < 8) :
    (applyColour c k v).getLsbD k' = if k' = k then bitAfter c 1 (v.getLsbD k') else v.getLsbD k' := by
  have hs : (1#8 <<< k).getLsbD k' = decide (k' = k) := by
    simp only [BitVec.getLsbD_shiftLeft, BitVec.getLsbD_one]
    by_cases h : k' = k
    · subst h; simp [hk']
    · have : ¬ k' < k → k' - k ≠ 0 := by omega
      simp [h, hk']; omega
  have hf : (0xFF#8).getLsbD k' = true := by
    have : ∀ k' : Fin 8, (0xFF#8).getLsbD k' = true := by decide
    exact this ⟨k', hk'⟩
  cases c <;> simp only [applyColour, BitVec.getLsbD_or, BitVec.getLsbD_and, BitVec.getLsbD_xor, hs, hf] <;>
    by_cases h : k' = k <;> simp [h, bitAfter]

theorem bitAfter_zero (c : Colour) (b : Bool) : bitAfter c 0 b = b := by cases c <;> simp [bitAfter]

theorem bitAfter_bitAfter (c : Colour) (m n : Nat) (b : Bool) :
    bitAfter c n (bitAfter c m b) = bitAfter c (m + n) b := by
  cases c <;> cases b <;> simp [bitAfter] <;> try omega
  · rcases Nat.mod_two_eq_zero_or_one m with h1 | h1 <;>
      rcases Nat.mod_two_eq_zero_or_one n with h2 | h2 <;> simp [h1, h2, Nat.add_mod]
  · rcases Nat.mod_two_eq_zero_or_one m with h1 | h1 <;>
      rcases Nat.mod_two_eq_zero_or_one n with h2 | h2 <;> simp [h1, h2, Nat.add_mod]

/-! ## The pixel-set -/

/-- Everything the pixel-set can do (R126): skip, write one byte, or raise `F_OVERRUN`. -/
theorem plot_cases {s : State} {d : Surface} (hd : s.surf = some d) (x y : Int) (c : Colour) :
    (inBounds (s.geom d) x y = false ∧ plot x y c s = s) ∨
    (inBounds (s.geom d) x y = true ∧ (pixelAddr (s.geom d) x y).1 < s.fbSize d ∧
      plot x y c s = s.withFb d (d.fb.write (pixelAddr (s.geom d) x y).1
        (applyColour c (pixelAddr (s.geom d) x y).2 (fbRead d (pixelAddr (s.geom d) x y).1)))) ∨
    (inBounds (s.geom d) x y = true ∧ s.fbSize d ≤ (pixelAddr (s.geom d) x y).1 ∧
      plot x y c s = raise .overrun (infoOf (pixelAddr (s.geom d) x y).1) s) := by
  by_cases hb : inBounds (s.geom d) x y = true
  · by_cases ha : (pixelAddr (s.geom d) x y).1 < s.fbSize d
    · exact .inr (.inl ⟨hb, ha, by simp [plot, hd, hb, ha, fbWrite_in ha]⟩)
    · exact .inr (.inr ⟨hb, Nat.not_lt.1 ha, by simp [plot, hd, hb, ha]⟩)
  · exact .inl ⟨by simpa using hb, by simp [plot, hd, hb]⟩

theorem plot_none {s : State} (hd : s.surf = none) (x y : Int) (c : Colour) : plot x y c s = s := by
  simp [plot, hd]

theorem targets_cons_out {g : Geometry} {p : Int × Int} (h : inBounds g p.1 p.2 = false)
    (ps : List (Int × Int)) : targets g (p :: ps) = targets g ps := by simp [targets, h]

theorem targets_cons_in {g : Geometry} {p : Int × Int} (h : inBounds g p.1 p.2 = true)
    (ps : List (Int × Int)) : targets g (p :: ps) = pixelAddr g p.1 p.2 :: targets g ps := by
  simp [targets, h]

theorem targets_append (g : Geometry) (ps qs : List (Int × Int)) :
    targets g (ps ++ qs) = targets g ps ++ targets g qs := by simp [targets]

theorem hits_append (g : Geometry) (ps qs : List (Int × Int)) (i k : Nat) :
    hits g (ps ++ qs) i k = hits g ps i k + hits g qs i k := by simp [hits, targets_append]

theorem painted_nil {g : Geometry} (c : Colour) {fb : Memory} (h1 : fbWf (fbBytes g) fb)
    (h2 : fbDefined (fbBytes g) fb) : Painted g c [] fb fb :=
  ⟨h1, h2, fun i k _ _ => by
    have : bitAfter c (hits g [] i k) = id := by funext b; simp [hits, targets, bitAfter_zero]
    simp [this]⟩

theorem painted_trans {g : Geometry} {c : Colour} {ps qs : List (Int × Int)} {fb fb' fb'' : Memory}
    (h1 : Painted g c ps fb fb') (h2 : Painted g c qs fb' fb'') : Painted g c (ps ++ qs) fb fb'' :=
  ⟨h2.1, h2.2.1, fun i k hi hk => by
    rw [h2.2.2 i k hi hk, h1.2.2 i k hi hk, Option.map_map, hits_append]
    congr 1
    funext b
    exact bitAfter_bitAfter c _ _ b⟩

/-- One pixel that is plotted inside the buffer (R125, R126). -/
theorem painted_one {g : Geometry} (c : Colour) {p : Int × Int} {fb : Memory} {v : Byte}
    (h1 : fbWf (fbBytes g) fb) (h2 : fbDefined (fbBytes g) fb) (hb : inBounds g p.1 p.2 = true)
    (ha : (pixelAddr g p.1 p.2).1 < fbBytes g) (hv : fb.read (pixelAddr g p.1 p.2).1 = some v) :
    Painted g c [p] fb (fb.write (pixelAddr g p.1 p.2).1 (applyColour c (pixelAddr g p.1 p.2).2 v)) := by
  refine ⟨fbWf_write h1 ha _, fbDefined_write h2 _ _, fun i k hi hk => ?_⟩
  have hk2 : (pixelAddr g p.1 p.2).2 < 8 := bit_lt _
  have ht : targets g [p] = [pixelAddr g p.1 p.2] := by simp [targets, hb]
  simp only [fbBit, read_write, hits, ht]
  by_cases hia : i = (pixelAddr g p.1 p.2).1
  · rw [if_pos hia, hia, hv]
    simp only [Option.map_some, getLsbD_applyColour c hk2 v hk]
    by_cases hkk : k = (pixelAddr g p.1 p.2).2
    · have : List.count ((pixelAddr g p.1 p.2).1, k) [pixelAddr g p.1 p.2] = 1 := by
        rw [hkk]; simp
      rw [if_pos hkk, this]
    · have : List.count ((pixelAddr g p.1 p.2).1, k) [pixelAddr g p.1 p.2] = 0 := by
        rw [List.count_eq_zero]
        intro hm
        exact hkk (by rw [← List.mem_singleton.1 hm])
      rw [if_neg hkk, this, bitAfter_zero]
  · have : List.count (i, k) [pixelAddr g p.1 p.2] = 0 := by
      rw [List.count_eq_zero]
      intro hm
      exact hia (by rw [← List.mem_singleton.1 hm])
    have e : bitAfter c 0 = id := by funext b; exact bitAfter_zero c b
    rw [if_neg hia, this, e]
    simp

theorem targets_skip {g : Geometry} {p : Int × Int} (h : inBounds g p.1 p.2 = false) :
    targets g [p] = [] := by simp [targets, h]

theorem painted_skip {g : Geometry} (c : Colour) {p : Int × Int} {fb : Memory}
    (h1 : fbWf (fbBytes g) fb) (h2 : fbDefined (fbBytes g) fb) (hb : inBounds g p.1 p.2 = false) :
    Painted g c [p] fb fb :=
  ⟨h1, h2, fun i k _ _ => by
    have : bitAfter c (hits g [p] i k) = id := by
      funext b; simp [hits, targets_skip hb, bitAfter_zero]
    simp [this]⟩

theorem noOverrun_append {g : Geometry} {ps qs : List (Int × Int)} :
    noOverrun g (ps ++ qs) ↔ noOverrun g ps ∧ noOverrun g qs := by
  simp [noOverrun, targets_append, or_imp, forall_and]

theorem plot_painted {s : State} {d : Surface} (hd : s.surf = some d) (hw : fbWf (s.fbSize d) d.fb)
    (hf : fbDefined (s.fbSize d) d.fb) (c : Colour) {p : Int × Int} (hp : noOverrun (s.geom d) [p]) :
    ∃ fb, plot p.1 p.2 c s = s.withFb d fb ∧ Painted (s.geom d) c [p] d.fb fb := by
  rcases plot_cases hd p.1 p.2 c with ⟨hb, e⟩ | ⟨hb, ha, e⟩ | ⟨hb, ha, e⟩
  · exact ⟨d.fb, by rw [e, withFb_self s d hd], painted_skip c hw hf hb⟩
  · obtain ⟨v, hv⟩ := Option.isSome_iff_exists.1 (hf _ ha)
    rw [fbRead_eq hv] at e
    exact ⟨_, e, painted_one c hw hf hb ha hv⟩
  · have := hp (pixelAddr (s.geom d) p.1 p.2) (by simp [targets, hb])
    exact absurd this (Nat.not_lt.2 ha)

/-- Pixels none of which overruns are all plotted: the frame is the framebuffer alone, and each of its
bits is its colour applied as often as the pixels reach it (R125, R180). -/
theorem plotAll_painted {s : State} {d : Surface} (hn : s.fault = .none) (hd : s.surf = some d)
    (hw : fbWf (s.fbSize d) d.fb) (hf : fbDefined (s.fbSize d) d.fb) (c : Colour)
    {ps : List (Int × Int)} (hp : noOverrun (s.geom d) ps) :
    ∃ fb, plotAll c ps s = s.withFb d fb ∧ Painted (s.geom d) c ps d.fb fb := by
  induction ps generalizing s d with
  | nil => exact ⟨d.fb, by rw [withFb_self s d hd]; rfl, painted_nil c hw hf⟩
  | cons p ps ih =>
    have hp' : noOverrun (s.geom d) ([p] ++ ps) := hp
    obtain ⟨hp1, hp2⟩ := noOverrun_append.1 hp'
    obtain ⟨fb1, e1, p1⟩ := plot_painted hd hw hf c hp1
    obtain ⟨fb2, e2, p2⟩ := ih (s := s.withFb d fb1) (d := { d with fb := fb1 }) hn rfl p1.1 p1.2.1 hp2
    refine ⟨fb2, ?_, painted_trans p1 p2⟩
    show forEach _ (p :: ps) s = _
    rw [forEach_cons _ hn]
    simp only [e1]
    exact e2

/-- The pixels before the first overrun stay, and the fault names its byte index (R255, R263). -/
theorem plotAll_overrun {s : State} {d : Surface} (hn : s.fault = .none) (hd : s.surf = some d)
    (hw : fbWf (s.fbSize d) d.fb) (hf : fbDefined (s.fbSize d) d.fb) (c : Colour)
    {ps qs : List (Int × Int)} {p : Int × Int} (hp : noOverrun (s.geom d) ps)
    (hb : inBounds (s.geom d) p.1 p.2 = true)
    (ha : s.fbSize d ≤ (pixelAddr (s.geom d) p.1 p.2).1) :
    ∃ fb, plotAll c (ps ++ p :: qs) s =
        raise .overrun (infoOf (pixelAddr (s.geom d) p.1 p.2).1) (s.withFb d fb) ∧
      Painted (s.geom d) c ps d.fb fb := by
  obtain ⟨fb, e, pt⟩ := plotAll_painted hn hd hw hf c hp
  refine ⟨fb, ?_, pt⟩
  rw [plotAll, forEach_append]
  rw [plotAll] at e
  have hn' : (s.withFb d fb).fault = .none := hn
  rw [e, andThen_none hn', forEach_cons _ hn']
  rcases plot_cases (s := s.withFb d fb) (d := { d with fb := fb }) rfl p.1 p.2 c with
    ⟨hb', _⟩ | ⟨_, ha', _⟩ | ⟨_, _, e'⟩
  · exact absurd hb (by simpa using hb')
  · exact absurd ha' (Nat.not_lt.2 ha)
  · simp only [e']
    exact forEach_fault _ (by simp) qs

/-! ## External memory -/

theorem firstUndefined_none {xm : Memory} {a n : Nat} (h : firstUndefined xm a n = none) (htop : a + n ≤ 2 ^ 32)
    {i : Nat} (hi : i < n) : (xm.read (a + i)).isSome = true := by
  rw [firstUndefined, List.find?_eq_none] at h
  have := h (a + i) (by simp [hi])
  have h2 : a + i < 2 ^ 32 := by omega
  simpa [show a + i < 4294967296 from h2, Option.isSome_iff_ne_none] using this

/-- MemRead answers bytes exactly when the read stays in XM and every byte is defined (R60). -/
theorem memRead_ok_iff (xm : Memory) (a n : Nat) (bs : List Byte) :
    memRead xm a n = .ok bs ↔
      a + n ≤ 2 ^ 32 ∧ bs.length = n ∧ ∀ i, i < n → xm.read (a + i) = bs[i]? := by
  have key : a + n ≤ 2 ^ 32 → firstUndefined xm a n = none →
      ∀ i, i < n → ((List.range n).filterMap fun i => xm.read (a + i))[i]? = xm.read (a + i) := by
    intro htop hu
    have e : ((List.range n).filterMap fun i => xm.read (a + i)) =
        (List.range n).map fun i => (xm.read (a + i)).getD 0 := by
      have : ∀ l : List Nat, (∀ i ∈ l, i < n) →
          (l.filterMap fun i => xm.read (a + i)) = l.map fun i => (xm.read (a + i)).getD 0 := by
        intro l
        induction l with
        | nil => intro _; rfl
        | cons j l ih =>
          intro h
          obtain ⟨b, hb⟩ := Option.isSome_iff_exists.1
            (firstUndefined_none hu htop (h j List.mem_cons_self))
          rw [List.filterMap_cons, hb, List.map_cons, hb,
            ih fun i hi => h i (List.mem_cons_of_mem _ hi)]
          rfl
      exact this _ fun i hi => by simpa using hi
    intro i hi
    obtain ⟨b, hb⟩ := Option.isSome_iff_exists.1 (firstUndefined_none hu htop hi)
    simp [e, hi, hb]
  constructor
  · intro h
    rw [memRead] at h
    split at h
    · split at h <;> cases h
    · rename_i htop
      have htop : a + n ≤ 2 ^ 32 := by omega
      split at h
      · rename_i hu
        cases h
        refine ⟨htop, ?_, fun i hi => (key htop hu i hi).symm⟩
        have hl : ∀ i, i < n ↔ i < ((List.range n).filterMap fun i => xm.read (a + i)).length := by
          intro i
          constructor
          · intro hi
            have h1 := key htop hu i hi
            obtain ⟨b, hb⟩ := Option.isSome_iff_exists.1 (firstUndefined_none hu htop hi)
            rw [hb] at h1
            exact (List.getElem?_eq_some_iff.1 h1).1
          · intro hi
            have := List.length_filterMap_le (fun i => xm.read (a + i)) (List.range n)
            simp at this
            omega
        have h1 := hl n
        have h2 := hl ((List.range n).filterMap fun i => xm.read (a + i)).length
        omega
      · cases h
  · rintro ⟨htop, hlen, hbs⟩
    have hu : firstUndefined xm a n = none := by
      rw [firstUndefined, List.find?_eq_none]
      intro q hq
      obtain ⟨i, hi, rfl⟩ := List.mem_map.1 hq
      have hi : i < n := by simpa using hi
      have : i < bs.length := by omega
      simp [hbs i hi, this]
    rw [memRead, if_neg (by omega), hu]
    simp only
    congr 1
    have hl : ((List.range n).filterMap fun i => xm.read (a + i)).length ≤ n := by
      simpa using List.length_filterMap_le (fun i => xm.read (a + i)) (List.range n)
    apply List.ext_getElem?
    intro i
    by_cases hi : i < n
    · rw [key htop hu i hi, hbs i hi]
    · rw [List.getElem?_eq_none (by omega), List.getElem?_eq_none (by omega)]

theorem withMem_ok {s : State} {a n : Nat} {bs : List Byte} (h : memRead s.xm a n = .ok bs)
    (k : List Byte → State → State) : withMem a n k s = k bs s := by simp [withMem, h]

theorem withMem_error {s : State} {a n : Nat} {info : BitVec 32} (h : memRead s.xm a n = .error info)
    (k : List Byte → State → State) : withMem a n k s = raise .extRead info s := by simp [withMem, h]

/-- One XM byte that is defined. -/
theorem memRead_one {xm : Memory} {a : Nat} {b : Byte} (ha : a < 2 ^ 32) (h : xm.read a = some b) :
    memRead xm a 1 = .ok [b] := by
  rw [memRead_ok_iff]
  refine ⟨by omega, rfl, fun i hi => ?_⟩
  have : i = 0 := by omega
  subst this
  simpa using h

/-! ## The bus -/

/-- Everything a transaction can do (R101, R259): it is logged; on fail `F_BUS` is raised too. -/
theorem busSend_cases {s : State} {d : Surface} (hd : s.surf = some d) (bytes : List Byte) :
    (s.busAnswer s.buslog.length = .ok ∧
      busSend bytes s = { s with buslog := s.buslog ++ [⟨d.devaddr, bytes, .ok⟩] }) ∨
    (s.busAnswer s.buslog.length = .fail ∧
      busSend bytes s = raise .bus (infoOf s.buslog.length)
        { s with buslog := s.buslog ++ [⟨d.devaddr, bytes, .fail⟩] }) := by
  cases h : s.busAnswer s.buslog.length with
  | ok => exact .inl ⟨rfl, by simp [busSend, hd, h]⟩
  | fail => exact .inr ⟨rfl, by simp [busSend, hd, h]⟩

theorem busSend_none {s : State} (hd : s.surf = none) (bytes : List Byte) : busSend bytes s = s := by
  simp [busSend, hd]

theorem busOk_head {s : State} {n : Nat} (h : busOk s (n + 1)) : s.busAnswer s.buslog.length = .ok :=
  h _ (Nat.le_refl _) (by omega)

theorem busOk_mono {s : State} {m n : Nat} (h : busOk s n) (hm : m ≤ n) : busOk s m :=
  fun p h1 h2 => h p h1 (by omega)

/-- After `k` transactions, the next `n` are still ok. -/
theorem busOk_advance {s t : State} {n k : Nat} (h : busOk s (k + n)) (hs : t.busScript = s.busScript)
    (hl : t.buslog.length = s.buslog.length + k) : busOk t n := fun p h1 h2 => by
  have := h p (by omega) (by omega)
  simpa [State.busAnswer, hs] using this

theorem okLog_append (a : DevAddr) (xs ys : List (List Byte)) : okLog a (xs ++ ys) = okLog a xs ++ okLog a ys := by
  simp [okLog]

theorem cmdBytes_append (xs ys : List Byte) : cmdBytes (xs ++ ys) = cmdBytes xs ++ cmdBytes ys := by
  simp [cmdBytes]

/-- The state after transactions that were all ok. -/
def logged (s : State) (a : DevAddr) (l : List (List Byte)) : State :=
  { s with buslog := s.buslog ++ okLog a l }

@[simp] theorem logged_cfg (s : State) (a : DevAddr) (l : List (List Byte)) :
    (logged s a l).cfg = s.cfg := rfl
@[simp] theorem logged_pstate (s : State) (a : DevAddr) (l : List (List Byte)) :
    (logged s a l).pstate = s.pstate := rfl
@[simp] theorem logged_surf (s : State) (a : DevAddr) (l : List (List Byte)) :
    (logged s a l).surf = s.surf := rfl
@[simp] theorem logged_shContrast (s : State) (a : DevAddr) (l : List (List Byte)) :
    (logged s a l).shContrast = s.shContrast := rfl
@[simp] theorem logged_shInvert (s : State) (a : DevAddr) (l : List (List Byte)) :
    (logged s a l).shInvert = s.shInvert := rfl
@[simp] theorem logged_shOrient (s : State) (a : DevAddr) (l : List (List Byte)) :
    (logged s a l).shOrient = s.shOrient := rfl
@[simp] theorem logged_font (s : State) (a : DevAddr) (l : List (List Byte)) :
    (logged s a l).font = s.font := rfl
@[simp] theorem logged_res (s : State) (a : DevAddr) (l : List (List Byte)) :
    (logged s a l).res = s.res := rfl
@[simp] theorem logged_fault (s : State) (a : DevAddr) (l : List (List Byte)) :
    (logged s a l).fault = s.fault := rfl
@[simp] theorem logged_faultWord (s : State) (a : DevAddr) (l : List (List Byte)) :
    (logged s a l).faultWord = s.faultWord := rfl
@[simp] theorem logged_faultInfo (s : State) (a : DevAddr) (l : List (List Byte)) :
    (logged s a l).faultInfo = s.faultInfo := rfl
@[simp] theorem logged_buslog (s : State) (a : DevAddr) (l : List (List Byte)) :
    (logged s a l).buslog = s.buslog ++ okLog a l := rfl
@[simp] theorem logged_shown (s : State) (a : DevAddr) (l : List (List Byte)) :
    (logged s a l).shown = s.shown := rfl
@[simp] theorem logged_xm (s : State) (a : DevAddr) (l : List (List Byte)) :
    (logged s a l).xm = s.xm := rfl
@[simp] theorem logged_pending (s : State) (a : DevAddr) (l : List (List Byte)) :
    (logged s a l).pending = s.pending := rfl
@[simp] theorem logged_opIndex (s : State) (a : DevAddr) (l : List (List Byte)) :
    (logged s a l).opIndex = s.opIndex := rfl
@[simp] theorem logged_busScript (s : State) (a : DevAddr) (l : List (List Byte)) :
    (logged s a l).busScript = s.busScript := rfl
@[simp] theorem logged_allocScript (s : State) (a : DevAddr) (l : List (List Byte)) :
    (logged s a l).allocScript = s.allocScript := rfl
@[simp] theorem logged_allocCount (s : State) (a : DevAddr) (l : List (List Byte)) :
    (logged s a l).allocCount = s.allocCount := rfl

@[simp] theorem logged_nil (s : State) (a : DevAddr) : logged s a [] = s := by
  simp [logged, okLog]

theorem logged_logged (s : State) (a : DevAddr) (l l' : List (List Byte)) :
    logged (logged s a l) a l' = logged s a (l ++ l') := by
  simp [logged, okLog_append]

@[simp] theorem length_okLog (a : DevAddr) (l : List (List Byte)) : (okLog a l).length = l.length := by
  simp [okLog]

@[simp] theorem length_cmdBytes (bs : List Byte) : (cmdBytes bs).length = bs.length := by simp [cmdBytes]

@[simp] theorem length_flushLog (cfg : Config) (f : Family) (d : List Byte) :
    (flushLog cfg f d).length = (flushWinOf cfg f).length + 1 := by simp [flushLog]

theorem busOk_logged {s : State} {a : DevAddr} {l : List (List Byte)} {n : Nat}
    (h : busOk s (l.length + n)) : busOk (logged s a l) n :=
  busOk_advance h rfl (by simp)

theorem busSend_ok {s : State} {d : Surface} (hd : s.surf = some d) (bytes : List Byte)
    (h : busOk s 1) : busSend bytes s = logged s d.devaddr [bytes] := by
  rcases busSend_cases hd bytes with ⟨_, e⟩ | ⟨hf, _⟩
  · exact e
  · rw [busOk_head (n := 0) h] at hf; cases hf

/-- Command bytes all sent (R109). -/
theorem busCmds_ok {s : State} {d : Surface} (hn : s.fault = .none) (hd : s.surf = some d)
    {bs : List Byte} (h : busOk s bs.length) :
    busCmds bs s = logged s d.devaddr (cmdBytes bs) := by
  induction bs generalizing s with
  | nil => simp [busCmds, cmdBytes]
  | cons b bs ih =>
    have h' : busOk s (1 + bs.length) := busOk_mono h (by simp only [List.length_cons]; omega)
    have hs : busCmd b s = logged s d.devaddr [[0x00, b]] := busSend_ok hd _ (busOk_mono h' (by omega))
    rw [busCmds, forEach_cons _ hn, hs]
    refine (ih (s := logged s d.devaddr [[0x00, b]]) hn hd (busOk_logged h')).trans ?_
    rw [logged_logged]
    rfl

/-- A flush whose transactions are all ok (R130). -/
theorem flushBytes_ok {s : State} {d e : Surface} (hn : s.fault = .none) (hd : s.surf = some e)
    (payload : List Byte) (h : busOk s ((flushWinOf s.cfg d.fam).length + 1)) :
    flushBytes d payload s =
      { logged s e.devaddr (flushLog s.cfg d.fam payload) with shown := some payload } := by
  have h1 : busOk s ((cmdBytes (flushWinOf s.cfg d.fam)).length + 1) := by simpa using h
  rw [flushBytes, busCmds_ok hn hd (busOk_mono h (Nat.le_succ _)),
    andThen_none (by simpa using hn), busData,
    busSend_ok (d := e) (by simpa using hd) _ (busOk_logged h1), logged_logged,
    andThen_none (by simpa using hn)]
  rfl

end Sys2Proof.Laws
end

