-- ==== Sys2Proof/Laws/Bus.lean ====
section
/-! SUPPORT. Transactions that fail: what a sequence of transactions leaves when one of them is refused. -/

namespace Sys2Proof.Laws

open Sys2Proof Sys2Proof.Machine

/-- The state when transaction number `m` of a list was refused (R101, R259, R263). -/
def failed (s : State) (a : DevAddr) (bss : List (List Byte)) (m : Nat) : State :=
  raise .bus (infoOf (s.buslog.length + m)) { s with buslog := s.buslog ++ failLog a bss m }

@[simp] theorem failed_fault (s : State) (a : DevAddr) (bss : List (List Byte)) (m : Nat) :
    (failed s a bss m).fault = .bus := rfl

theorem failLog_append_left (a : DevAddr) {xs : List (List Byte)} (ys : List (List Byte)) {m : Nat}
    (h : m < xs.length) : failLog a (xs ++ ys) m = failLog a xs m := by
  simp [failLog, List.take_append_of_le_length (Nat.le_of_lt h), List.getElem?_append_left h]

theorem failLog_append_right (a : DevAddr) (xs ys : List (List Byte)) (m : Nat) :
    failLog a (xs ++ ys) (xs.length + m) = okLog a xs ++ failLog a ys m := by
  simp [failLog, okLog, List.take_append, List.getElem?_append_right, List.take_of_length_le]

/-- A refusal among the first transactions of two lists is a refusal in their concatenation. -/
theorem failed_append_left (s : State) (a : DevAddr) {xs : List (List Byte)} (ys : List (List Byte))
    {m : Nat} (h : m < xs.length) : failed s a (xs ++ ys) m = failed s a xs m := by
  rw [failed, failLog_append_left a ys h, failed]

/-- A refusal after transactions that were ok. -/
theorem failed_logged (s : State) (a : DevAddr) (xs ys : List (List Byte)) (m : Nat) :
    failed (logged s a xs) a ys m = failed s a (xs ++ ys) (xs.length + m) := by
  simp [failed, failLog_append_right, raise, State.opWord, logged, Nat.add_assoc]

theorem busFailsAt_zero {s : State} (h : busFailsAt s 0) : s.busAnswer s.buslog.length = .fail := by
  simpa using h.2

theorem busFailsAt_logged {s : State} {a : DevAddr} {l : List (List Byte)} {m : Nat}
    (h : busFailsAt s (l.length + m)) : busFailsAt (logged s a l) m :=
  ⟨busOk_logged h.1, by
    have := h.2
    simpa [State.busAnswer, Nat.add_assoc] using this⟩

theorem busSend_fail {s : State} {d : Surface} (hd : s.surf = some d) (bytes : List Byte)
    (h : busFailsAt s 0) : busSend bytes s = failed s d.devaddr [bytes] 0 := by
  rcases busSend_cases hd bytes with ⟨ho, _⟩ | ⟨_, e⟩
  · rw [busFailsAt_zero h] at ho; cases ho
  · rw [e]; simp [failed, failLog, okLog]

theorem busCmds_fail {s : State} {d : Surface} (hn : s.fault = .none) (hd : s.surf = some d)
    {bs : List Byte} {m : Nat} (hm : m < bs.length) (h : busFailsAt s m) :
    busCmds bs s = failed s d.devaddr (cmdBytes bs) m := by
  induction bs generalizing s m with
  | nil => simp at hm
  | cons b bs ih =>
    rw [busCmds, forEach_cons _ hn]
    have hc : cmdBytes (b :: bs) = [[0x00, b]] ++ cmdBytes bs := rfl
    cases m with
    | zero =>
      have e : busCmd b s = _ := busSend_fail hd _ h
      rw [e, forEach_fault _ (by simp), hc, failed_append_left _ _ _ (by simp)]
    | succ m =>
      have h' : busFailsAt s ([[(0x00 : Byte), b]].length + m) := by rwa [Nat.add_comm] at h
      have e : busCmd b s = logged s d.devaddr [[0x00, b]] := busSend_ok hd _ (busOk_mono h.1 (by omega))
      rw [e]
      refine (ih (s := logged s d.devaddr [[0x00, b]]) hn hd (by simpa using hm)
        (busFailsAt_logged h')).trans ?_
      rw [failed_logged, hc, Nat.add_comm m 1]
      rfl

/-- Command bytes and what follows, when the refusal is among them. -/
theorem andThen_busCmds_fail {s : State} {d : Surface} (hn : s.fault = .none) (hd : s.surf = some d)
    {bs : List Byte} {m : Nat} (hm : m < bs.length) (h : busFailsAt s m) (k : State → State) :
    andThen (busCmds bs s) k = failed s d.devaddr (cmdBytes bs) m := by
  rw [busCmds_fail hn hd hm h, andThen_fault (by simp)]

/-- Command bytes and what follows, when they are all ok. -/
theorem andThen_busCmds_ok {s : State} {d : Surface} (hn : s.fault = .none) (hd : s.surf = some d)
    {bs : List Byte} (h : busOk s bs.length) (k : State → State) :
    andThen (busCmds bs s) k = k (logged s d.devaddr (cmdBytes bs)) := by
  rw [busCmds_ok hn hd h, andThen_none (by simpa using hn)]

theorem busCmd_eq {s : State} (hn : s.fault = .none) (b : Byte) : busCmd b s = busCmds [b] s := by
  rw [busCmds, forEach_cons _ hn, forEach_nil]

/-- A flush one of whose transactions is refused: `shown` and all else stay (R130, R259, R263). -/
theorem flushBytes_fail {s : State} {d e : Surface} (hn : s.fault = .none) (hd : s.surf = some e)
    (payload : List Byte) {m : Nat} (hm : m < (flushWinOf s.cfg d.fam).length + 1)
    (h : busFailsAt s m) :
    flushBytes d payload s = failed s e.devaddr (flushLog s.cfg d.fam payload) m := by
  rw [flushBytes]
  by_cases hw : m < (flushWinOf s.cfg d.fam).length
  · rw [andThen_busCmds_fail hn hd hw h, flushLog, failed_append_left _ _ _ (by simpa using hw)]
  · obtain rfl : m = (flushWinOf s.cfg d.fam).length := by omega
    have h' : busFailsAt s ((cmdBytes (flushWinOf s.cfg d.fam)).length + 0) := by simpa using h
    rw [andThen_busCmds_ok hn hd h.1, busData,
      busSend_fail (d := e) (by simpa using hd) _ (busFailsAt_logged h'), andThen_fault (by simp),
      failed_logged, flushLog]
    simp

end Sys2Proof.Laws
end

