-- ==== Sys2Proof/Laws/Bringup.lean ====
section
/-! SUPPORT. Bring-up groups 1 to 6 (R106, R122), all ok and with a refused transaction. -/

namespace Sys2Proof.Laws

open Sys2Proof Sys2Proof.Machine

/-- The state in the middle of bring-up: transactions that were ok, and the shadow so far. -/
def midway (s : State) (a : DevAddr) (l : List (List Byte)) (c : Option Byte) (o : Option Orientation) :
    State :=
  { logged s a l with shContrast := c, shOrient := o }

/-- The state when transaction number `m` was refused, with the shadow so far. -/
def midwayFailed (s : State) (a : DevAddr) (l : List (List Byte)) (m : Nat) (c : Option Byte)
    (o : Option Orientation) : State :=
  { failed s a l m with shContrast := c, shOrient := o }

@[simp] theorem midway_cfg (s : State) (a : DevAddr) (l : List (List Byte)) (c : Option Byte)
    (o : Option Orientation) : (midway s a l c o).cfg = s.cfg := rfl

/-- What is recorded is the list up to the refused transaction. -/
theorem midwayFailed_append (s : State) (a : DevAddr) {l : List (List Byte)} (l' : List (List Byte))
    {m : Nat} (c : Option Byte) (o : Option Orientation) (h : m < l.length) :
    midwayFailed s a (l ++ l') m c o = midwayFailed s a l m c o := by
  rw [midwayFailed, failed_append_left s a l' h, midwayFailed]

section
variable {s : State} {d : Surface} (hn : s.fault = .none) (hd : s.surf = some d)
  {l : List (List Byte)} {c : Option Byte} {o : Option Orientation} {bs : List Byte}
include hn 

/-- The shadow writes of groups 3 and 4. -/
theorem midway_contrast (v : Byte) (k : State → State) :
    andThen { midway s d.devaddr l c o with shContrast := some v } k =
      k (midway s d.devaddr l (some v) o) := andThen_none (by exact hn) k

theorem midway_orient (v : Orientation) (k : State → State) :
    andThen { midway s d.devaddr l c o with shOrient := some v } k =
      k (midway s d.devaddr l c (some v)) := andThen_none (by exact hn) k

include hd

/-- One more group of commands, all ok. -/
theorem midway_cmds_ok (h : busOk s (l.length + bs.length)) (k : State → State) :
    andThen (busCmds bs (midway s d.devaddr l c o)) k = k (midway s d.devaddr (l ++ cmdBytes bs) c o) := by
  have h' : busOk (midway s d.devaddr l c o) bs.length := busOk_advance h rfl (by simp [midway])
  refine (andThen_busCmds_ok (d := d) (by exact hn) (by exact hd) h' k).trans ?_
  exact congrArg k (by simp [midway, logged, okLog_append])

/-- One more group of commands, one of them refused. -/
theorem midway_cmds_fail {m : Nat} (h : busFailsAt s (l.length + m)) (hm : m < bs.length)
    (k : State → State) : andThen (busCmds bs (midway s d.devaddr l c o)) k =
      midwayFailed s d.devaddr (l ++ cmdBytes bs) (l.length + m) c o := by
  have h' : busFailsAt (midway s d.devaddr l c o) m :=
    ⟨busOk_advance h.1 rfl (by simp [midway]), by
      have := h.2; simpa [State.busAnswer, midway, Nat.add_assoc] using this⟩
  refine (andThen_busCmds_fail (d := d) (by exact hn) (by exact hd) hm h' k).trans ?_
  simp [midway, midwayFailed, failed, failLog_append_right, raise, State.opWord, logged, Nat.add_assoc]

/-- Bring-up groups 1 to 6 whose transactions are all ok (R106, R122). -/
theorem bringUpCommands_ok (f : Family) (h : busOk s (bringUpBytes s.cfg f).length) (k : State → State) :
    andThen (bringUpCommands f (midway s d.devaddr [] c o)) k =
      k (midway s d.devaddr (cmdBytes (bringUpBytes s.cfg f)) (some 0xFF) (some .normal)) := by
  simp only [bringUpBytes, List.length_append, List.length_cons, List.length_nil] at h
  rw [bringUpCommands, busCmd_eq (by exact hn)]
  simp only [andThen_andThen]
  refine (midway_cmds_ok hn hd (busOk_mono h (by simp)) _).trans ?_
  refine (midway_cmds_ok hn hd (busOk_mono h (by simp; omega)) _).trans ?_
  refine (midway_cmds_ok hn hd (busOk_mono h (by simp; omega)) _).trans ?_
  refine (midway_contrast hn _ _).trans ?_
  refine (midway_cmds_ok hn hd (busOk_mono h (by simp; omega)) _).trans ?_
  refine (midway_orient hn _ _).trans ?_
  refine (midway_cmds_ok hn hd (busOk_mono h (by simp; omega)) _).trans ?_
  rw [busCmd_eq (by exact hn)]
  refine (midway_cmds_ok hn hd (busOk_mono h (by simp; omega)) _).trans ?_
  simp [bringUpBytes, cmdBytes]

/-- One more group: refused in it, or all ok. -/
theorem midway_group {m : Nat} (h : busFailsAt s m) (hl : l.length ≤ m) (k : State → State) {t : State}
    (hf : m < l.length + bs.length → midwayFailed s d.devaddr (l ++ cmdBytes bs) m c o = t)
    (ho : l.length + bs.length ≤ m → k (midway s d.devaddr (l ++ cmdBytes bs) c o) = t) :
    andThen (busCmds bs (midway s d.devaddr l c o)) k = t := by
  by_cases hm : m < l.length + bs.length
  · obtain ⟨r, rfl⟩ := Nat.exists_eq_add_of_le hl
    rw [← hf hm]
    exact midway_cmds_fail hn hd h (by omega) k
  · rw [← ho (by omega)]
    exact midway_cmds_ok hn hd (busOk_mono h.1 (by omega)) k

set_option linter.unusedSimpArgs false in
/-- Bring-up groups 1 to 6 with transaction `m` refused: the shadow of the groups before it (R263). -/
theorem bringUpCommands_fail (f : Family) {m : Nat} (hm : m < (bringUpBytes s.cfg f).length)
    (h : busFailsAt s m) (k : State → State) :
    andThen (bringUpCommands f (midway s d.devaddr [] none none)) k =
      midwayFailed s d.devaddr (cmdBytes (bringUpBytes s.cfg f)) m
        (if m < 1 + s.cfg.cmd.addrModeSeq.length + 2 then none else some 0xFF)
        (if m < 1 + s.cfg.cmd.addrModeSeq.length + 2 + s.cfg.cmd.orientNormal.length then none
        else some .normal) := by
  have hb : cmdBytes (bringUpBytes s.cfg f) =
      cmdBytes [s.cfg.cmd.displayOff] ++ cmdBytes s.cfg.cmd.addrModeSeq ++
      cmdBytes [s.cfg.cmd.contrast, 0xFF] ++ cmdBytes s.cfg.cmd.orientNormal ++
      cmdBytes (bringupOf s.cfg f) ++ cmdBytes [s.cfg.cmd.displayOn] := by simp [bringUpBytes, cmdBytes]
  simp only [bringUpBytes, List.length_append, List.length_cons, List.length_nil] at hm
  rw [bringUpCommands, busCmd_eq (by exact hn), hb]
  simp only [andThen_andThen]
  refine midway_group hn hd h (by simp; try omega) _ (fun h1 => ?_) fun h1 => ?_
  · simp only [midway_cfg, List.length_cons, List.length_nil, length_cmdBytes, List.length_append,
      List.nil_append, List.append_assoc] at h1 ⊢
    rw [if_pos (by omega), if_pos (by omega)]
    simp only [← List.append_assoc]
    symm
    repeat rw [midwayFailed_append _ _ _ _ _ (by simp; try omega)]
  simp only [midway_cfg, List.length_cons, List.length_nil, length_cmdBytes, List.length_append,
      List.nil_append, Nat.zero_add] at h1
  refine midway_group hn hd h (by simp; try omega) _ (fun h1 => ?_) fun h1 => ?_
  · simp only [midway_cfg, List.length_cons, List.length_nil, length_cmdBytes, List.length_append,
      List.nil_append, List.append_assoc] at h1 ⊢
    rw [if_pos (by omega), if_pos (by omega)]
    simp only [← List.append_assoc]
    symm
    repeat rw [midwayFailed_append _ _ _ _ _ (by simp; try omega)]
  simp only [midway_cfg, List.length_cons, List.length_nil, length_cmdBytes, List.length_append,
      List.nil_append, Nat.zero_add] at h1
  refine midway_group hn hd h (by simp; try omega) _ (fun h1 => ?_) fun h1 => ?_
  · simp only [midway_cfg, List.length_cons, List.length_nil, length_cmdBytes, List.length_append,
      List.nil_append, List.append_assoc] at h1 ⊢
    rw [if_pos (by omega), if_pos (by omega)]
    simp only [← List.append_assoc]
    symm
    repeat rw [midwayFailed_append _ _ _ _ _ (by simp; try omega)]
  simp only [midway_cfg, List.length_cons, List.length_nil, length_cmdBytes, List.length_append,
      List.nil_append, Nat.zero_add] at h1
  refine (midway_contrast hn _ _).trans ?_
  refine midway_group hn hd h (by simp; try omega) _ (fun h1 => ?_) fun h1 => ?_
  · simp only [midway_cfg, List.length_cons, List.length_nil, length_cmdBytes, List.length_append,
      List.nil_append, List.append_assoc] at h1 ⊢
    rw [if_neg (by omega), if_pos (by omega)]
    simp only [← List.append_assoc]
    symm
    repeat rw [midwayFailed_append _ _ _ _ _ (by simp; try omega)]
  simp only [midway_cfg, List.length_cons, List.length_nil, length_cmdBytes, List.length_append,
      List.nil_append, Nat.zero_add] at h1
  refine (midway_orient hn _ _).trans ?_
  refine midway_group hn hd h (by simp; try omega) _ (fun h1 => ?_) fun h1 => ?_
  · simp only [midway_cfg, List.length_cons, List.length_nil, length_cmdBytes, List.length_append,
      List.nil_append, List.append_assoc] at h1 ⊢
    rw [if_neg (by omega), if_neg (by omega)]
    simp only [← List.append_assoc]
    symm
    repeat rw [midwayFailed_append _ _ _ _ _ (by simp; try omega)]
  simp only [midway_cfg, List.length_cons, List.length_nil, length_cmdBytes, List.length_append,
      List.nil_append, Nat.zero_add] at h1
  rw [busCmd_eq (by exact hn)]
  refine midway_group hn hd h (by simp; try omega) _ (fun h1 => ?_) fun h1 => ?_
  · simp only [midway_cfg, List.length_cons, List.length_nil, length_cmdBytes, List.length_append,
      List.nil_append, List.append_assoc] at h1 ⊢
    rw [if_neg (by omega), if_neg (by omega)]
  simp only [midway_cfg, List.length_cons, List.length_nil, length_cmdBytes, List.length_append,
      List.nil_append, Nat.zero_add] at h1
  omega

end

end Sys2Proof.Laws
end

