-- ==== Sys2Proof/Laws/Exec.lean ====
section
/-! SUPPORT. What `exec` answers, said once: on a stuck block, on a block that is not alive, and on a live one,
where it is the operation's body. Later proofs are about bodies. -/

namespace Sys2Proof.Laws

open Sys2Proof Sys2Proof.Machine

/-- The effect of an operation on a live surface. -/
def body : Instr → Surface → State → State
  | .construct _ _ => fun _ s => raise .state 0 s
  | .destruct => fun _ s => { s with surf := none }
  | .setpix x y c => fun _ s => plot x y c s
  | .clear c => fun d s =>
      if c = .toggle then raise .clearToggle 0 s
      else fbFill d (List.replicate (s.fbSize d) (fillByte c)) s
  | .flush => fun d s => flushBytes d (fbBytesOf s d) s
  | .flushx addr => fun d s => withMem addr.toNat (s.fbSize d) (flushBytes d) s
  | .loadbmp addr => fun d s => withMem addr.toNat (s.fbSize d) (fbFill d) s
  | .contrast v => fun _ s =>
      andThen (busCmds [s.cfg.cmd.contrast, v] s) fun s => { s with shContrast := some v }
  | .invert e => fun _ s =>
      andThen (busCmd (invertByte s.cfg.cmd e) s) fun s => { s with shInvert := some e }
  | .orient e => fun _ s =>
      andThen (busCmds (orientBytes s.cfg.cmd e) s) fun s => { s with shOrient := some e }
  | .power e => fun _ s =>
      andThen (busCmd (powerByte s.cfg.cmd e) s) fun s => { s with pstate := powerTarget e }
  | .getbufsz => fun d s => setRes (BitVec.ofNat 32 (s.fbSize d)) s
  | .getw => fun d s => setRes (BitVec.ofNat 32 (s.geom d).width) s
  | .geth => fun d s => setRes (BitVec.ofNat 32 (s.geom d).height) s
  | .rdfb idx => fun d s =>
      if idx < s.fbSize d then setRes ((fbRead d idx).zeroExtend 32) s
      else raise .index (infoOf idx) s
  | .line x0 y0 x1 y1 c => fun _ s => plotAll c (linePixels x0 y0 x1 y1) s
  | .hline x y w c => fun _ s => plotAll c (hlinePixels x y w) s
  | .vline x y h c => fun _ s => plotAll c (vlinePixels x y h) s
  | .rect x y w h c => fun _ s => plotAll c (rectPixels x y w h) s
  | .frect x y w h c => fun _ s => plotAll c (frectPixels x y w h) s
  | .pbar x y w h p c => fun _ s => plotAll c (pbarPixels x y w h p) s
  | .char x y ch c => fun _ s => drawGlyph x y ch c s
  | .string x y addr len c => fun _ s => drawString y c len x addr.toNat s
  | .setfont addr => fun _ s => { s with font := some addr }
  | .getfont => fun _ s =>
      match s.font with
      | some f => setRes f s
      | none => raise .fontUnset 0 s

/-- An operation other than CONSTRUCT is its body after the common step (R120). -/
theorem exec_eq_onSurface {i : Instr} (h : isConstruct i = false) (s : State) :
    exec i s = onSurface s (body i) := by
  cases i
  case construct a f => cases h
  all_goals rfl

/-- No operation runs on a stuck block (R262). -/
theorem exec_stuck {s : State} (h : s.fault ≠ .none) (i : Instr) : exec i s = .fault .stuck := by
  cases i
  case construct a f => exact operation_stuck h _
  all_goals rw [exec_eq_onSurface rfl, onSurface_stuck h]

/-- An operation on a live block is its body; CONSTRUCT raises `F_STATE` (R120, R254). -/
theorem exec_live {s : State} {d : Surface} (h : Live s d) (i : Instr) :
    exec i s = .next (body i d s) := by
  cases i
  case construct a f =>
    simp [exec, execConstruct, operation_next h.1, constructBody, State.alive, h.2, body]
  all_goals rw [exec_eq_onSurface rfl, onSurface_some h.1 h.2]

/-- An operation other than CONSTRUCT on a block that is not alive raises `F_STATE` (R254). -/
theorem exec_dead {s : State} (hn : s.fault = .none) (hs : s.surf = none) {i : Instr}
    (hi : isConstruct i = false) : exec i s = .next (raise .state 0 s) := by
  rw [exec_eq_onSurface hi, onSurface_none hn hs]

/-- CONSTRUCT on a block that is not alive (R121). -/
theorem exec_construct {s : State} (hn : s.fault = .none) (a : DevAddr) (f : Family) :
    exec (.construct a f) s = .next (constructBody a f s) := operation_next hn _

/-- If `exec` answers a next state, the block was not stuck, and the state is the body's on a live block,
the construction's, or the fault entry of `F_STATE`. -/
theorem exec_cases {s t : State} {i : Instr} (h : exec i s = .next t) :
    s.fault = .none ∧
      ((∃ d, s.surf = some d ∧ t = body i d s) ∨
       (s.surf = none ∧ isConstruct i = false ∧ t = raise .state 0 s) ∨
       (s.surf = none ∧ ∃ a f, i = .construct a f ∧ t = constructBody a f s)) := by
  by_cases hn : s.fault = .none
  · refine ⟨hn, ?_⟩
    cases hd : s.surf with
    | some d =>
      rw [exec_live ⟨hn, hd⟩] at h
      cases h
      exact .inl ⟨d, rfl, rfl⟩
    | none =>
      by_cases hi : isConstruct i = true
      · cases i <;> cases hi
        rename_i a f
        rw [exec_construct hn] at h
        cases h
        exact .inr (.inr ⟨rfl, a, f, rfl, rfl⟩)
      · rw [exec_dead hn hd (by simpa using hi)] at h
        cases h
        exact .inr (.inl ⟨rfl, by simpa using hi, rfl⟩)
  · rw [exec_stuck hn] at h; cases h

/-- Every operation of a block without a fault answers a next state. -/
theorem exec_next {s : State} (hn : s.fault = .none) (i : Instr) : ∃ t, exec i s = .next t := by
  cases hd : s.surf with
  | some d => exact ⟨_, exec_live ⟨hn, hd⟩ i⟩
  | none =>
    by_cases hi : isConstruct i = true
    · cases i <;> cases hi
      exact ⟨_, exec_construct hn _ _⟩
    · exact ⟨_, exec_dead hn hd (by simpa using hi)⟩

end Sys2Proof.Laws
end

