-- ==== Sys2Proof/Laws/Effects.lean ====
section
/-! SUPPORT. Everything an operation can do, as a chain of elementary effects of named kinds. A rule about every
operation is then a rule about each kind of effect. -/

namespace Sys2Proof.Laws

open Sys2Proof Sys2Proof.Machine

/-- The kinds of elementary effects. -/
inductive Kind where
  | fault | pixels | command | data | contrast | invert | orient | power | font | result | release
  | allocate
  deriving DecidableEq, Repr

/-- One elementary effect. -/
inductive Effect : Kind → State → State → Prop
  | fault (s : State) (c : FaultCode) (n : BitVec 32) : c ≠ .none → c ≠ .bus →
      Effect .fault s (raise c n s)
  | pixels (s : State) (d : Surface) (fb : Memory) : s.surf = some d →
      (fbWf (s.fbSize d) d.fb → fbWf (s.fbSize d) fb) →
      (fbDefined (s.fbSize d) d.fb → fbDefined (s.fbSize d) fb) →
      Effect .pixels s (s.withFb d fb)
  | command (s : State) (d : Surface) (b : Byte) : s.surf = some d → Effect .command s (busCmd b s)
  | data (s : State) (d : Surface) (p : List Byte) : s.surf = some d → Effect .data s (busData p s)
  | contrast (s : State) (v : Byte) : Effect .contrast s { s with shContrast := some v }
  | invert (s : State) (e : InvertMode) : Effect .invert s { s with shInvert := some e }
  | orient (s : State) (e : Orientation) : Effect .orient s { s with shOrient := some e }
  | power (s : State) (e : PowerArg) : Effect .power s { s with pstate := powerTarget e }
  | font (s : State) (a : XAddr) : Effect .font s { s with font := some a }
  | result (s : State) (v : BitVec 32) : Effect .result s (setRes v s)
  | release (s : State) : Effect .release s { s with surf := none }
  | allocate (s : State) (a : DevAddr) (f : Family) : s.surf = none →
      Effect .allocate s
        (allocated a f { s with pstate := .uninit, allocCount := s.allocCount + 1 })
  | refuse (s : State) : s.surf = none →
      Effect .allocate s { s with pstate := .uninit, allocCount := s.allocCount + 1 }

/-- A chain of effects of the kinds `K`, each from a state with no fault. -/
inductive Effects (K : Kind → Bool) : State → State → Prop
  | refl (s : State) : Effects K s s
  | step {s m t : State} (k : Kind) : s.fault = .none → K k = true → Effect k s m → Effects K m t →
      Effects K s t

theorem Effects.single {K : Kind → Bool} {k : Kind} {s t : State} (hn : s.fault = .none)
    (hk : K k = true) (h : Effect k s t) : Effects K s t := .step k hn hk h (.refl t)

theorem Effects.trans {K : Kind → Bool} {s m t : State} (h1 : Effects K s m) (h2 : Effects K m t) :
    Effects K s t := by
  induction h1 with
  | refl => exact h2
  | step k hn hk he _ ih => exact .step k hn hk he (ih h2)

/-- A reflexive and transitive relation that each effect stays within holds along a chain. -/
theorem Effects.rel {K : Kind → Bool} {R : State → State → Prop} (refl : ∀ s, R s s)
    (trans : ∀ {a b c}, R a b → R b c → R a c)
    (each : ∀ k s t, s.fault = .none → K k = true → Effect k s t → R s t) {s t : State}
    (h : Effects K s t) : R s t := by
  induction h with
  | refl s => exact refl s
  | step k hn hk he _ ih => exact trans (each k _ _ hn hk he) ih

/-- A property that each effect keeps is kept along a chain. -/
theorem Effects.keeps {K : Kind → Bool} {P : State → Prop}
    (each : ∀ k s t, s.fault = .none → K k = true → Effect k s t → P s → P t) {s t : State}
    (h : Effects K s t) (hp : P s) : P t := by
  induction h with
  | refl s => exact hp
  | step k hn hk he _ ih => exact ih (each k _ _ hn hk he hp)

theorem Effects.andThen {K : Kind → Bool} {s t : State} {f : State → State} (h1 : Effects K s t)
    (h2 : t.fault = .none → Effects K t (f t)) : Effects K s (Machine.andThen t f) :=
  andThen_rel (R := Effects K) (fun h1 h2 => Effects.trans h1 h2) h1 h2

theorem Effects.forEach {K : Kind → Bool} {α : Type} {f : α → State → State} {as : List α}
    (hf : ∀ a ∈ as, ∀ s : State, s.fault = .none → Effects K s (f a s)) (s : State) :
    Effects K s (Machine.forEach f as s) :=
  forEach_rel (R := Effects K) Effects.refl (fun h1 h2 => Effects.trans h1 h2) hf s

/-! ## The shared operations -/

theorem raise_effects {K : Kind → Bool} (hK : K .fault = true) {s : State} (hn : s.fault = .none)
    {c : FaultCode} (h1 : c ≠ .none) (h2 : c ≠ .bus) (n : BitVec 32) : Effects K s (raise c n s) :=
  .single hn hK (.fault s c n h1 h2)

theorem plot_effects {K : Kind → Bool} (hF : K .fault = true) (hP : K .pixels = true) {s : State}
    (hn : s.fault = .none) (x y : Int) (c : Colour) : Effects K s (plot x y c s) := by
  cases hd : s.surf with
  | none => rw [plot_none hd]; exact .refl s
  | some d =>
    rcases plot_cases hd x y c with ⟨_, e⟩ | ⟨_, ha, e⟩ | ⟨_, _, e⟩
    · rw [e]; exact .refl s
    · rw [e]
      exact .single hn hP (.pixels s d _ hd (fun h => fbWf_write h ha _) fun h => fbDefined_write h _ _)
    · rw [e]; exact raise_effects hF hn (by simp) (by simp) _

theorem plotAll_effects {K : Kind → Bool} (hF : K .fault = true) (hP : K .pixels = true) (s : State)
    (c : Colour) (ps : List (Int × Int)) : Effects K s (plotAll c ps s) :=
  Effects.forEach (fun p _ _ hn => plot_effects hF hP hn p.1 p.2 c) s

theorem withMem_effects {K : Kind → Bool} (hF : K .fault = true) {s : State} (hn : s.fault = .none)
    (a n : Nat) {k : List Byte → State → State}
    (hk : ∀ bs, memRead s.xm a n = .ok bs → Effects K s (k bs s)) : Effects K s (withMem a n k s) := by
  cases h : memRead s.xm a n with
  | ok bs => rw [withMem_ok h]; exact hk bs h
  | error info => rw [withMem_error h]; exact raise_effects hF hn (by simp) (by simp) _

theorem busSend_surf (s : State) (bytes : List Byte) : (busSend bytes s).surf = s.surf := by
  cases hd : s.surf with
  | none => rw [busSend_none hd, hd]
  | some d => rcases busSend_cases hd bytes with ⟨_, e⟩ | ⟨_, e⟩ <;> rw [e] <;> exact hd

theorem busCmds_surf (s : State) (bs : List Byte) : (busCmds bs s).surf = s.surf :=
  forEach_rel (R := fun s t => t.surf = s.surf) (fun _ => rfl) (fun h1 h2 => h2.trans h1)
    (fun _ _ s _ => busSend_surf s _) s

theorem busCmd_effects {K : Kind → Bool} (hC : K .command = true) {s : State} (hn : s.fault = .none)
    (b : Byte) : Effects K s (busCmd b s) := by
  cases hd : s.surf with
  | none => rw [busCmd, busSend_none hd]; exact .refl s
  | some d => exact .single hn hC (.command s d b hd)

theorem busCmds_effects {K : Kind → Bool} (hC : K .command = true) (s : State) (bs : List Byte) :
    Effects K s (busCmds bs s) :=
  Effects.forEach (fun b _ _ hn => busCmd_effects hC hn b) s

theorem flushBytes_effects {K : Kind → Bool} (hC : K .command = true) (hD : K .data = true) {s : State}
    {d e : Surface} (hd : s.surf = some e) (payload : List Byte) :
    Effects K s (flushBytes d payload s) :=
  (busCmds_effects hC s _).andThen fun hn =>
    .single hn hD (.data _ e payload (by rw [busCmds_surf, hd]))

theorem fbFill_effects {K : Kind → Bool} (hP : K .pixels = true) {s : State} {d : Surface}
    (hn : s.fault = .none) (hd : s.surf = some d) {bytes : List Byte} (hl : bytes.length = s.fbSize d) :
    Effects K s (fbFill d bytes s) :=
  .single hn hP (.pixels s d _ hd (fun _ => hl ▸ fbWf_ofBytes bytes) fun _ => hl ▸ fbDefined_ofBytes bytes)

theorem withGlyphParams_effects {K : Kind → Bool} (hF : K .fault = true) {s : State}
    (hn : s.fault = .none) {k : Nat → Nat → Nat → State → State}
    (hk : ∀ f H W, Effects K s (k f H W s)) : Effects K s (withGlyphParams k s) := by
  cases hf : s.font with
  | none => simp only [withGlyphParams, hf]; exact raise_effects hF hn (by simp) (by simp) _
  | some f =>
    simp only [withGlyphParams, hf]
    exact withMem_effects hF hn _ _ fun bs _ => hk _ _ _

theorem drawColumn_effects {K : Kind → Bool} (hF : K .fault = true) (hP : K .pixels = true) {s : State}
    (hn : s.fault = .none) (x y : Int) (c : Colour) (H base col : Nat) :
    Effects K s (drawColumn x y c H base col s) :=
  withMem_effects hF hn _ _ fun _ _ => plotAll_effects hF hP _ _ _

theorem drawGlyph_effects {K : Kind → Bool} (hF : K .fault = true) (hP : K .pixels = true) {s : State}
    (hn : s.fault = .none) (x y : Int) (ch : Nat) (c : Colour) : Effects K s (drawGlyph x y ch c s) := by
  rw [drawGlyph]
  split
  · exact withGlyphParams_effects hF hn fun f H W =>
      Effects.forEach (fun _ _ _ hn => drawColumn_effects hF hP hn x y c _ _ _) s
  · exact .refl s

theorem drawString_effects {K : Kind → Bool} (hF : K .fault = true) (hP : K .pixels = true) (y : Int)
    (c : Colour) (n : Nat) (cx : Int) (a : Nat) {s : State} (hn : s.fault = .none) :
    Effects K s (drawString y c n cx a s) := by
  induction n generalizing cx a s with
  | zero => exact .refl s
  | succ n ih =>
    exact withMem_effects hF hn _ _ fun bs _ =>
      (drawGlyph_effects hF hP hn cx y _ c).andThen fun hn' =>
        withGlyphParams_effects hF hn' fun f H W => ih _ _ hn'

/-! ## Every operation -/

/-- The kinds of effects an operation can have. -/
def kindsOf : Instr → Kind → Bool
  | .construct _ _, k => k == .fault || k == .allocate || k == .pixels || k == .command || k == .data ||
      k == .contrast || k == .orient || k == .power
  | .destruct, k => k == .fault || k == .release
  | .setpix _ _ _, k => k == .fault || k == .pixels
  | .clear _, k => k == .fault || k == .pixels
  | .flush, k => k == .fault || k == .command || k == .data
  | .flushx _, k => k == .fault || k == .command || k == .data
  | .loadbmp _, k => k == .fault || k == .pixels
  | .contrast _, k => k == .fault || k == .command || k == .contrast
  | .invert _, k => k == .fault || k == .command || k == .invert
  | .orient _, k => k == .fault || k == .command || k == .orient
  | .power _, k => k == .fault || k == .command || k == .power
  | .getbufsz, k => k == .fault || k == .result
  | .getw, k => k == .fault || k == .result
  | .geth, k => k == .fault || k == .result
  | .rdfb _, k => k == .fault || k == .result
  | .line _ _ _ _ _, k => k == .fault || k == .pixels
  | .hline _ _ _ _, k => k == .fault || k == .pixels
  | .vline _ _ _ _, k => k == .fault || k == .pixels
  | .rect _ _ _ _ _, k => k == .fault || k == .pixels
  | .frect _ _ _ _ _, k => k == .fault || k == .pixels
  | .pbar _ _ _ _ _ _, k => k == .fault || k == .pixels
  | .char _ _ _ _, k => k == .fault || k == .pixels
  | .string _ _ _ _ _, k => k == .fault || k == .pixels
  | .setfont _, k => k == .fault || k == .font
  | .getfont, k => k == .fault || k == .result

/-- The body of an operation is a chain of effects of its kinds. -/
theorem body_effects {s : State} {d : Surface} (hn : s.fault = .none) (hd : s.surf = some d) (i : Instr) :
    Effects (kindsOf i) s (body i d s) := by
  cases i with
  | construct a f => exact raise_effects rfl hn (by simp) (by simp) _
  | destruct => exact .single hn (k := .release) rfl (.release s)
  | setpix x y c => exact plot_effects rfl rfl hn x y c
  | clear c =>
    simp only [body]
    split
    · exact raise_effects rfl hn (by simp) (by simp) _
    · exact fbFill_effects rfl hn hd (by simp)
  | flush => exact flushBytes_effects rfl rfl hd _
  | flushx a => exact withMem_effects rfl hn _ _ fun _ _ => flushBytes_effects rfl rfl hd _
  | loadbmp a =>
    exact withMem_effects rfl hn _ _ fun bs h =>
      fbFill_effects rfl hn hd ((memRead_ok_iff _ _ _ _).1 h).2.1
  | contrast v =>
    exact Effects.andThen (f := fun s => { s with shContrast := some v }) (busCmds_effects rfl s _) fun hn' =>
      .single hn' (k := .contrast) rfl (.contrast _ v)
  | invert e =>
    exact Effects.andThen (f := fun s => { s with shInvert := some e }) (busCmd_effects rfl hn _) fun hn' =>
      .single hn' (k := .invert) rfl (.invert _ e)
  | orient e =>
    exact Effects.andThen (f := fun s => { s with shOrient := some e }) (busCmds_effects rfl s _) fun hn' =>
      .single hn' (k := .orient) rfl (.orient _ e)
  | power e =>
    exact Effects.andThen (f := fun s => { s with pstate := powerTarget e }) (busCmd_effects rfl hn _) fun hn' =>
      .single hn' (k := .power) rfl (.power _ e)
  | getbufsz => exact .single hn (k := .result) rfl (.result s _)
  | getw => exact .single hn (k := .result) rfl (.result s _)
  | geth => exact .single hn (k := .result) rfl (.result s _)
  | rdfb idx =>
    simp only [body]
    split
    · exact .single hn (k := .result) rfl (.result s _)
    · exact raise_effects rfl hn (by simp) (by simp) _
  | line x0 y0 x1 y1 c => exact plotAll_effects rfl rfl s c _
  | hline x y w c => exact plotAll_effects rfl rfl s c _
  | vline x y h c => exact plotAll_effects rfl rfl s c _
  | rect x y w h c => exact plotAll_effects rfl rfl s c _
  | frect x y w h c => exact plotAll_effects rfl rfl s c _
  | pbar x y w h p c => exact plotAll_effects rfl rfl s c _
  | char x y ch c => exact drawGlyph_effects rfl rfl hn x y ch c
  | string x y a len c => exact drawString_effects rfl rfl y c len x _ hn
  | setfont a => exact .single hn (k := .font) rfl (.font s a)
  | getfont =>
    cases hf : s.font with
    | none => simp only [body, hf]; exact raise_effects rfl hn (by simp) (by simp) _
    | some f => simp only [body, hf]; exact .single hn (k := .result) rfl (.result s f)

/-- Bring-up groups 1 to 6 as a chain of effects. -/
theorem bringUpCommands_effects (a : DevAddr) (g : Family) (f : Family) {s : State} (hn : s.fault = .none) :
    Effects (kindsOf (.construct a g)) s (bringUpCommands f s) := by
  refine (busCmd_effects rfl hn _).andThen fun _ => ?_
  refine (busCmds_effects rfl _ _).andThen fun _ => ?_
  refine (busCmds_effects rfl _ _).andThen fun hn => ?_
  refine (Effects.single hn (k := .contrast) rfl (.contrast _ _)).andThen fun _ => ?_
  refine (busCmds_effects rfl _ _).andThen fun hn => ?_
  refine (Effects.single hn (k := .orient) rfl (.orient _ _)).andThen fun _ => ?_
  exact (busCmds_effects rfl _ _).andThen fun hn => busCmd_effects rfl hn _

theorem bringUpCommands_surf (f : Family) (s : State) : (bringUpCommands f s).surf = s.surf := by
  have tr : ∀ {a b c : State}, b.surf = a.surf → c.surf = b.surf → c.surf = a.surf :=
    fun h1 h2 => h2.trans h1
  have R := @andThen_rel (fun s t : State => t.surf = s.surf) tr
  refine R (busSend_surf s _) fun _ => R (busCmds_surf _ _) fun _ => R (busCmds_surf _ _) fun _ => ?_
  refine R rfl fun _ => R (busCmds_surf _ _) fun _ => R rfl fun _ => R (busCmds_surf _ _) fun _ => ?_
  exact busSend_surf _ _

theorem bringUpCommands_fbSize (f : Family) (s : State) (d : Surface) :
    (bringUpCommands f s).fbSize d = s.fbSize d := by
  have h : (bringUpCommands f s).cfg = s.cfg := by
    have tr : ∀ {a b c : State}, b.cfg = a.cfg → c.cfg = b.cfg → c.cfg = a.cfg := fun h1 h2 => h2.trans h1
    have R := @andThen_rel (fun s t : State => t.cfg = s.cfg) tr
    have hb : ∀ (s : State) (bytes : List Byte), (busSend bytes s).cfg = s.cfg := by
      intro s bytes
      cases hd : s.surf with
      | none => rw [busSend_none hd]
      | some d => rcases busSend_cases hd bytes with ⟨_, e⟩ | ⟨_, e⟩ <;> simp [e]
    have hs : ∀ (s : State) (bs : List Byte), (busCmds bs s).cfg = s.cfg := fun s bs =>
      forEach_rel (R := fun s t => t.cfg = s.cfg) (fun _ => rfl) tr (fun _ _ s _ => hb s _) s
    refine R (hb s _) fun _ => R (hs _ _) fun _ => R (hs _ _) fun _ => ?_
    refine R rfl fun _ => R (hs _ _) fun _ => R rfl fun _ => R (hs _ _) fun _ => ?_
    exact hb _ _
  simp [State.fbSize, State.geom, h]

/-- CONSTRUCT as a chain of effects. -/
theorem constructBody_effects {s : State} (hn : s.fault = .none) (hs : s.surf = none) (a : DevAddr)
    (f : Family) : Effects (kindsOf (.construct a f)) s (constructBody a f s) := by
  rw [constructBody, if_neg (by simp [State.alive, hs])]
  by_cases ha : s.allocAnswer = .ok
  · rw [if_pos ha]
    refine .step .allocate hn rfl (.allocate s a f hs) ?_
    refine Effects.andThen ?_ fun hn' => .single hn' (k := .power) rfl (.power _ .on)
    rw [bringUp]
    refine (bringUpCommands_effects a f f (by exact hn)).andThen fun hn2 => ?_
    refine Effects.andThen (fbFill_effects rfl hn2 ?_ (by simp)) fun _ => ?_
    · rw [bringUpCommands_surf]; rfl
    · exact flushBytes_effects rfl rfl rfl _
  · rw [if_neg ha]
    exact .step .allocate hn rfl (.refuse s hs)
      (.single hn (k := .fault) rfl (.fault _ .alloc _ (by simp) (by simp)))

/-- Everything `exec` can do: a chain of effects of the operation's kinds. -/
theorem exec_effects {s t : State} {i : Instr} (h : exec i s = .next t) :
    s.fault = .none ∧ Effects (kindsOf i) s t := by
  obtain ⟨hn, h⟩ := exec_cases h
  refine ⟨hn, ?_⟩
  rcases h with ⟨d, hd, rfl⟩ | ⟨hd, hi, rfl⟩ | ⟨hd, a, f, rfl, rfl⟩
  · exact body_effects hn hd i
  · exact raise_effects (by cases i <;> rfl) hn (by simp) (by simp) _
  · exact constructBody_effects hn hd a f

/-- What `exec` never changes: parameters, XM, the host's words, the index, the scripts. -/
theorem exec_keeps_inputs {s t : State} {i : Instr} (h : exec i s = .next t) :
    t.cfg = s.cfg ∧ t.xm = s.xm ∧ t.pending = s.pending ∧ t.opIndex = s.opIndex ∧
      t.busScript = s.busScript ∧ t.allocScript = s.allocScript := by
  have send : ∀ (s : State) (bytes : List Byte), (busSend bytes s).cfg = s.cfg ∧
      (busSend bytes s).xm = s.xm ∧ (busSend bytes s).pending = s.pending ∧
      (busSend bytes s).opIndex = s.opIndex ∧ (busSend bytes s).busScript = s.busScript ∧
      (busSend bytes s).allocScript = s.allocScript := by
    intro s bytes
    cases hd : s.surf with
    | none => rw [busSend_none hd]; simp
    | some d => rcases busSend_cases hd bytes with ⟨_, e⟩ | ⟨_, e⟩ <;> rw [e] <;> simp
  refine Effects.rel (R := fun s t => t.cfg = s.cfg ∧ t.xm = s.xm ∧ t.pending = s.pending ∧
    t.opIndex = s.opIndex ∧ t.busScript = s.busScript ∧ t.allocScript = s.allocScript)
    (fun s => by simp) (fun h1 h2 => by simp_all) ?_ (exec_effects h).2
  intro k s t hn _ he
  cases he with
  | command _ d b hd => exact send s [0x00, b]
  | data _ d p hd =>
    have := send s (0x40 :: p)
    rw [busData]
    by_cases hf : (busSend (0x40 :: p) s).fault = .none
    · rw [andThen_none hf]; exact this
    · rw [andThen_fault hf]; exact this
  | _ => exact ⟨rfl, rfl, rfl, rfl, rfl, rfl⟩

/-- An operation only appends to the log (R36). -/
theorem exec_buslog {s t : State} {i : Instr} (h : exec i s = .next t) : ∃ l, t.buslog = s.buslog ++ l := by
  have send : ∀ (s : State) (bytes : List Byte), s.buslog <+: (busSend bytes s).buslog := by
    intro s bytes
    cases hd : s.surf with
    | none => rw [busSend_none hd]
    | some d => rcases busSend_cases hd bytes with ⟨_, e⟩ | ⟨_, e⟩ <;> rw [e] <;> exact List.prefix_append _ _
  have key : s.buslog <+: t.buslog := by
    refine Effects.rel (R := fun s t => s.buslog <+: t.buslog) (fun s => List.prefix_refl _)
      (fun h1 h2 => h1.trans h2) ?_ (exec_effects h).2
    intro k s t hn _ he
    cases he with
    | command _ d b hd => exact send s [0x00, b]
    | data _ d p hd =>
      rw [busData]
      by_cases hf : (busSend (0x40 :: p) s).fault = .none
      · rw [andThen_none hf]; exact send s _
      · rw [andThen_fault hf]; exact send s _
    | _ => exact List.prefix_refl _
  obtain ⟨l, e⟩ := key
  exact ⟨l, e.symm⟩

end Sys2Proof.Laws
end

