-- ==== Sys2Proof/Laws/Glyphs.lean ====
section
/-! SUPPORT. Glyphs and strings whose font bytes are defined plot one list of pixels (R222, R225). -/

namespace Sys2Proof.Laws

open Sys2Proof Sys2Proof.Machine

/-! ## Plotting in sequence -/

theorem plotAll_append (c : Colour) (ps qs : List (Int × Int)) (s : State) :
    plotAll c (ps ++ qs) s = andThen (plotAll c ps s) (plotAll c qs) := forEach_append _ ps qs s

/-- The pixel-set leaves XM and the font register as they are (R180). -/
theorem plot_inputs (x y : Int) (c : Colour) (s : State) :
    (plot x y c s).xm = s.xm ∧ (plot x y c s).font = s.font := by
  cases hd : s.surf with
  | none => simp [plot_none hd]
  | some d => rcases plot_cases hd x y c with ⟨_, e⟩ | ⟨_, _, e⟩ | ⟨_, _, e⟩ <;> simp [e]

theorem plotAll_inputs (c : Colour) (ps : List (Int × Int)) (s : State) :
    (plotAll c ps s).xm = s.xm ∧ (plotAll c ps s).font = s.font :=
  forEach_rel (R := fun s t => t.xm = s.xm ∧ t.font = s.font) (fun _ => ⟨rfl, rfl⟩)
    (fun h1 h2 => ⟨h2.1.trans h1.1, h2.2.trans h1.2⟩) (fun p _ s _ => plot_inputs p.1 p.2 c s) s

/-- A loop each step of which plots a list of pixels plots those lists in sequence. -/
theorem forEach_plots {α : Type} {f : α → State → State} {P : α → List (Int × Int)} {c : Colour} {s : State}
    {as : List α}
    (hf : ∀ a ∈ as, ∀ t : State, t.xm = s.xm → t.font = s.font → f a t = plotAll c (P a) t) :
    forEach f as s = plotAll c (as.flatMap P) s := by
  induction as generalizing s with
  | nil => rfl
  | cons a as ih =>
    rw [List.flatMap_cons, plotAll_append, forEach]
    by_cases h : s.fault = .none
    · obtain ⟨h1, h2⟩ := plotAll_inputs c (P a) s
      rw [andThen_none h, hf a List.mem_cons_self s rfl rfl,
        ih fun b hb t ht1 ht2 => hf b (List.mem_cons_of_mem _ hb) t (ht1.trans h1) (ht2.trans h2)]
      by_cases h3 : (plotAll c (P a) s).fault = .none
      · rw [andThen_none h3]
      · rw [andThen_fault h3]
        exact forEach_fault _ h3 _
    · have e : plotAll c (P a) s = s := forEach_fault _ h _
      rw [andThen_fault h, e, andThen_fault h]

/-! ## Reading XM -/

theorem xmHolds_append {xm : Memory} {a : Nat} {bs bs' : List Byte} :
    xmHolds xm a (bs ++ bs') ↔ xmHolds xm a bs ∧ xmHolds xm (a + bs.length) bs' := by
  simp only [xmHolds, List.length_append]
  constructor
  · refine fun h => ⟨fun i hi => ?_, fun i hi => ?_⟩
    · simpa [List.getElem?_append_left hi] using h i (by omega)
    · have := h (bs.length + i) (by omega)
      rwa [List.getElem?_append_right (by omega), Nat.add_sub_cancel_left, ← Nat.add_assoc] at this
  · rintro ⟨h1, h2⟩ i hi
    by_cases hl : i < bs.length
    · simpa [List.getElem?_append_left hl] using h1 i hl
    · have := h2 (i - bs.length) (by omega)
      rw [show a + bs.length + (i - bs.length) = a + i by omega] at this
      rwa [List.getElem?_append_right (by omega)]

theorem xmHolds_one {xm : Memory} {a : Nat} {b : Byte} :
    xmHolds xm a [b] ↔ a < 2 ^ 32 ∧ xm.read a = some b := by
  refine ⟨fun h => by simpa using h 0 (by simp), fun h i hi => ?_⟩
  obtain rfl : i = 0 := by simpa using hi
  simpa using h

theorem memRead_holds {xm : Memory} {a : Nat} {bs : List Byte} (ha : a < 2 ^ 32) (h : xmHolds xm a bs) :
    memRead xm a bs.length = .ok bs := by
  refine (memRead_ok_iff xm a _ bs).2 ⟨?_, rfl, fun i hi => (h i hi).2⟩
  by_cases hb : bs.length = 0
  · omega
  · have := (h (bs.length - 1) (by omega)).1
    omega

/-- The detail of `F_EXT_READ` for a byte at address `a` (R252). -/
def extInfo (a : Nat) : BitVec 32 := if a < 2 ^ 32 then BitVec.ofNat 32 a else 0xFFFFFFFF

theorem firstUndefined_one {xm : Memory} {a : Nat} (ha : a < 2 ^ 32) (h : xm.read a = none) (n : Nat) :
    firstUndefined xm a (n + 1) = some a := by
  simp [firstUndefined, List.range_succ_eq_map, h, show a < 4294967296 from ha]

/-- One XM byte that is undefined or past the top (R60, R252). -/
theorem memRead_one_error {xm : Memory} {a : Nat} (h : a < 2 ^ 32 → xm.read a = none) :
    memRead xm a 1 = .error (extInfo a) := by
  by_cases ha : a < 2 ^ 32
  · rw [memRead, if_neg (by omega), firstUndefined_one ha (h ha), extInfo, if_pos ha]
  · have : firstUndefined xm a 1 = none := by
      simp [firstUndefined, show ¬ a < 4294967296 from ha]
    rw [memRead, if_pos (by omega), this, extInfo, if_neg ha]

/-- A font header whose first byte is undefined, or whose second byte is and the first is not (R221, R252). -/
theorem memRead_header_error {xm : Memory} {a k : Nat} (ha : a < 2 ^ 32)
    (hk : k = 0 ∨ (k = 1 ∧ (xm.read a).isSome = true)) (h : a + k < 2 ^ 32 → xm.read (a + k) = none) :
    memRead xm a 2 = .error (extInfo (a + k)) := by
  rcases hk with rfl | ⟨rfl, h0⟩
  · change memRead xm a (1 + 1) = .error (extInfo a)
    rw [memRead, firstUndefined_one ha (h ha), show extInfo a = BitVec.ofNat 32 a from if_pos ha]
    by_cases ht : 2 ^ 32 < a + 2
    · obtain rfl : a = 0xFFFFFFFF := by omega
      simp
    · rw [if_neg ht]
  · have h1 : xm.read a ≠ none := Option.isSome_iff_ne_none.1 h0
    by_cases ht : a + 1 < 2 ^ 32
    · have : firstUndefined xm a 2 = some (a + 1) := by
        simp [firstUndefined, List.range_succ_eq_map, h0, h ht, show a + 1 < 4294967296 from ht]
      rw [memRead, if_neg (by omega), this, extInfo, if_pos ht]
    · have : firstUndefined xm a 2 = none := by
        simp [firstUndefined, List.range_succ_eq_map, h1, show ¬ a + 1 < 4294967296 from ht]
      rw [memRead, if_pos (by omega), this, extInfo, if_neg ht]

theorem withMem_one {s : State} {a : Nat} {b : Byte} (h : xmHolds s.xm a [b])
    (k : List Byte → State → State) : withMem a 1 k s = k [b] s :=
  withMem_ok (memRead_one (xmHolds_one.1 h).1 (xmHolds_one.1 h).2) k

/-- GlyphParams of a font whose header is defined (R221). -/
theorem withGlyphParams_eq {s : State} {f : XAddr} {H W : Byte} (hf : s.font = some f)
    (h : xmHolds s.xm f.toNat [H, W]) (k : Nat → Nat → Nat → State → State) :
    withGlyphParams k s = k f.toNat H.toNat W.toNat s := by
  simp only [withGlyphParams, hf]
  exact withMem_ok (memRead_holds f.isLt h) _

theorem printable_iff {ch : Nat} : printable ch = true ↔ 0x20 ≤ ch ∧ ch ≤ 0x7E := by simp [printable]

/-! ## Glyphs -/

theorem glyphPixels_eq (x y : Int) (H : Nat) (cols : List Byte) :
    glyphPixels x y H cols = (List.range cols.length).flatMap fun i : Nat =>
      columnPixels (x + (i : Int)) y H (cols.getD i 0) := by
  have : cols.zipIdx = (List.range cols.length).map fun i => (cols.getD i 0, i) := by
    apply List.ext_getElem
    · simp
    · intro i h1 h2
      have hi : i < cols.length := by simpa using h1
      simp [hi]
  rw [glyphPixels, this, List.flatMap_map]

/-- The columns of a glyph whose bytes are defined (R222). -/
theorem drawColumns_eq {s : State} (x y : Int) (c : Colour) (H : Nat) {base : Nat} {cols : List Byte}
    (h : xmHolds s.xm base cols) :
    forEach (drawColumn x y c H base) (List.range cols.length) s = plotAll c (glyphPixels x y H cols) s := by
  rw [glyphPixels_eq]
  refine forEach_plots fun i hi t ht _ => ?_
  have hi : i < cols.length := by simpa using hi
  have hb : xmHolds t.xm (base + i) [cols.getD i 0] := by
    rw [ht]; exact xmHolds_one.2 (by simpa [hi] using h i hi)
  exact withMem_one hb _

/-- The first columns of a glyph, then the rest of the loop (R222). -/
theorem drawColumns_append {s : State} (x y : Int) (c : Colour) (H : Nat) {base W : Nat} {cols : List Byte}
    (h : xmHolds s.xm base cols) (hl : cols.length ≤ W) :
    forEach (drawColumn x y c H base) (List.range W) s = andThen (plotAll c (glyphPixels x y H cols) s)
      (forEach (drawColumn x y c H base) (List.range' cols.length (W - cols.length))) := by
  have e : List.range W = List.range cols.length ++ List.range' cols.length (W - cols.length) := by
    rw [List.range_eq_range', List.range_eq_range', show List.range' cols.length (W - cols.length) =
      List.range' (0 + cols.length) (W - cols.length) by rw [Nat.zero_add], List.range'_append_1]
    congr 1
    omega
  rw [e, forEach_append, drawColumns_eq x y c H h]

/-- A supported code: its first columns, then the rest of the loop (R222, R224). -/
theorem drawGlyph_append {s : State} (x y : Int) {ch : Nat} (c : Colour) {f : XAddr} {H W : Byte}
    {cols : List Byte} (hp : printable ch = true) (hf : s.font = some f) (h : xmHolds s.xm f.toNat [H, W])
    (hl : cols.length ≤ W.toNat) (hc : xmHolds s.xm (glyphBase f.toNat W.toNat ch) cols) :
    drawGlyph x y ch c s = andThen (plotAll c (glyphPixels x y H.toNat cols) s)
      (forEach (drawColumn x y c H.toNat (glyphBase f.toNat W.toNat ch))
        (List.range' cols.length (W.toNat - cols.length))) := by
  rw [drawGlyph, if_pos hp, withGlyphParams_eq hf h]
  exact drawColumns_append x y c H.toNat hc hl

/-- A supported code whose header and column bytes are defined (R222, R224). -/
theorem drawGlyph_eq {s : State} (x y : Int) {ch : Nat} (c : Colour) {f : XAddr} {H W : Byte} {cols : List Byte}
    (hp : printable ch = true) (hf : s.font = some f) (h : xmHolds s.xm f.toNat [H, W])
    (hl : cols.length = W.toNat) (hc : xmHolds s.xm (glyphBase f.toNat W.toNat ch) cols) :
    drawGlyph x y ch c s = plotAll c (glyphPixels x y H.toNat cols) s := by
  rw [drawGlyph, if_pos hp, withGlyphParams_eq hf h, ← hl]
  exact drawColumns_eq x y c H.toNat (hl ▸ hc)

/-! ## Strings -/

theorem fontHolds_cons {s : State} {f : XAddr} {H W : Byte} {glyph : Nat → List Byte} {b : Byte}
    {str : List Byte} (h : fontHolds s f H W glyph (b :: str)) : fontHolds s f H W glyph str :=
  ⟨h.1, h.2.1, fun b' hb => h.2.2 b' (List.mem_cons_of_mem _ hb)⟩

/-- Plotting keeps what the font holds (R180). -/
theorem fontHolds_plotAll {s : State} {f : XAddr} {H W : Byte} {glyph : Nat → List Byte} {str : List Byte}
    (h : fontHolds s f H W glyph str) (c : Colour) (ps : List (Int × Int)) :
    fontHolds (plotAll c ps s) f H W glyph str := by
  obtain ⟨h1, h2⟩ := plotAll_inputs c ps s
  rw [fontHolds, h1, h2]
  exact h

/-- The first characters of a string, their header and glyphs defined, then the rest of the loop (R225). -/
theorem drawString_append {s : State} (hn : s.fault = .none) (y : Int) (c : Colour) {f : XAddr} {H W : Byte}
    {glyph : Nat → List Byte} {str : List Byte} (hf : fontHolds s f H W glyph str) {a : Nat} (x : Int)
    (hs : xmHolds s.xm a str) (n : Nat) :
    drawString y c (str.length + n) x a s =
      andThen (plotAll c (stringPixels y H.toNat W.toNat glyph (str.map BitVec.toNat) x) s)
        (drawString y c n (x + str.length * (W.toNat + 1)) (a + str.length)) := by
  induction str generalizing s x a with
  | nil => simp [stringPixels, plotAll, andThen_none hn]
  | cons b str ih =>
    obtain ⟨hb, hs'⟩ := (xmHolds_append (bs := [b])).1 hs
    rw [List.length_cons, Nat.add_right_comm, drawString, withMem_one hb, List.map_cons, stringPixels,
      plotAll_append, andThen_andThen]
    have e : drawGlyph x y (([b] : List Byte).getD 0 0).toNat c s = plotAll c
        (if 0x20 ≤ b.toNat ∧ b.toNat ≤ 0x7E then glyphPixels x y H.toNat (glyph b.toNat) else []) s := by
      by_cases hp : 0x20 ≤ b.toNat ∧ b.toNat ≤ 0x7E
      · obtain ⟨h2, h3⟩ := hf.2.2 b List.mem_cons_self hp.1 hp.2
        rw [if_pos hp]
        exact drawGlyph_eq x y c (printable_iff.2 hp) hf.1 hf.2.1 h2 h3
      · rw [if_neg hp]
        exact if_neg (fun h => hp (printable_iff.1 h))
    rw [e]
    refine andThen_congr fun hn' => ?_
    have hf' := fontHolds_plotAll hf c
      (if 0x20 ≤ b.toNat ∧ b.toNat ≤ 0x7E then glyphPixels x y H.toNat (glyph b.toNat) else [])
    rw [withGlyphParams_eq hf'.1 hf'.2.1, ih hn' (fontHolds_cons hf') _ ((plotAll_inputs c _ s).1 ▸ hs')]
    congr 2
    · push_cast; ring
    · exact Nat.add_right_comm a 1 str.length

/-- A string whose characters, header and glyphs are defined (R225). -/
theorem drawString_eq {s : State} (hn : s.fault = .none) (y : Int) (c : Colour) {f : XAddr} {H W : Byte}
    {glyph : Nat → List Byte} {str : List Byte} (hf : fontHolds s f H W glyph str) {a : Nat} (x : Int)
    (hs : xmHolds s.xm a str) :
    drawString y c str.length x a s =
      plotAll c (stringPixels y H.toNat W.toNat glyph (str.map BitVec.toNat) x) s := by
  rw [← Nat.add_zero str.length, drawString_append hn y c hf x hs 0]
  simp only [andThen, drawString, ite_self]

/-! ## CHAR and STRING part-way -/

theorem andThen_id (s : State) : andThen s id = s := ite_self s

/-- CHAR and STRING within a glyph: the pixels up to there, then the other columns, then the rest (R222, R225). -/
theorem body_of_drawsColumns {s : State} {i : Instr} {c : Colour} {ps : List (Int × Int)} {ch W : Nat} {f : XAddr}
    {cols : List Byte} (hn : s.fault = .none) (h : DrawsColumns s i c ps ch f W cols) (d : Surface) :
    ∃ (x y : Int) (H : Nat) (k : State → State), body i d s = andThen (plotAll c ps s) fun t =>
      andThen (forEach (drawColumn x y c H (glyphBase f.toNat W ch)) (List.range' cols.length (W - cols.length)) t)
        k := by
  obtain ⟨code, low, high, font, within, bytes⟩ := h
  rename_i x y before H W glyph
  have hp : printable ch = true := printable_iff.2 ⟨low, high⟩
  cases code with
  | char =>
    refine ⟨x, y, H.toNat, id, ?_⟩
    simp only [body, andThen_id, List.map_nil, stringPixels, List.nil_append, List.length_nil, Nat.cast_zero,
      zero_mul, add_zero]
    exact drawGlyph_append x y c hp font.1 font.2.1 within bytes
  | @string _ _ addr len _ _ b more held =>
    obtain ⟨held, hb⟩ := xmHolds_append.1 held
    obtain ⟨n, rfl⟩ : ∃ n, len = before.length + (n + 1) := ⟨len - before.length - 1, by omega⟩
    refine ⟨x + before.length * (W.toNat + 1), y, H.toNat, withGlyphParams fun _ _ W' =>
      drawString y c n (x + before.length * (W.toNat + 1) + W' + 1) (addr.toNat + before.length + 1), ?_⟩
    simp only [body]
    rw [drawString_append hn y c font x held, plotAll_append, andThen_andThen]
    refine andThen_congr fun _ => ?_
    obtain ⟨e1, e2⟩ := plotAll_inputs c (stringPixels y H.toNat W.toNat glyph (before.map BitVec.toNat) x) s
    rw [drawString, withMem_one (e1 ▸ hb), ← andThen_andThen]
    congr 1
    exact drawGlyph_append _ y c hp (e2.trans font.1) (e1 ▸ font.2.1) within (e1 ▸ bytes)

/-- CHAR and STRING at a byte XM does not hold: the pixels before it, then `F_EXT_READ` (R222, R225, R257). -/
theorem body_of_textReads {s : State} {i : Instr} {c : Colour} {ps : List (Int × Int)} {a : Nat}
    (hn : s.fault = .none) (h : TextReads s i c ps a) (hu : a < 2 ^ 32 → s.xm.read a = none) (d : Surface) :
    body i d s = andThen (plotAll c ps s) (raise .extRead (extInfo a)) := by
  cases h with
  | @stringByte x y addr len _ before f H W glyph more bytes font =>
    obtain ⟨n, rfl⟩ : ∃ n, len = before.length + (n + 1) := ⟨len - before.length - 1, by omega⟩
    have key : ∀ (x : Int) (t : State), t.xm = s.xm → drawString y c (n + 1) x (addr.toNat + before.length) t =
        raise .extRead (extInfo (addr.toNat + before.length)) t := fun x t e => by
      rw [drawString]
      exact withMem_error (memRead_one_error (e ▸ hu)) _
    by_cases hb : before = []
    · subst hb
      simp only [body, List.length_nil, Nat.zero_add, Nat.add_zero, List.map_nil, stringPixels]
      exact (key x s rfl).trans (andThen_none hn _).symm
    · simp only [body]
      rw [drawString_append hn y c (font hb) x bytes]
      exact andThen_congr fun _ => key _ _ (plotAll_inputs c _ s).1
  | @header _ x y _ ch f k code needed font byte =>
    have key : ∀ g, withGlyphParams g s = raise .extRead (extInfo (f.toNat + k)) s := fun g => by
      simp only [withGlyphParams, font]
      exact withMem_error (memRead_header_error f.isLt byte hu) _
    refine Eq.trans ?_ (andThen_none hn _).symm
    cases code with
    | char =>
      obtain hp | ⟨_, _, he⟩ := needed
      · simp only [body]
        rw [drawGlyph, if_pos (printable_iff.2 hp), key]
      · cases he
    | @string _ _ addr len _ _ b more held =>
      obtain ⟨n, rfl⟩ : ∃ n, len = n + 1 := ⟨len - 1, by simp only [List.length_nil] at more; omega⟩
      simp only [body, drawString]
      rw [withMem_one held]
      by_cases hp : printable b.toNat = true
      · rw [show drawGlyph x y (([b] : List Byte).getD 0 0).toNat c s = _ from (if_pos hp).trans (key _),
          andThen_fault (by simp)]
      · rw [show drawGlyph x y (([b] : List Byte).getD 0 0).toNat c s = s from if_neg hp, andThen_none hn, key]
  | @column _ _ _ ch W f cols columns more =>
    obtain ⟨x, y, H, k, e⟩ := body_of_drawsColumns hn columns d
    rw [e]
    refine andThen_congr fun hn' => ?_
    have hr : List.range' cols.length (W - cols.length) =
        cols.length :: List.range' (cols.length + 1) (W - cols.length - 1) := by
      rw [show W - cols.length = W - cols.length - 1 + 1 by omega, List.range'_succ, Nat.add_sub_cancel]
    rw [hr, forEach_cons _ hn', drawColumn, withMem_error (memRead_one_error ?_),
      forEach_fault _ (by simp), andThen_fault (by simp)]
    · rfl
    · rw [(plotAll_inputs c ps s).1]
      exact hu

end Sys2Proof.Laws
end

