-- ==== Sys2Proof/Laws/Lines.lean ====
section
/-! SUPPORT. What the loop of LINE visits (R181, R182). -/

namespace Sys2Proof.Laws

open Sys2Proof Sys2Proof.Machine

@[simp] theorem length_lineLoop (steep : Bool) (dx dy ystep : Int) (n : Nat) (x y err : Int) :
    (lineLoop steep dx dy ystep n x y err).length = n := by
  induction n generalizing x y err with
  | zero => rfl
  | succ n ih => simp only [lineLoop, List.length_cons]; split <;> rw [ih]

/-- A point in the axes of LINE's loop, put back into columns and rows. -/
def unswap (steep : Bool) (p : Int × Int) : Int × Int := if steep then (p.2, p.1) else p

theorem unswap_inj {steep : Bool} {p q : Int × Int} (h : unswap steep p = unswap steep q) : p = q := by
  cases steep <;> simp_all [unswap, Prod.ext_iff]

/-- Iteration `i` of the loop: the error term stays in `[0, dx)`, so the minor axis has moved
`ceil((i*dy - err) / dx)` times. -/
theorem lineLoop_get {steep : Bool} {dx dy ystep : Int} (hdy : 0 ≤ dy) (hle : dy ≤ dx) {n : Nat}
    {x y err : Int} (h0 : 0 ≤ err) (h1 : err < dx) {i : Nat} (hi : i < n) :
    (lineLoop steep dx dy ystep n x y err)[i]? =
      some (unswap steep (x + i, y + ystep * -((err - i * dy) / dx))) := by
  induction n generalizing x y err i with
  | zero => omega
  | succ n ih =>
    cases i with
    | zero =>
      simp [lineLoop, unswap, Int.ediv_eq_zero_of_lt h0 h1]
    | succ i =>
      rw [lineLoop, List.getElem?_cons_succ]
      split
      · rename_i hs
        rw [ih (by omega) (by omega) (by omega)]
        have e : (err - dy + dx - i * dy) / dx = (err - (i + 1 : Nat) * dy) / dx + 1 := by
          rw [show err - dy + dx - i * dy = (err - (i + 1 : Nat) * dy) + 1 * dx by push_cast; ring,
            Int.add_mul_ediv_right _ _ (by omega)]
        rw [e]
        congr 3
        · push_cast; ring
        · ring
      · rename_i hs
        rw [ih (by omega) (by omega) (by omega)]
        congr 3
        · push_cast; ring
        · rw [show err - dy - i * dy = err - (i + 1 : Nat) * dy by push_cast; ring]

/-- The pixels of a line from major-axis endpoints in left-to-right order. -/
theorem lineFrom_get {steep : Bool} {x0 y0 x1 y1 : Int} (hx : x0 < x1) (hy : |y1 - y0| ≤ x1 - x0) {i : Nat}
    (hi : i < (x1 - x0).toNat + 1) :
    (lineFrom steep x0 y0 x1 y1)[i]? = some (unswap steep (x0 + i,
      y0 + (if y1 ≥ y0 then 1 else -1) * -(((x1 - x0) / 2 - i * |y1 - y0|) / (x1 - x0)))) :=
  lineLoop_get (abs_nonneg _) hy (by omega) (by omega) hi

@[simp] theorem length_lineFrom (steep : Bool) (x0 y0 x1 y1 : Int) :
    (lineFrom steep x0 y0 x1 y1).length = (x1 - x0).toNat + 1 := length_lineLoop _ _ _ _ _ _ _ _

/-- A line of one pixel. -/
theorem lineFrom_self (steep : Bool) (x y0 y1 : Int) :
    lineFrom steep x y0 x y1 = [unswap steep (x, y0)] := by
  simp [lineFrom, lineLoop, unswap]

/-- Along the major axis, position `i` of a line holds the `i`-th coordinate. -/
theorem lineFrom_major {steep : Bool} {x0 y0 x1 y1 : Int} (hx : x0 ≤ x1) (hy : |y1 - y0| ≤ x1 - x0) {i : Nat}
    (hi : i < (x1 - x0).toNat + 1) :
    ∃ m, (lineFrom steep x0 y0 x1 y1)[i]? = some (unswap steep (x0 + i, m)) := by
  by_cases h : x0 = x1
  · subst h
    have : i = 0 := by omega
    subst this
    exact ⟨y0, by simp [lineFrom_self]⟩
  · exact ⟨_, lineFrom_get (by omega) hy hi⟩

theorem lineFrom_nodup {steep : Bool} {x0 y0 x1 y1 : Int} (hx : x0 ≤ x1) (hy : |y1 - y0| ≤ x1 - x0) :
    (lineFrom steep x0 y0 x1 y1).Nodup := by
  rw [List.nodup_iff_getElem?_ne_getElem?]
  intro i j hij hj he
  rw [length_lineFrom] at hj
  obtain ⟨m, hm⟩ := lineFrom_major (steep := steep) hx hy (Nat.lt_trans hij hj)
  obtain ⟨k, hk⟩ := lineFrom_major (steep := steep) hx hy hj
  rw [hm, hk] at he
  have := unswap_inj (Option.some.inj he)
  simp only [Prod.mk.injEq] at this
  omega

/-- A line along the major axis. -/
theorem lineFrom_flat {steep : Bool} {x0 x1 y : Int} (hx : x0 ≤ x1) :
    lineFrom steep x0 y x1 y = (List.range ((x1 - x0).toNat + 1)).map fun i : Nat =>
      unswap steep (x0 + (i : Int), y) := by
  apply List.ext_getElem?
  intro i
  by_cases hi : i < (x1 - x0).toNat + 1
  · by_cases h : x0 = x1
    · subst h
      have : i = 0 := by omega
      subst this
      simp [lineFrom_self]
    · rw [lineFrom_get (by omega) (by simpa using hx) hi]
      have : (x1 - x0) / 2 / (x1 - x0) = 0 := Int.ediv_eq_zero_of_lt (by omega) (by omega)
      simp [hi, this]
  · rw [List.getElem?_eq_none (by rw [length_lineFrom]; omega), List.getElem?_eq_none (by simp; omega)]

end Sys2Proof.Laws
end

