-- ==== Sys2Proof/Laws/Words.lean ====
section
/-! SUPPORT. Words, fields and bytes: splitting and joining are inverse, and the operand codings are. -/

namespace Sys2Proof.Laws

open Sys2Proof

/-! ## Fields of a word -/

theorem extract_append_high {n m : Nat} (x : BitVec n) (y : BitVec m) (i k : Nat) :
    (x ++ y).extractLsb' (m + i) k = x.extractLsb' i k := by
  ext j hj
  simp only [BitVec.getElem_extractLsb', BitVec.getLsbD_append]
  rw [if_neg (by omega)]
  congr 1
  omega

theorem extract_append_low {n m : Nat} (x : BitVec n) (y : BitVec m) :
    (x ++ y).extractLsb' 0 m = y := by
  ext j hj
  simp [BitVec.getElem_extractLsb', BitVec.getLsbD_append, hj]

theorem extract_all {n : Nat} (x : BitVec n) : x.extractLsb' 0 n = x := by
  ext j hj
  simp

/-- The fields of a joined word are the fields (R81). -/
@[simp] theorem split_join (f : Fields) : splitWord (joinFields f) = f := by
  obtain ⟨opc, mod, a, b, c, d, e, addr⟩ := f
  simp only [splitWord, joinFields, Fields.mk.injEq]
  refine ⟨extract_append_low _ _, ?_, ?_, ?_, ?_, ?_, ?_, ?_⟩
  · exact (extract_append_high _ _ 0 8).trans (extract_append_low _ _)
  · exact (extract_append_high _ _ 8 16).trans <| (extract_append_high _ _ 0 16).trans <|
      extract_append_low _ _
  · exact (extract_append_high _ _ 24 16).trans <| (extract_append_high _ _ 16 16).trans <|
      (extract_append_high _ _ 0 16).trans <| extract_append_low _ _
  · exact (extract_append_high _ _ 40 16).trans <| (extract_append_high _ _ 32 16).trans <|
      (extract_append_high _ _ 16 16).trans <| (extract_append_high _ _ 0 16).trans <|
      extract_append_low _ _
  · exact (extract_append_high _ _ 56 16).trans <| (extract_append_high _ _ 48 16).trans <|
      (extract_append_high _ _ 32 16).trans <| (extract_append_high _ _ 16 16).trans <|
      (extract_append_high _ _ 0 16).trans <| extract_append_low _ _
  · exact (extract_append_high _ _ 72 16).trans <| (extract_append_high _ _ 64 16).trans <|
      (extract_append_high _ _ 48 16).trans <| (extract_append_high _ _ 32 16).trans <|
      (extract_append_high _ _ 16 16).trans <| (extract_append_high _ _ 0 16).trans <|
      extract_append_low _ _
  · exact (extract_append_high _ _ 88 32).trans <| (extract_append_high _ _ 80 32).trans <|
      (extract_append_high _ _ 64 32).trans <| (extract_append_high _ _ 48 32).trans <|
      (extract_append_high _ _ 32 32).trans <| (extract_append_high _ _ 16 32).trans <|
      (extract_append_high _ _ 0 32).trans <| extract_all _

/-- A word is the join of its fields (R81). -/
@[simp] theorem join_split (w : Word) : joinFields (splitWord w) = w := by
  apply BitVec.eq_of_getLsbD_eq
  intro i hi
  simp only [splitWord, joinFields, BitVec.getLsbD_append, BitVec.getLsbD_extractLsb']
  by_cases h1 : i < 8
  · simp [h1]
  by_cases h2 : i - 8 < 8
  · simp [h1, h2]; congr 1; omega
  by_cases h3 : i - 8 - 8 < 16
  · simp [h1, h2, h3]; congr 1; omega
  by_cases h4 : i - 8 - 8 - 16 < 16
  · simp [h1, h2, h3, h4]; congr 1; omega
  by_cases h5 : i - 8 - 8 - 16 - 16 < 16
  · simp [h1, h2, h3, h4, h5]; congr 1; omega
  by_cases h6 : i - 8 - 8 - 16 - 16 - 16 < 16
  · simp [h1, h2, h3, h4, h5, h6]; congr 1; omega
  by_cases h7 : i - 8 - 8 - 16 - 16 - 16 - 16 < 16
  · simp [h1, h2, h3, h4, h5, h6, h7]; congr 1; omega
  have h8 : i - 8 - 8 - 16 - 16 - 16 - 16 - 16 < 32 := by omega
  simp [h1, h2, h3, h4, h5, h6, h7, h8]; congr 1; omega

theorem joinFields_inj {f g : Fields} (h : joinFields f = joinFields g) : f = g := by
  have := congrArg splitWord h
  simpa using this

/-- The bitwise and of two field lists. -/
def Fields.and (f g : Fields) : Fields :=
  ⟨f.opc &&& g.opc, f.mod &&& g.mod, f.a &&& g.a, f.b &&& g.b, f.c &&& g.c, f.d &&& g.d, f.e &&& g.e,
    f.addr &&& g.addr⟩

theorem joinFields_and (f g : Fields) : joinFields f &&& joinFields g = joinFields (Fields.and f g) := by
  have aux : ∀ {n m : Nat} (x u : BitVec n) (y v : BitVec m),
      (x ++ y) &&& (u ++ v) = (x &&& u) ++ (y &&& v) := fun _ _ _ _ => BitVec.and_append
  refine (aux _ _ _ _).trans (congrArg (· ++ _) ?_)
  refine (aux _ _ _ _).trans (congrArg (· ++ _) ?_)
  refine (aux _ _ _ _).trans (congrArg (· ++ _) ?_)
  refine (aux _ _ _ _).trans (congrArg (· ++ _) ?_)
  refine (aux _ _ _ _).trans (congrArg (· ++ _) ?_)
  refine (aux _ _ _ _).trans (congrArg (· ++ _) ?_)
  exact aux _ _ _ _

/-- A mask test on a word is a mask test on each field. -/
theorem joinFields_mask (f : Fields) (m v : Word) :
    joinFields f &&& m = v ↔ Fields.and f (splitWord m) = splitWord v := by
  conv_lhs => rw [← join_split m, ← join_split v, joinFields_and]
  exact ⟨joinFields_inj, fun h => by rw [h]⟩

/-! ## Operand codings -/

@[simp] theorem colourOf_code (c : Colour) : colourOf (colourCode c) = some c := by cases c <;> rfl
@[simp] theorem invertOf_code (e : InvertMode) : invertOf (invertCode e) = some e := by cases e <;> rfl
@[simp] theorem orientOf_code (e : Orientation) : orientOf (orientCode e) = some e := by cases e <;> rfl
@[simp] theorem powerOf_code (e : PowerArg) : powerOf (powerCode e) = some e := by cases e <;> rfl
@[simp] theorem familyOf_code (f : Family) : familyOf (familyCode f) = f := by cases f <;> rfl

theorem code_of_colourOf {m : Byte} {c : Colour} (h : colourOf m = some c) : colourCode c = m := by
  revert c; revert m; decide
theorem code_of_invertOf {m : Byte} {e : InvertMode} (h : invertOf m = some e) : invertCode e = m := by
  revert e; revert m; decide
theorem code_of_orientOf {m : Byte} {e : Orientation} (h : orientOf m = some e) : orientCode e = m := by
  revert e; revert m; decide
theorem code_of_powerOf {m : Byte} {e : PowerArg} (h : powerOf m = some e) : powerCode e = m := by
  revert e; revert m; decide

theorem code_of_familyOf (b : BitVec 1) : familyCode (familyOf b) = b := by
  revert b; decide

/-- A signed operand in range survives its field (R84). -/
theorem sext16_field16 {v : Int} (h : fitsS16 v = true) : sext16 (field16 v) = v := by
  simp only [fitsS16, Bool.and_eq_true, decide_eq_true_eq] at h
  rw [sext16, field16, BitVec.toInt_ofInt, Int.bmod_eq_of_le] <;> omega

@[simp] theorem field16_sext16 (v : BitVec 16) : field16 (sext16 v) = v := by
  simp [field16, sext16]

theorem fitsS16_sext16 (v : BitVec 16) : fitsS16 (sext16 v) = true := by
  have h1 := BitVec.toInt_lt (x := v)
  have h2 := BitVec.le_toInt (x := v)
  exact Bool.and_eq_true_iff.2 ⟨decide_eq_true (by rw [sext16]; omega), decide_eq_true (by
    rw [sext16]; omega)⟩

/-! ## Bytes of a word -/

theorem natOfBytes_lt (bs : List Byte) : natOfBytes bs < 256 ^ bs.length := by
  induction bs with
  | nil => simp [natOfBytes]
  | cons b bs ih =>
    have hb := b.isLt
    simp only [natOfBytes, List.length_cons, pow_succ]
    omega

/-- Byte `k` of the little-endian reading (R80). -/
theorem natOfBytes_byte (bs : List Byte) (k : Nat) :
    natOfBytes bs / 256 ^ k % 256 = (bs[k]?.getD 0).toNat := by
  induction bs generalizing k with
  | nil => simp [natOfBytes]
  | cons b bs ih =>
    have hb : b.toNat < 256 := b.isLt
    cases k with
    | zero => simp only [natOfBytes, pow_zero, List.getElem?_cons_zero, Option.getD_some]; omega
    | succ k =>
      rw [pow_succ, Nat.mul_comm, ← Nat.div_div_eq_div_mul]
      simp only [natOfBytes, List.getElem?_cons_succ]
      rw [← ih k]
      congr 2
      omega

/-- `W[8k+7 : 8k] = b[k]` (R80). -/
theorem wordOfBytes_byte {bs : List Byte} {w : Word} (h : wordOfBytes bs = some w) (k : Nat) :
    w.extractLsb' (8 * k) 8 = bs[k]?.getD 0 := by
  simp only [wordOfBytes] at h
  split at h
  · rename_i hl
    cases h
    apply BitVec.eq_of_toNat_eq
    have h0 := natOfBytes_lt bs
    rw [hl] at h0
    have e : (256 : Nat) ^ 16 = 2 ^ 128 := by norm_num
    rw [e] at h0
    rw [BitVec.extractLsb'_toNat, BitVec.toNat_ofNat, Nat.mod_eq_of_lt h0, Nat.shiftRight_eq_div_pow,
      pow_mul]
    exact natOfBytes_byte bs k
  · cases h

theorem wordOfBytes_isSome (bs : List Byte) : (wordOfBytes bs).isSome = true ↔ bs.length = 16 := by
  simp only [wordOfBytes]
  split <;> simp [*]

@[simp] theorem length_bytesOfWord (w : Word) : (bytesOfWord w).length = 16 := by simp [bytesOfWord]

theorem word_ext_bytes {w w' : Word}
    (h : ∀ k, k < 16 → w.extractLsb' (8 * k) 8 = w'.extractLsb' (8 * k) 8) : w = w' := by
  apply BitVec.eq_of_getLsbD_eq
  intro i hi
  have h1 := congrArg (fun b => b.getLsbD (i % 8)) (h (i / 8) (by omega))
  have h2 : i % 8 < 8 := Nat.mod_lt _ (by omega)
  simp only [BitVec.getLsbD_extractLsb', h2, decide_true, Bool.true_and] at h1
  rwa [show 8 * (i / 8) + i % 8 = i by omega] at h1

/-- The bytes of a word read back give the word (R80). -/
@[simp] theorem wordOfBytes_bytesOfWord (w : Word) : wordOfBytes (bytesOfWord w) = some w := by
  obtain ⟨v, hv⟩ := Option.isSome_iff_exists.1 ((wordOfBytes_isSome _).2 (length_bytesOfWord w))
  rw [hv]
  congr 1
  refine word_ext_bytes fun k hk => ?_
  rw [wordOfBytes_byte hv k]
  simp [bytesOfWord, hk]

@[simp] theorem decodeBytes_bytesOfWord (w : Word) : decodeBytes (bytesOfWord w) = decode w := by
  simp [decodeBytes]

end Sys2Proof.Laws
end

