-- ==== Sys2Proof/Laws/PerInstr.lean ====
section
/-! SUPPORT. Families of statements about operations as syntax, one lemma per constructor. -/

namespace Sys2Proof.Laws.FieldsRoundTrip

open Sys2Proof

/-- The fields of a well-formed operation spell it (R82 to R88). -/
def Statement (i : Instr) : Prop := i.wellFormed = true → decodeFields (fieldsOf i) = .ok i

theorem construct (addr7 : DevAddr) (sel : Family) : Statement (.construct addr7 sel) := by
  have h1 : (BitVec.zeroExtend 8 addr7).extractLsb' 7 1 = 0 := by revert addr7; decide
  have h2 : (BitVec.zeroExtend 8 addr7).extractLsb' 0 7 = addr7 := by revert addr7; decide
  have h3 : ((familyCode sel).zeroExtend 16).extractLsb' 1 15 = 0 := by cases sel <;> decide
  have h4 : ((familyCode sel).zeroExtend 16).extractLsb' 0 1 = familyCode sel := by
    cases sel <;> decide
  intro _
  simp [decodeFields, fieldsOf, bareFields, formatOf, Fields.reservedClear, operands, h1, h2, h3, h4]
theorem destruct : Statement .destruct := fun _ => rfl
theorem setpix (x y : Int) (c : Colour) : Statement (.setpix x y c) := by
  intro h
  simp only [Instr.wellFormed, Bool.and_eq_true] at h
  simp [decodeFields, fieldsOf, bareFields, formatOf, Fields.reservedClear, operands, withMod,
    sext16_field16 h.1, sext16_field16 h.2]
theorem clear (c : Colour) : Statement (.clear c) := by cases c <;> exact fun _ => rfl
theorem flush : Statement .flush := fun _ => rfl
theorem flushx (addr : XAddr) : Statement (.flushx addr) := fun _ => rfl
theorem loadbmp (addr : XAddr) : Statement (.loadbmp addr) := fun _ => rfl
theorem contrast (v : Byte) : Statement (.contrast v) := fun _ => rfl
theorem invert (e : InvertMode) : Statement (.invert e) := by cases e <;> exact fun _ => rfl
theorem orient (e : Orientation) : Statement (.orient e) := by cases e <;> exact fun _ => rfl
theorem power (e : PowerArg) : Statement (.power e) := by cases e <;> exact fun _ => rfl
theorem getbufsz : Statement .getbufsz := fun _ => rfl
theorem getw : Statement .getw := fun _ => rfl
theorem geth : Statement .geth := fun _ => rfl
theorem rdfb (idx : Nat) : Statement (.rdfb idx) := by
  intro h
  simp only [Instr.wellFormed, fitsU16, decide_eq_true_eq] at h
  simp [decodeFields, fieldsOf, bareFields, formatOf, Fields.reservedClear, operands, h]
theorem line (x0 y0 x1 y1 : Int) (c : Colour) : Statement (.line x0 y0 x1 y1 c) := by
  intro h
  simp only [Instr.wellFormed, Bool.and_eq_true] at h
  obtain ⟨⟨⟨h1, h2⟩, h3⟩, h4⟩ := h
  simp [decodeFields, fieldsOf, bareFields, formatOf, Fields.reservedClear, operands, withMod,
    sext16_field16 h1, sext16_field16 h2, sext16_field16 h3, sext16_field16 h4]
theorem hline (x y w : Int) (c : Colour) : Statement (.hline x y w c) := by
  intro h
  simp only [Instr.wellFormed, Bool.and_eq_true] at h
  obtain ⟨⟨h1, h2⟩, h3⟩ := h
  simp [decodeFields, fieldsOf, bareFields, formatOf, Fields.reservedClear, operands, withMod,
    sext16_field16 h1, sext16_field16 h2, sext16_field16 h3]
theorem vline (x y h : Int) (c : Colour) : Statement (.vline x y h c) := by
  intro hw
  simp only [Instr.wellFormed, Bool.and_eq_true] at hw
  obtain ⟨⟨h1, h2⟩, h3⟩ := hw
  simp [decodeFields, fieldsOf, bareFields, formatOf, Fields.reservedClear, operands, withMod,
    sext16_field16 h1, sext16_field16 h2, sext16_field16 h3]
theorem rect (x y w h : Int) (c : Colour) : Statement (.rect x y w h c) := by
  intro hw
  simp only [Instr.wellFormed, Bool.and_eq_true] at hw
  obtain ⟨⟨⟨h1, h2⟩, h3⟩, h4⟩ := hw
  simp [decodeFields, fieldsOf, bareFields, formatOf, Fields.reservedClear, operands, withMod,
    sext16_field16 h1, sext16_field16 h2, sext16_field16 h3, sext16_field16 h4]
theorem frect (x y w h : Int) (c : Colour) : Statement (.frect x y w h c) := by
  intro hw
  simp only [Instr.wellFormed, Bool.and_eq_true] at hw
  obtain ⟨⟨⟨h1, h2⟩, h3⟩, h4⟩ := hw
  simp [decodeFields, fieldsOf, bareFields, formatOf, Fields.reservedClear, operands, withMod,
    sext16_field16 h1, sext16_field16 h2, sext16_field16 h3, sext16_field16 h4]
theorem pbar (x y w h progress : Int) (c : Colour) : Statement (.pbar x y w h progress c) := by
  intro hw
  simp only [Instr.wellFormed, Bool.and_eq_true] at hw
  obtain ⟨⟨⟨⟨h1, h2⟩, h3⟩, h4⟩, h5⟩ := hw
  simp [decodeFields, fieldsOf, bareFields, formatOf, Fields.reservedClear, operands, withMod,
    sext16_field16 h1, sext16_field16 h2, sext16_field16 h3, sext16_field16 h4, sext16_field16 h5]
theorem char (x y : Int) (ch : Nat) (c : Colour) : Statement (.char x y ch c) := by
  intro hw
  simp only [Instr.wellFormed, Bool.and_eq_true, fitsU8, decide_eq_true_eq] at hw
  obtain ⟨⟨h1, h2⟩, h3⟩ := hw
  have hi : (BitVec.ofNat 16 ch).extractLsb' 8 8 = 0 := by
    apply BitVec.eq_of_toNat_eq
    simp [BitVec.extractLsb'_toNat, Nat.shiftRight_eq_div_pow]
    omega
  have lo : ((BitVec.ofNat 16 ch).extractLsb' 0 8).toNat = ch := by
    simp [BitVec.extractLsb'_toNat]
    omega
  simp [decodeFields, fieldsOf, bareFields, formatOf, Fields.reservedClear, operands, withMod,
    sext16_field16 h1, sext16_field16 h2, hi, lo]
theorem string (x y : Int) (addr : XAddr) (len : Nat) (c : Colour) :
    Statement (.string x y addr len c) := by
  intro hw
  simp only [Instr.wellFormed, Bool.and_eq_true, fitsU16, decide_eq_true_eq] at hw
  obtain ⟨⟨h1, h2⟩, h3⟩ := hw
  simp [decodeFields, fieldsOf, bareFields, formatOf, Fields.reservedClear, operands, withMod,
    sext16_field16 h1, sext16_field16 h2, h3]
theorem setfont (addr : XAddr) : Statement (.setfont addr) := fun _ => rfl
theorem getfont : Statement .getfont := fun _ => rfl

end Sys2Proof.Laws.FieldsRoundTrip
end

