-- ==== Sys2Proof/Tests/Slice0.lean ====
section
/-! SUPPORT. The model's own tests: ill-formed operations refused, words of every operation decoded, one-step
effects, and a witness for the hypotheses of every statement. Expected values are from
spec/95_test_vectors.md (named V<n>, E<n>) or computed by hand from the rules cited; byte indices are those of
a panel 16 columns wide. -/

namespace Sys2Proof.Tests

open Sys2Proof Sys2Proof.Machine

/-! ## WellFormed refuses each ill-formed operand -/

theorem test_wf_setpix_low : (Instr.setpix (-32769) 0 .set).wellFormed = false := by decide
theorem test_wf_setpix_high : (Instr.setpix 0 32768 .set).wellFormed = false := by decide
theorem test_wf_setpix_edge : (Instr.setpix (-32768) 32767 .set).wellFormed = true := by decide
theorem test_wf_rdfb : (Instr.rdfb 65536).wellFormed = false := by decide
theorem test_wf_line :
    (Instr.line 32768 0 0 0 .set).wellFormed = false ∧ (Instr.line 0 32768 0 0 .set).wellFormed = false ∧
    (Instr.line 0 0 32768 0 .set).wellFormed = false ∧ (Instr.line 0 0 0 32768 .set).wellFormed = false := by
  decide
theorem test_wf_hline :
    (Instr.hline 32768 0 0 .set).wellFormed = false ∧ (Instr.hline 0 32768 0 .set).wellFormed = false ∧
    (Instr.hline 0 0 (-32769) .set).wellFormed = false := by decide
theorem test_wf_vline :
    (Instr.vline 32768 0 0 .set).wellFormed = false ∧ (Instr.vline 0 32768 0 .set).wellFormed = false ∧
    (Instr.vline 0 0 (-32769) .set).wellFormed = false := by decide
theorem test_wf_rect :
    (Instr.rect 32768 0 0 0 .set).wellFormed = false ∧ (Instr.rect 0 32768 0 0 .set).wellFormed = false ∧
    (Instr.rect 0 0 32768 0 .set).wellFormed = false ∧ (Instr.rect 0 0 0 32768 .set).wellFormed = false := by
  decide
theorem test_wf_frect :
    (Instr.frect 32768 0 0 0 .set).wellFormed = false ∧ (Instr.frect 0 32768 0 0 .set).wellFormed = false ∧
    (Instr.frect 0 0 32768 0 .set).wellFormed = false ∧ (Instr.frect 0 0 0 32768 .set).wellFormed = false := by
  decide
theorem test_wf_pbar :
    (Instr.pbar 32768 0 0 0 0 .set).wellFormed = false ∧ (Instr.pbar 0 32768 0 0 0 .set).wellFormed = false ∧
    (Instr.pbar 0 0 32768 0 0 .set).wellFormed = false ∧ (Instr.pbar 0 0 0 32768 0 .set).wellFormed = false ∧
    (Instr.pbar 0 0 0 0 32768 .set).wellFormed = false := by decide
theorem test_wf_char :
    (Instr.char 32768 0 0 .set).wellFormed = false ∧ (Instr.char 0 32768 0 .set).wellFormed = false ∧
    (Instr.char 0 0 256 .set).wellFormed = false := by decide
theorem test_wf_string :
    (Instr.string 32768 0 0 0 .set).wellFormed = false ∧ (Instr.string 0 32768 0 0 .set).wellFormed = false ∧
    (Instr.string 0 0 0 65536 .set).wellFormed = false := by decide

/-! ## Decoding: the words of 95_test_vectors.md section 2.1, byte by byte -/

/-- The decoder's answer on the first bytes of a word, the others 0. -/
def reads (bs : List Byte) (i : Instr) : Bool :=
  decide (decodeBytes (bs ++ List.replicate (16 - bs.length) 0) = .ok i)

/-- Why the decoder refuses the first bytes of a word, the others 0. -/
def refuses (bs : List Byte) (r : Reject) : Bool :=
  decide (decodeBytes (bs ++ List.replicate (16 - bs.length) 0) = .error r)

theorem test_decode_construct : reads [0x01, 0x3C] (.construct 0x3C .f0) ∧
    reads [0x01, 0x3C, 0x01] (.construct 0x3C .f1) := by decide
theorem test_decode_destruct : reads [0x02] .destruct := by decide
theorem test_decode_setpix : reads [0x03, 0x01, 0x03, 0x00, 0x0A] (.setpix 3 10 .set) ∧
    reads [0x03, 0x01, 0xFF, 0xFF] (.setpix (-1) 0 .set) := by decide
theorem test_decode_clear : reads [0x04, 0x02] (.clear .toggle) := by decide
theorem test_decode_flush : reads [0x05] .flush := by decide
theorem test_decode_flushx :
    reads [0x06, 0, 0, 0, 0, 0, 0, 0, 0, 0, 0, 0, 0x00, 0x30] (.flushx 0x3000) := by decide
theorem test_decode_loadbmp :
    reads [0x07, 0, 0, 0, 0, 0, 0, 0, 0, 0, 0, 0, 0x00, 0x30] (.loadbmp 0x3000) := by decide
theorem test_decode_contrast : reads [0x08, 0xFF] (.contrast 0xFF) := by decide
theorem test_decode_invert : reads [0x09, 0x01] (.invert .inverted) := by decide
theorem test_decode_orient : reads [0x0A, 0x01] (.orient .rotated) := by decide
theorem test_decode_power : reads [0x0B, 0x00] (.power .off) := by decide
theorem test_decode_accessors :
    reads [0x0C] .getbufsz ∧ reads [0x0D] .getw ∧ reads [0x0E] .geth := by decide
theorem test_decode_rdfb : reads [0x0F, 0x00, 0xFF, 0x03] (.rdfb 1023) := by decide
theorem test_decode_line : reads [0x10, 0x01, 0, 0, 0, 0, 0x03, 0x00, 0x03] (.line 0 0 3 3 .set) := by decide
theorem test_decode_hline : reads [0x11, 0x01, 0, 0, 0, 0, 0x0A] (.hline 0 0 10 .set) := by decide
theorem test_decode_vline :
    reads [0x12, 0x01, 0x02, 0, 0x05, 0, 0xFD, 0xFF] (.vline 2 5 (-3) .set) := by decide
theorem test_decode_rect :
    reads [0x13, 0x02, 0, 0, 0, 0, 0x04, 0, 0x03] (.rect 0 0 4 3 .toggle) := by decide
theorem test_decode_frect :
    reads [0x14, 0x02, 0x01, 0, 0x01, 0, 0x02, 0, 0x02] (.frect 1 1 2 2 .toggle) := by decide
theorem test_decode_pbar :
    reads [0x15, 0x01, 0, 0, 0, 0, 0x64, 0, 0x0A, 0, 0x32] (.pbar 0 0 100 10 50 .set) := by decide
theorem test_decode_char : reads [0x18, 0x01, 0, 0, 0, 0, 0x21] (.char 0 0 0x21 .set) := by decide
theorem test_decode_string :
    reads [0x19, 0x01, 0, 0, 0, 0, 0x02, 0, 0, 0, 0, 0, 0x00, 0x20] (.string 0 0 0x2000 2 .set) := by decide
theorem test_decode_setfont :
    reads [0x1A, 0, 0, 0, 0, 0, 0, 0, 0, 0, 0, 0, 0x00, 0x10] (.setfont 0x1000) := by decide
theorem test_decode_getfont : reads [0x1B] .getfont := by decide

/-- The illegal words of section 2.1. -/
theorem test_decode_illegal :
    refuses [0x00] .unassignedOpcode ∧ refuses [0x16] .unassignedOpcode ∧
    refuses [0xFF] .unassignedOpcode ∧ refuses [0x03, 0x03] .badColour ∧ refuses [0x05, 0x01] .reservedBit ∧
    refuses [0x0B, 0x02] .badEnum ∧ refuses [0x01, 0xBC] .reservedBit ∧
    refuses [0x01, 0x3C, 0x02] .reservedBit ∧
    refuses [0x18, 0x01, 0, 0, 0, 0, 0x21, 0x01] .reservedBit ∧ refuses [0x0F, 0x01] .reservedBit ∧
    refuses [0x1A, 0, 0x01, 0, 0, 0, 0, 0, 0, 0, 0, 0, 0x00, 0x10] .reservedBit ∧
    refuses [0x10, 0x01, 0, 0, 0, 0, 0, 0, 0, 0, 0x01] .reservedBit := by decide

/-- Anything but 16 bytes is no word (R92). -/
theorem test_decode_length : decodeBytes [] = .error .notSixteenBytes ∧
    decodeBytes (List.replicate 17 0x02) = .error .notSixteenBytes := by decide

/-- The encoder on a word of section 2.1. -/
theorem test_encode_setpix : encode (.setpix 3 10 .set) = 0x00000000000000000000000A00030103 := by decide

/-- Lines of the programs of section 3 (P1, P2, P3), and an operand out of range (R94). -/
theorem test_assemble :
    assemble "RECT 10, 0, 4, 3, SET" = some 0x000000000000000300040000000A0113 ∧
    assemble "VLINE 6, 14, 4, SET" = some 0x00000000000000000004000E00060112 ∧
    assemble "STRING 0, 8, 0x2000, 3, SET" = some 0x00002000000000000003000800000119 ∧
    assembleOp "CHAR 0, 0, 'A', SET" = some (.char 0 0 0x41 .set) ∧
    assemble "SETPIX 32768, 0, SET" = none := by decide

/-! ## A small block -/

/-- Two panels of 16 x 16, the second with the quirk; the default command bytes; short bring-up and window
sequences. -/
def demoCfg : Config where
  family0 := ⟨16, 16, false⟩
  family1 := ⟨16, 16, true⟩
  cmd := defaultCmd
  bringup0 := [0xA8, 0x3F]
  bringup1 := []
  flushWin0 := [0x21]
  flushWin1 := []
  defaultFont := none

/-- The test font TF of 95_test_vectors.md at 0x1000, characters at 0x2010 and 0x2020, 32 bitmap bytes at
0x3000, and the last two bytes of XM. -/
def demoXm : Memory :=
  Memory.cellsFrom 0x1000 [0x08, 0x02, 0x00, 0x00, 0x01, 0x80, 0xFF, 0x00] ++
    Memory.cellsFrom 0x2010 [0x21, 0x0A, 0x22] ++
    Memory.cellsFrom 0x2020 [0x21, 0x23] ++
    Memory.cellsFrom 0x3000 ((List.range 32).map fun i => BitVec.ofNat 8 (7 * i)) ++
    Memory.cellsFrom 0xFFFFFFFE [0x01, 0x02]

/-- A block after CONSTRUCT 0x3C, with the font register set, and a word being executed. -/
def demo (f : Family) : State :=
  { State.resetWith demoCfg demoXm (List.replicate 40 .ok) [.ok] with
    pstate := .ready
    surf := some ⟨f, 0x3C, Memory.ofBytes (List.replicate 32 0x00)⟩
    shContrast := some 0xFF
    shOrient := some .normal
    font := some 0x1000
    pending := [0x00000000000000000000000000000103] }

/-- The block before CONSTRUCT, all draws ok. -/
def fresh : State :=
  { State.resetWith demoCfg demoXm (List.replicate 40 .ok) [.ok] with pending := [0x3C01] }

/-- A block whose transport refuses transaction `m`. -/
def refusing (m : Nat) (s : State) : State := { s with busScript := List.replicate m .ok ++ [.fail] }

/-- The state an outcome carries. -/
def after (o : Host.Outcome State Fault Refusal) : Option State :=
  match o with
  | .next s => some s
  | .fault _ => none
  | .refused _ => none

/-- The bytes of the framebuffer that are not 0, after an operation on `s`. -/
def lit (i : Instr) (s : State) : Option (List Host.Cell) :=
  (after (exec i s)).bind fun t => t.surf.map fun d => d.fb.filter fun x => decide (x.2 ≠ 0)

/-- The fault registers after an operation on `s`. -/
def faults (i : Instr) (s : State) : Option (FaultCode × BitVec 32) :=
  (after (exec i s)).map fun t => (t.fault, t.faultInfo)

/-- The bytes of the transactions an operation on `s` appends. -/
def sent (i : Instr) (s : State) : Option (List (List Byte)) :=
  (after (exec i s)).map fun t => (t.buslog.drop s.buslog.length).map fun x => x.bytes

/-! ## One step of each operation -/

/-- V1 with the small tables: bring-up groups in order, then the window byte and the cleared frame. -/
theorem test_construct : sent (.construct 0x3C .f0) fresh =
    some ([[0, 0xAE], [0, 0x00], [0, 0x10], [0, 0x40], [0, 0x20], [0, 0x00], [0, 0x81], [0, 0xFF], [0, 0xA1],
      [0, 0xC8], [0, 0xA8], [0, 0x3F], [0, 0xAF], [0, 0x21]] ++ [0x40 :: List.replicate 32 0x00]) := by decide
/-- V4: position 3 refused. -/
theorem test_construct_refused :
    faults (.construct 0x3C .f0) (refusing 3 fresh) = some (.bus, 3) ∧
    (after (exec (.construct 0x3C .f0) (refusing 3 fresh))).map (fun t =>
      (t.buslog.length, t.alive, t.pstate)) = some (4, true, .uninit) := by decide
/-- V8. -/
theorem test_destruct : (after (exec .destruct (demo .f0))).map (fun t => (t.alive, t.pstate, t.buslog)) =
    some (false, .ready, []) := by decide
/-- V43, V46: row 0 of the quirk family is bit 1; row 8 lies past the buffer. -/
theorem test_setpix_quirk : lit (.setpix 5 0 .set) (demo .f1) = some [(5, 0x02)] ∧
    faults (.setpix 5 8 .set) (demo .f1) = some (.overrun, 37) := by decide
/-- V40, V42: page 1, bit 2; out of range. -/
theorem test_setpix : lit (.setpix 3 10 .set) (demo .f0) = some [(19, 0x04)] ∧
    lit (.setpix (-1) 0 .set) (demo .f0) = some [] := by decide
/-- E2. -/
theorem test_clear : lit (.clear .set) (demo .f0) = some (Memory.ofBytes (List.replicate 32 0xFF)) := by decide
/-- V24. -/
theorem test_clear_toggle : faults (.clear .toggle) (demo .f0) = some (.clearToggle, 0) := by decide
/-- V25: the window, then the frame. -/
theorem test_flush : sent .flush (demo .f0) = some [[0, 0x21], 0x40 :: List.replicate 32 0x00] := by decide
/-- V27. -/
theorem test_flushx : (after (exec (.flushx 0x3000) (demo .f1))).map (fun t => (t.shown, t.surf)) =
    some (some ((List.range 32).map fun i => BitVec.ofNat 8 (7 * i)), (demo .f1).surf) := by decide
/-- V29: the first undefined address. -/
theorem test_flushx_short : faults (.flushx 0x3010) (demo .f0) = some (.extRead, 0x3020) := by decide
/-- E8. -/
theorem test_loadbmp : lit (.loadbmp 0x3000) (demo .f0) =
    some ((Memory.ofBytes ((List.range 32).map fun i => BitVec.ofNat 8 (7 * i))).filter
      fun x => decide (x.2 ≠ 0)) := by decide
/-- V31: the read would pass the top of XM. -/
theorem test_loadbmp_top : faults (.loadbmp 0xFFFFFFFE) (demo .f0) = some (.extRead, 0xFFFFFFFF) := by decide
/-- Section 2.3, step 3. -/
theorem test_contrast : sent (.contrast 0x7F) (demo .f0) = some [[0, 0x81], [0, 0x7F]] := by decide
/-- Section 2.3, step 4. -/
theorem test_invert : sent (.invert .inverted) (demo .f0) = some [[0, 0xA7]] := by decide
/-- Section 2.3, step 5, and its bus failure. -/
theorem test_orient : sent (.orient .rotated) (demo .f0) = some [[0, 0xA0], [0, 0xC0]] ∧
    (after (exec (.orient .rotated) (refusing 0 (demo .f0)))).map (fun t => (t.faultInfo, t.shOrient)) =
      some (0, some .normal) := by decide
/-- Section 2.3, step 1. -/
theorem test_power : (after (exec (.power .off) (demo .f0))).map (fun t =>
    (t.pstate, t.buslog)) = some (.off, [⟨0x3C, [0, 0xAE], .ok⟩]) := by decide
/-- V20 on the small panel. -/
theorem test_accessors :
    (after (exec .getbufsz (demo .f0))).map (·.res) = some (some 32) ∧
    (after (exec .getw (demo .f0))).map (·.res) = some (some 16) ∧
    (after (exec .geth (demo .f0))).map (·.res) = some (some 16) := by decide
/-- V23. -/
theorem test_rdfb : (after (exec (.rdfb 31) (demo .f0))).map (·.res) = some (some 0) ∧
    faults (.rdfb 32) (demo .f0) = some (.index, 32) := by decide
/-- V62, V65: steep, and right to left. -/
theorem test_line : linePixels 0 0 1 3 = [(0, 0), (0, 1), (1, 2), (1, 3)] ∧
    linePixels 5 2 0 0 = [(0, 0), (1, 0), (2, 1), (3, 1), (4, 2), (5, 2)] := by decide
/-- V64, V71: downward step; a clipped line. -/
theorem test_line_lit : lit (.line 0 3 3 0 .set) (demo .f0) = some [(0, 0x08), (1, 0x04), (2, 0x02), (3, 0x01)] ∧
    lit (.line (-2) (-1) 2 1 .set) (demo .f0) = some [(0, 0x01), (1, 0x01), (2, 0x02)] := by decide
/-- V73, V76. -/
theorem test_hline : lit (.hline 0 0 10 .set) (demo .f0) = some (Memory.ofBytes (List.replicate 10 0x01)) ∧
    hlinePixels 5 1 (-2) = [(2, 1), (3, 1), (4, 1), (5, 1)] := by decide
/-- V82: two pixels stay, the third overruns. -/
theorem test_vline_overrun : lit (.vline 6 6 4 .set) (demo .f1) = some [(22, 0xA0)] ∧
    faults (.vline 6 6 4 .set) (demo .f1) = some (.overrun, 38) := by decide
/-- V90, V91. -/
theorem test_rect : lit (.rect 0 0 4 3 .set) (demo .f0) = some [(0, 7), (1, 5), (2, 5), (3, 7)] ∧
    lit (.rect 0 0 4 3 .toggle) (demo .f0) = some [(0, 2), (1, 5), (2, 5), (3, 2)] := by decide
/-- V96, V98: the second with columns of length 0. -/
theorem test_frect : lit (.frect 1 1 2 2 .set) (demo .f0) = some [(1, 6), (2, 6)] ∧
    lit (.frect 1 1 2 0 .set) (demo .f0) = some [(1, 3), (2, 3)] := by decide
/-- V101, V104: the width rounds down; the outline is toggled back. -/
theorem test_pbar : lit (.pbar 0 0 10 3 33 .set) (demo .f0) =
      some [(0, 7), (1, 7), (2, 7), (3, 5), (4, 5), (5, 5), (6, 5), (7, 5), (8, 5), (9, 7)] ∧
    lit (.pbar 0 0 4 3 100 .toggle) (demo .f0) = some [(0, 5), (1, 2), (2, 2), (3, 5)] := by decide
/-- V120, V125: two columns; the first glyph byte undefined. -/
theorem test_char : lit (.char 0 0 0x21 .set) (demo .f0) = some [(0, 0x01), (1, 0x80)] ∧
    faults (.char 0 0 0x23 .set) (demo .f0) = some (.extRead, 0x1008) := by decide
/-- Bit 4 of a full column overruns on the quirk family; V140: the header byte. -/
theorem test_char_stops : lit (.char 0 4 0x22 .set) (demo .f1) = some [(16, 0xAA)] ∧
    faults (.char 0 4 0x22 .set) (demo .f1) = some (.overrun, 32) ∧
    faults (.char 0 0 0x21 .set) { demo .f0 with font := some 0x5000 } = some (.extRead, 0x5000) := by decide
/-- V134; as V135, after a character that stays drawn. -/
theorem test_string_stops : faults (.string 0 0 0x9999 1 .set) (demo .f0) = some (.extRead, 0x9999) ∧
    lit (.string 0 0 0x2020 2 .set) (demo .f0) = some [(0, 0x01), (1, 0x80)] ∧
    faults (.string 0 0 0x2020 2 .set) (demo .f0) = some (.extRead, 0x1008) := by decide
/-- V132: a skipped character still advances. -/
theorem test_string : lit (.string 0 0 0x2010 3 .set) (demo .f0) =
    some [(0, 0x01), (1, 0x80), (6, 0xFF)] := by decide
/-- V138, V137. -/
theorem test_font : (after (exec (.setfont 0x5000) (demo .f0))).map (·.font) = some (some 0x5000) ∧
    (after (exec .getfont (demo .f0))).map (·.res) = some (some 0x1000) := by decide

/-! ## The step -/

/-- The host's check: a table word stored as the next one is run by the next step (V7: not alive). -/
theorem test_withFetchWord : (after (step (State.reset.withFetchWord 128 0x103))).map (fun t =>
    (t.fault, t.faultWord)) = some (.state, some 0x103) := by decide
/-- A completed word advances the index; an illegal one does not. -/
theorem test_step : (after (step { demo .f0 with pending := [0x0C, 0x0D] })).map (fun t =>
      (t.pending, t.opIndex, t.res)) = some ([0x0D], 1, some 32) ∧
    (after (step { demo .f0 with pending := [0x105] })).map (fun t => (t.fault, t.pending, t.opIndex)) =
      some (.illegal, [0x105], 0) := by decide

/-! ## Witnesses: states and operands that meet the hypotheses of each statement -/

/-- The surface of `demo`. -/
def demoSurf (f : Family) : Surface := ⟨f, 0x3C, Memory.ofBytes (List.replicate 32 0x00)⟩

theorem live_demo (f : Family) : Live (demo f) (demoSurf f) := ⟨rfl, rfl⟩

theorem fbSize_demo (f : Family) : (demo f).fbSize (demoSurf f) = 32 := by cases f <;> rfl

theorem ready_demo (f : Family) : Ready (demo f) (demoSurf f) := by
  refine ⟨live_demo f, ?_, ?_⟩ <;> rw [fbSize_demo]
  · simpa [demoSurf] using Laws.fbWf_ofBytes (List.replicate 32 0x00)
  · simpa [demoSurf] using Laws.fbDefined_ofBytes (List.replicate 32 0x00)

theorem busOk_demo (f : Family) : busOk (demo f) 40 := by unfold busOk; cases f <;> decide

theorem witness_DecodeOfEncodeIsIdentity :
    (Instr.pbar (-32768) 32767 0 (-1) 100 .toggle).wellFormed = true ∧
    (Instr.string 0 0 0xFFFFFFFF 65535 .set).wellFormed = true ∧
    (Instr.char 0 0 255 .clear).wellFormed = true := by decide
theorem witness_EncodeOfDecodeIsIdentity : decode 0x7F01 = .ok (.construct 0x7F .f0) := by decide
theorem witness_WordBytesAreLittleEndian :
    wordOfBytes (0x03 :: 0x01 :: List.replicate 14 0xFF) = some 0xFFFFFFFFFFFFFFFFFFFFFFFFFFFF0103 := by decide
/-- Numbers at both ends of a field, one past it, and a quoted comma. -/
theorem witness_AssembledLines : assemble "SETPIX -32768, 0x7FFF, TOGGLE" = some 0x7FFF80000203 ∧
    (numberText (-32768) "-32768" ∧ signed16 (-32768) = true ∧ signed16 (-32769) = false) ∧
    (numberText 32767 "0x7fff" ∧ signed16 32767 = true ∧ signed16 32768 = false) ∧
    (unsigned 8 255 = true ∧ unsigned 8 256 = false ∧ unsigned 8 (-1) = false) ∧ codeText 0x2C "','" :=
  ⟨by decide, ⟨.inl (by decide), by decide⟩, ⟨.inr ⟨32767, rfl, by decide⟩, by decide⟩, by decide,
    .inr ⟨',', by decide, by decide, by decide⟩⟩
theorem witness_StepRunsTheDecodedOperation :
    (demo .f0).fault = .none ∧ (demo .f0).pending = [0x103] ∧ decode 0x103 = .ok (.setpix 0 0 .set) := by decide
theorem witness_IllegalWordRaisesIllegal :
    ({ demo .f0 with pending := [0] } : State).fault = .none ∧ ¬ legalWord 0 ∧ ¬ legalWord 0x303 := by
  refine ⟨rfl, ?_, ?_⟩ <;> (unfold legalWord TableRow.holds; decide)
theorem witness_FaultedBlockIsStuck : (raise .state 0 (demo .f0)).fault ≠ .none := by decide
theorem witness_LifecycleMisuseRaisesState :
    (fresh.fault = .none ∧ (isConstruct .flush = true ↔ fresh.surf.isSome = true)) ∧
    ((demo .f0).fault = .none ∧ (isConstruct (.construct 0 .f0) = true ↔ (demo .f0).surf.isSome = true)) := by
  decide
theorem witness_EveryOperationAnswersNext : fresh.fault = .none := by decide
theorem witness_ConstructBringsUp : fresh.fault = .none ∧ fresh.surf = none ∧ fresh.allocAnswer = .ok ∧
    busOk fresh (1 + fresh.cfg.cmd.addrModeSeq.length + 2 + fresh.cfg.cmd.orientNormal.length +
      (bringupOf fresh.cfg .f0).length + 1 + (flushWinOf fresh.cfg .f0).length + 1) := by
  unfold busOk; decide
theorem witness_ConstructAllocationFailure :
    let s := { fresh with allocScript := [.fail] }
    s.fault = .none ∧ s.surf = none ∧ s.allocAnswer = .fail := by decide
/-- The first transaction, the last of group 6, the first after the clear, and the last of all. -/
theorem witness_ConstructBusFailure : ∀ m ∈ [0, 7, 8, 9, 10, 12, 13, 14],
    let s := refusing m fresh
    s.fault = .none ∧ s.surf = none ∧ s.allocAnswer = .ok ∧ busOk s m ∧
      s.busAnswer (s.buslog.length + m) = .fail ∧
      m < (cmdBytes (bringUpBytes s.cfg .f0) ++
        flushLog s.cfg .f0 (List.replicate (fbBytes (geomOf s.cfg .f0)) 0x00)).length := by
  unfold busOk; decide
/-- Outside; the last pixel inside; on the quirk family the last row inside and the first past the buffer. -/
theorem witness_SetpixWritesOneBit :
    (Ready (demo .f0) (demoSurf .f0) ∧ Ready (demo .f1) (demoSurf .f1)) ∧
    ¬ ((0 : Int) ≤ 16 ∧ (16 : Int) < (geomOf demoCfg .f0).width) ∧
    ((15 : Int) < (geomOf demoCfg .f0).width ∧ (15 : Int) < (geomOf demoCfg .f0).height ∧
      31 = 15 + 15 / 8 * (geomOf demoCfg .f0).width ∧
      31 < (geomOf demoCfg .f0).width * (geomOf demoCfg .f0).height / 8) ∧
    ((geomOf demoCfg .f1).quirk = true ∧ 16 = 0 + 15 / 8 * (geomOf demoCfg .f1).width ∧
      16 < (geomOf demoCfg .f1).width * (geomOf demoCfg .f1).height / 8) ∧
    (32 = 0 + 17 / 8 * (geomOf demoCfg .f1).width ∧
      (geomOf demoCfg .f1).width * (geomOf demoCfg .f1).height / 8 ≤ 32) :=
  ⟨⟨ready_demo _, ready_demo _⟩, by decide⟩
theorem witness_RowTransformConsequences : configOk demoCfg = true ∧
    inBounds (geomOf demoCfg .f1) 15 15 = true ∧ inBounds (geomOf demoCfg .f0) 0 0 = true := by decide
theorem witness_SetpixTwice : Ready (demo .f0) (demoSurf .f0) ∧ ∀ c ∈ [Colour.toggle, .set, .clear],
    ∃ t, exec (.setpix 3 10 c) (demo .f0) = .next t ∧ t.fault = .none :=
  ⟨ready_demo _, fun c _ => by cases c <;> exact ⟨_, rfl, rfl⟩⟩
theorem witness_ClearFillsTheBuffer : Live (demo .f0) (demoSurf .f0) ∧
    (((Colour.set = .set ∧ (0xFF : Byte) = 0xFF) ∨ (Colour.set = .clear ∧ (0xFF : Byte) = 0x00)) ∧
      ((Colour.clear = .set ∧ (0x00 : Byte) = 0xFF) ∨ (Colour.clear = .clear ∧ (0x00 : Byte) = 0x00))) :=
  ⟨live_demo _, by decide⟩
theorem witness_FillIsTheLoopOfWrites : Live (demo .f0) (demoSurf .f0) ∧
    fbWf ((demo .f0).fbSize (demoSurf .f0)) (demoSurf .f0).fb ∧
    (List.replicate 32 (0xA5 : Byte)).length = (demo .f0).fbSize (demoSurf .f0) :=
  ⟨live_demo _, (ready_demo _).2.1, by decide⟩
theorem witness_FlushSendsTheFramebuffer : Ready (demo .f0) (demoSurf .f0) ∧
    busOk (demo .f0) ((flushWinOf (demo .f0).cfg .f0).length + 1) :=
  ⟨ready_demo _, Laws.busOk_mono (busOk_demo _) (by decide)⟩
theorem holds_bitmap : ((List.range 32).map fun i => BitVec.ofNat 8 (7 * i)).length = 32 ∧
    xmHolds demoXm 0x3000 ((List.range 32).map fun i => BitVec.ofNat 8 (7 * i)) := by
  unfold xmHolds; decide
theorem witness_FlushxSendsTheFrame : Live (demo .f0) (demoSurf .f0) ∧
    xmHolds (demo .f0).xm (0x3000 : XAddr).toNat ((List.range 32).map fun i => BitVec.ofNat 8 (7 * i)) ∧
    busOk (demo .f0) ((flushWinOf (demo .f0).cfg .f0).length + 1) :=
  ⟨live_demo _, holds_bitmap.2, Laws.busOk_mono (busOk_demo _) (by decide)⟩
theorem witness_LoadbmpCopiesTheBitmap : Live (demo .f1) (demoSurf .f1) ∧
    xmHolds (demo .f1).xm (0x3000 : XAddr).toNat ((List.range 32).map fun i => BitVec.ofNat 8 (7 * i)) :=
  ⟨live_demo _, holds_bitmap.2⟩
theorem witness_LoadbmpThenReadBack :
    ((List.range 32).map fun i => BitVec.ofNat 8 (7 * i))[31]? = some (0xD9 : Byte) := by decide
/-- The first undefined address inside XM; a read defined up to the top that passes it. -/
theorem witness_ShortSourceRaisesExtRead : Live (demo .f0) (demoSurf .f0) ∧
    (0x3020 < (0x3010 : XAddr).toNat + (demo .f0).fbSize (demoSurf .f0) ∧ (demo .f0).xm.read 0x3020 = none ∧
      ∀ q', 0x3010 ≤ q' → q' < 0x3020 → (demo .f0).xm.read q' ≠ none) ∧
    (2 ^ 32 < (0xFFFFFFFE : XAddr).toNat + (demo .f0).fbSize (demoSurf .f0) ∧
      ∀ q, (0xFFFFFFFE : XAddr).toNat ≤ q → q < 2 ^ 32 → (demo .f0).xm.read q ≠ none) :=
  ⟨live_demo _, by decide, by decide⟩
theorem witness_DestructReleases : Live (demo .f0) (demoSurf .f0) := live_demo _
theorem witness_ContrastSendsAndShadows : Live (demo .f0) (demoSurf .f0) ∧ busOk (demo .f0) 2 :=
  ⟨live_demo _, Laws.busOk_mono (busOk_demo _) (by decide)⟩
theorem witness_InvertSendsAndShadows : Live (demo .f0) (demoSurf .f0) ∧ busOk (demo .f0) 1 :=
  ⟨live_demo _, Laws.busOk_mono (busOk_demo _) (by decide)⟩
theorem witness_OrientSendsAndShadows : Live (demo .f0) (demoSurf .f0) ∧
    busOk (demo .f0) (demo .f0).cfg.cmd.orientRotated.length ∧
    busOk (demo .f0) (demo .f0).cfg.cmd.orientNormal.length :=
  ⟨live_demo _, Laws.busOk_mono (busOk_demo _) (by decide), Laws.busOk_mono (busOk_demo _) (by decide)⟩
theorem witness_PowerSendsAndSwitches : Live (demo .f0) (demoSurf .f0) ∧ busOk (demo .f0) 1 :=
  ⟨live_demo _, Laws.busOk_mono (busOk_demo _) (by decide)⟩
/-- The first and the last transaction of a flush and of a setter. -/
theorem witness_BusFailureStopsTheOperation :
    (∀ m ∈ [0, 1], busFailsAt (refusing m (demo .f0)) m ∧
      (sends (refusing m (demo .f0)) (demoSurf .f0) .flush).map List.length = some 2 ∧
      (sends (refusing m (demo .f0)) (demoSurf .f0) (.orient .rotated)).map List.length = some 2) ∧
    Live (refusing 1 (demo .f0)) (demoSurf .f0) :=
  ⟨by unfold busFailsAt busOk; decide, rfl, rfl⟩
theorem witness_OnlyConstructAndPowerMovePower :
    ∃ t, exec (.power .off) (demo .f0) = .next t ∧ t.pstate ≠ (demo .f0).pstate := ⟨_, rfl, by decide⟩
theorem witness_AccessorsReturnGeometry :
    configOk (demo .f0).cfg = true ∧ Live (demo .f0) (demoSurf .f0) := ⟨by decide, live_demo _⟩
theorem witness_RdfbReadsOneByte : Ready (demo .f0) (demoSurf .f0) ∧
    (31 < (demo .f0).fbSize (demoSurf .f0) ∧ (demoSurf .f0).fb.read 31 = some 0) ∧
    (demo .f0).fbSize (demoSurf .f0) ≤ 32 := ⟨ready_demo _, by decide, by decide⟩
/-- The four cases of the two swaps. -/
theorem witness_LinePixelsAreBresenham :
    (false = decide (|(2 : Int) - 0| > |(5 : Int) - 0|) ∧ true = decide (|(3 : Int) - 0| > |(1 : Int) - 0|)) ∧
    ((((0 : Int), (0 : Int)), ((5 : Int), (2 : Int))) =
      (if ((5, 2) : Int × Int).1 > ((0, 0) : Int × Int).1 then ((0, 0), (5, 2)) else ((5, 2), (0, 0)))) ∧
    ((((0 : Int), (0 : Int)), ((3 : Int), (1 : Int))) =
      (if ((0, 0) : Int × Int).1 > ((3, 1) : Int × Int).1 then ((3, 1), (0, 0)) else ((0, 0), (3, 1)))) := by
  decide
theorem witness_RectPixelCounts : (rectPixels 0 0 1 1).count (0, 0) = 4 ∧ (rectPixels 0 0 1 3).count (0, 0) = 3 ∧
    (rectPixels 0 0 4 3).count (3, 2) = 2 ∧ (rectPixels 0 0 4 3).count (1, 1) = 0 := by decide
theorem witness_FrectPixelsOnce : frectPixels 1 1 0 5 = [] ∧ (frectPixels 1 1 2 2).count (2, 2) = 1 ∧
    (frectPixels 1 1 2 2).count (3, 1) = 0 := by decide
theorem witness_ShapesAreTheirParts : Live (demo .f1) (demoSurf .f1) := live_demo _
theorem witness_ShapesPaintTheirPixels : Ready (demo .f1) (demoSurf .f1) ∧
    ((shapePixels (.rect 0 0 4 3 .toggle)).isSome = true ∧ (shapePixels (.pbar 0 0 9 8 50 .set)).isSome = true) ∧
    noOverrun ((demo .f1).geom (demoSurf .f1)) (rectPixels 0 0 4 3) ∧
    noOverrun ((demo .f1).geom (demoSurf .f1)) (linePixels 0 7 15 0) :=
  ⟨ready_demo _, by decide, by unfold noOverrun; decide, by unfold noOverrun; decide⟩
theorem witness_ShapesStopAtTheFirstOverrun : Ready (demo .f1) (demoSurf .f1) ∧
    shapePixels (.vline 6 6 4 .set) = some ([(6, 6), (6, 7)] ++ (6, 8) :: [(6, 9)], .set) ∧
    noOverrun ((demo .f1).geom (demoSurf .f1)) [(6, 6), (6, 7)] ∧
    inBounds ((demo .f1).geom (demoSurf .f1)) 6 8 = true ∧
    (demo .f1).fbSize (demoSurf .f1) ≤ (pixelAddr ((demo .f1).geom (demoSurf .f1)) 6 8).1 :=
  ⟨ready_demo _, by decide, by unfold noOverrun; decide, by decide, by decide⟩
theorem holds_font : xmHolds demoXm 0x1000 [0x08, 0x02] ∧ xmHolds demoXm 0x1004 [0x01, 0x80] ∧
    xmHolds demoXm 0x1006 [0xFF, 0x00] ∧ xmHolds demoXm 0x2010 [0x21, 0x0A, 0x22] ∧
    xmHolds demoXm 0x2020 [0x21, 0x23] ∧ xmHolds demoXm 0xFFFFFFFE [0x01, 0x02] := by
  unfold xmHolds; decide
/-- CHAR within its first column, and STRING within its first character: the last row of the buffer, then the
first past it. -/
theorem witness_TextStopsAtTheFirstOverrun :
    DrawsColumns (demo .f1) (.char 0 4 0x22 .set) .set
      ([(0, 4), (0, 5), (0, 6), (0, 7)] ++ (0, 8) :: [(0, 9), (0, 10), (0, 11)]) 0x22 0x1000 2 [0xFF, 0x00] ∧
    DrawsColumns (demo .f1) (.string 0 1 0x2010 3 .set) .set ([(0, 1)] ++ (1, 8) :: []) 0x21 0x1000 2 [0x01, 0x80] ∧
    (noOverrun ((demo .f1).geom (demoSurf .f1)) [(0, 4), (0, 5), (0, 6), (0, 7)] ∧
      inBounds ((demo .f1).geom (demoSurf .f1)) 0 8 = true ∧
      (demo .f1).fbSize (demoSurf .f1) ≤ (pixelAddr ((demo .f1).geom (demoSurf .f1)) 0 8).1) := by
  refine ⟨?_, ?_, by unfold noOverrun; decide, by decide, by decide⟩
  · exact .intro (s := demo .f1) (before := []) (f := 0x1000) (H := 0x08) (W := 0x02) (glyph := fun _ => [])
      (cols := [0xFF, 0x00]) (.char 0 4 0x22 .set) (by decide) (by decide) ⟨rfl, holds_font.1, by simp⟩ (by decide)
      holds_font.2.2.1
  · exact .intro (s := demo .f1) (before := []) (f := 0x1000) (H := 0x08) (W := 0x02) (glyph := fun _ => [])
      (cols := [0x01, 0x80])
      (.string (addr := 0x2010) (len := 3) (before := []) (b := 0x21) (by decide) (by unfold xmHolds; decide))
      (by decide) (by decide) ⟨rfl, holds_font.1, by simp⟩ (by decide) holds_font.2.1
theorem witness_DrawingChangesOnlyTheFramebuffer : Live (demo .f0) (demoSurf .f0) ∧
    drawsOnly (.char 0 0 0x21 .set) = true ∧ ∃ t, exec (.char 0 0 0x21 .set) (demo .f0) = .next t :=
  ⟨live_demo _, rfl, Laws.exec_next rfl _⟩
theorem witness_CharDrawsItsGlyph : Ready (demo .f0) (demoSurf .f0) ∧ (demo .f0).font = some 0x1000 ∧
    xmHolds (demo .f0).xm (0x1000 : XAddr).toNat [0x08, 0x02] ∧ 0x20 ≤ 0x21 ∧ 0x21 ≤ 0x7E ∧
    ([0x01, 0x80] : List Byte).length = (0x02 : Byte).toNat ∧
    xmHolds (demo .f0).xm ((0x1000 : XAddr).toNat + 2 + (0x21 - 0x20) * (0x02 : Byte).toNat) [0x01, 0x80] ∧
    noOverrun ((demo .f0).geom (demoSurf .f0)) (glyphPixels 0 0 8 [0x01, 0x80]) :=
  ⟨ready_demo _, rfl, holds_font.1, by decide, by decide, by decide, holds_font.2.1,
    by unfold noOverrun; decide⟩
theorem witness_GlyphPixelsAreSetBits : (glyphPixels 0 0 8 [0x01, 0x80]).count (1, 7) = 1 ∧
    glyphPixels 0 0 7 [0x00, 0x80] = [] ∧ glyphPixels 0 0 255 [0x80] = [(0, 7)] := by decide
theorem witness_SkippedTextHasNoEffect : Live (demo .f0) (demoSurf .f0) ∧
    ((0x1F < 0x20 ∨ 0x7E < 0x1F) ∧ (0x7F < 0x20 ∨ 0x7E < 0x7F)) := ⟨live_demo _, by decide⟩
theorem witness_NoFontRaisesFontUnset :
    let s := { demo .f0 with font := none }
    Live s (demoSurf .f0) ∧ s.font = none ∧ (s.xm.read (0x2010 : XAddr).toNat).isSome = true := by
  exact ⟨⟨rfl, rfl⟩, rfl, by decide⟩
/-- The glyphs of TF that the strings of `demo` need. -/
def demoGlyph (ch : Nat) : List Byte := if ch = 0x21 then [0x01, 0x80] else [0xFF, 0x00]

theorem fontHolds_demo : fontHolds (demo .f0) 0x1000 0x08 0x02 demoGlyph [0x21, 0x0A, 0x22] :=
  ⟨rfl, holds_font.1, by unfold xmHolds; decide⟩

/-- A string byte: the first, and the one past the top of XM; a header byte: the first, the second, and the one
past the top; a glyph column: the first of the second character, and the first past the top. -/
theorem witness_TextStopsAtAnUndefinedByte : Ready (demo .f0) (demoSurf .f0) ∧
    (TextReads (demo .f0) (.string 0 0 0x9999 1 .set) .set [] 0x9999 ∧ (demo .f0).xm.read 0x9999 = none) ∧
    TextReads (demo .f0) (.string 0 0 0xFFFFFFFF 2 .set) .set [] (2 ^ 32) ∧
    (TextReads { demo .f0 with font := some 0x5000 } (.char 0 0 0x21 .set) .set [] 0x5000 ∧
      (demo .f0).xm.read 0x5000 = none) ∧
    (TextReads { demo .f0 with font := some 0x1007 } (.char 0 0 0x21 .set) .set [] 0x1008 ∧
      (demo .f0).xm.read 0x1008 = none) ∧
    TextReads { demo .f0 with font := some 0xFFFFFFFF } (.string 0 0 0xFFFFFFFF 2 .set) .set [] (2 ^ 32) ∧
    TextReads (demo .f0) (.string 0 0 0x2020 2 .set) .set [(0, 0), (1, 7)] 0x1008 ∧
    TextReads { demo .f0 with font := some 0xFFFFFFFE } (.char 0 0 0x20 .set) .set [] (2 ^ 32) := by
  refine ⟨ready_demo _, ⟨?_, by decide⟩, ?_, ⟨?_, by decide⟩, ⟨?_, by decide⟩, ?_, ?_, ?_⟩
  · exact .stringByte (addr := 0x9999) (len := 1) (before := []) (f := 0) (H := 0) (W := 0) (glyph := demoGlyph)
      (by decide) (by unfold xmHolds; decide) (fun h => absurd rfl h)
  · exact .stringByte (addr := 0xFFFFFFFF) (len := 2) (before := [0x02]) (f := 0x1000) (H := 0x08) (W := 0x02)
      (glyph := demoGlyph) (by decide) (by unfold xmHolds; decide)
      (fun _ => ⟨rfl, holds_font.1, by unfold xmHolds; decide⟩)
  · exact .header (f := 0x5000) (k := 0) (.char 0 0 0x21 .set) (.inl (by decide)) rfl (.inl rfl)
  · exact .header (f := 0x1007) (k := 1) (.char 0 0 0x21 .set) (.inl (by decide)) rfl (.inr (by decide))
  · exact .header (f := 0xFFFFFFFF) (k := 1)
      (.string (addr := 0xFFFFFFFF) (len := 2) (before := []) (b := 0x02) (by decide) (by unfold xmHolds; decide))
      (.inr ⟨_, _, rfl⟩) rfl (.inr (by decide))
  · exact .column (f := 0x1000) (W := 2) (ch := 0x23) (cols := [])
      (.intro (s := demo .f0) (before := [0x21]) (f := 0x1000) (H := 0x08) (W := 0x02) (glyph := demoGlyph)
        (cols := [])
        (.string (addr := 0x2020) (len := 2) (before := [0x21]) (b := 0x23) (by decide) holds_font.2.2.2.2.1)
        (by decide) (by decide) ⟨rfl, holds_font.1, by unfold xmHolds; decide⟩ (by decide)
        (by unfold xmHolds; decide))
      (by decide)
  · exact .column (f := 0xFFFFFFFE) (W := 2) (ch := 0x20) (cols := [])
      (.intro (s := { demo .f0 with font := some 0xFFFFFFFE }) (before := []) (f := 0xFFFFFFFE) (H := 0x01)
        (W := 0x02) (glyph := demoGlyph) (cols := []) (.char 0 0 0x20 .set) (by decide) (by decide)
        ⟨rfl, holds_font.2.2.2.2.2, by simp⟩ (by decide) (by unfold xmHolds; decide))
      (by decide)
theorem witness_StringDrawsItsGlyphs : Ready (demo .f0) (demoSurf .f0) ∧
    fontHolds (demo .f0) 0x1000 0x08 0x02 demoGlyph [0x21, 0x0A, 0x22] ∧
    xmHolds (demo .f0).xm (0x2010 : XAddr).toNat [0x21, 0x0A, 0x22] ∧
    noOverrun ((demo .f0).geom (demoSurf .f0)) (stringPixels 0 8 2 demoGlyph [0x21, 0x0A, 0x22] 0) :=
  ⟨ready_demo _, fontHolds_demo, holds_font.2.2.2.1, by unfold noOverrun; decide⟩
theorem witness_FontRegisterSetAndGet : Live (demo .f0) (demoSurf .f0) ∧ (demo .f0).font = some 0x1000 :=
  ⟨live_demo _, rfl⟩

/-- `demo` meets the invariant. -/
theorem inv_demo : Inv (demo .f0) where
  cfgOk := by decide
  xmOk := by
    refine ⟨by unfold Memory.wf; decide, fun a ha => ?_⟩
    have h : ∀ x ∈ demoXm, x.1 < 2 ^ 32 := by decide
    have : ∀ m : Memory, (∀ x ∈ m, x.1 < a) → m.read a = none := by
      intro m
      induction m with
      | nil => intro _; rfl
      | cons y m ih =>
        intro hm
        have := hm y List.mem_cons_self
        rw [Laws.read_cons, if_neg (by omega)]
        exact ih fun x hx => hm x (List.mem_cons_of_mem _ hx)
    exact this _ fun x hx => Nat.lt_of_lt_of_le (h x hx) ha
  fbOk := fun d hd => by cases hd; exact (ready_demo .f0).2.1
  fbFull := fun d hd _ => by cases hd; exact (ready_demo .f0).2.2
  powered := fun _ _ => by decide
  commanded := fun _ _ => by decide
  noFault := fun _ => by decide
  faulted := fun h => absurd rfl h
  logFramed := fun t ht => by cases ht
  logOk := fun t ht => by cases ht
  logLast := fun _ t ht => by cases ht
  logFail := fun h => by cases h
  shownOk := by decide

theorem witness_StepKeepsInvariant : Inv (demo .f0) ∧ ∃ t, step (demo .f0) = .next t := ⟨inv_demo, _, rfl⟩
theorem witness_ExternalMemoryIsNeverWritten : ∃ t, step (demo .f0) = .next t := ⟨_, rfl⟩
theorem witness_HostMovesKeepInvariant : Inv (demo .f0) := inv_demo
theorem witness_BusLogOnlyGrows :
    ∃ t, step { demo .f0 with pending := [0x05] } = .next t ∧ t.buslog ≠ (demo .f0).buslog :=
  ⟨_, rfl, by decide⟩
theorem witness_OnlyEmittersReachTheBus : emits .getw = false ∧
    (after (exec .flush (demo .f0))).map (fun t => decide (t.shown ≠ (demo .f0).shown)) = some true := by decide
/-- Two instances, the first with a transaction already on the wire; the second flushes. -/
theorem witness_InstancesAreIndependent :
    let x : Transaction := ⟨0x3C, [0x00, 0xAE], .ok⟩
    let p : Platform := ⟨[{ demo .f0 with buslog := [x] }, { demo .f1 with pending := [0x05] }], [(0, x)]⟩
    (∃ q, p.stepAt 1 = some (.next q) ∧ q.wire ≠ p.wire) ∧
      ∀ k s, p.members[k]? = some s → p.wireOf k = s.buslog := by
  refine ⟨⟨_, rfl, by decide⟩, fun k s h => ?_⟩
  match k with
  | 0 => cases h; rfl
  | 1 => cases h; rfl
  | k + 2 => simp at h

end Sys2Proof.Tests
end

section
/-! PROOF. The machine's invariant `Inv` is kept by every step (R11, R37, R42, R51, R59, R100, R123, R130, R137,
R259, R262). The clauses of `Inv` fall into five groups, each kept by every elementary effect of an operation on its
own: the fault registers, the bus log with `shown`, the framebuffer's shape, what the bring-up has set up, and the
power state. Only the allocation of CONSTRUCT breaks the last two, so the bring-up sequence is followed to its end. -/

namespace Sys2Proof.Proofs

open Sys2Proof Sys2Proof.Machine Sys2Proof.Laws

/-! ## What a step can do -/

/-- If the machine takes a step, no fault was recorded, the host had handed over a word, and the step executed
the operation it spells or raised `F_ILLEGAL` (R120, R253). -/
theorem step_cases {s t : State} (h : step s = .next t) :
    s.fault = .none ∧ ∃ w, s.opWord = some w ∧
      ((∃ i u, decode w = .ok i ∧ exec i s = .next u ∧ t = u.retire) ∨
        (∃ r, decode w = .error r ∧ t = raise .illegal 0 s)) := by
  by_cases hn : s.fault = .none
  · refine ⟨hn, ?_⟩
    cases hw : s.opWord with
    | none => simp [step, hn, hw] at h
    | some w =>
      refine ⟨w, rfl, ?_⟩
      simp only [step, hn, hw, if_true, runWord] at h
      cases hdec : decode w with
      | error r =>
        simp only [hdec] at h
        cases h
        exact .inr ⟨r, rfl, rfl⟩
      | ok i =>
        obtain ⟨u, hu⟩ := exec_next hn i
        simp only [hdec, hu, retireOutcome] at h
        cases h
        exact .inl ⟨i, u, rfl, hu, rfl⟩
  · simp [step, hn] at h

/-! ## What a transaction can do -/

/-- The transport accepts the next `n` transactions, or there is a first one that it refuses (R15). -/
theorem busOk_or_busFailsAt (s : State) (n : Nat) : busOk s n ∨ ∃ m, m < n ∧ busFailsAt s m := by
  induction n with
  | zero => exact .inl fun p h1 h2 => by omega
  | succ n ih =>
    obtain hok | ⟨m, hm, hf⟩ := ih
    · cases hb : s.busAnswer (s.buslog.length + n) with
      | fail => exact .inr ⟨n, n.lt_succ_self, hok, hb⟩
      | ok =>
        refine .inl fun p h1 h2 => ?_
        obtain hp | rfl : p < s.buslog.length + n ∨ p = s.buslog.length + n := by omega
        · exact hok p h1 hp
        · exact hb
    · exact .inr ⟨m, hm.trans n.lt_succ_self, hf⟩

/-- One transaction from a state with no fault: logged with `shown` brought up to date, or refused with `F_BUS`
and its position (R37, R101, R102, R259). -/
inductive Transacts (s : State) : State → Prop
  | accepted (x : Transaction) : framed x = true → x.outcome = .ok →
      Transacts s { s with buslog := s.buslog ++ [x], shown := (payloadOf x).or s.shown }
  | refused (x : Transaction) : framed x = true → x.outcome = .fail →
      Transacts s (raise .bus (infoOf s.buslog.length) { s with buslog := s.buslog ++ [x] })

theorem busCmd_transacts {s : State} {d : Surface} (hd : s.surf = some d) (b : Byte) :
    Transacts s (busCmd b s) := by
  obtain ⟨_, e⟩ | ⟨_, e⟩ := busSend_cases hd [0x00, b]
  · rw [busCmd, e]; exact .accepted ⟨d.devaddr, [0x00, b], .ok⟩ rfl rfl
  · rw [busCmd, e]; exact .refused ⟨d.devaddr, [0x00, b], .fail⟩ rfl rfl

theorem busData_transacts {s : State} {d : Surface} (hn : s.fault = .none) (hd : s.surf = some d)
    (p : List Byte) : Transacts s (busData p s) := by
  obtain ⟨_, e⟩ | ⟨_, e⟩ := busSend_cases hd (0x40 :: p)
  · rw [busData, e, andThen_none (by exact hn)]
    exact .accepted ⟨d.devaddr, 0x40 :: p, .ok⟩ rfl rfl
  · rw [busData, e, andThen_fault (by simp)]
    exact .refused ⟨d.devaddr, 0x40 :: p, .fail⟩ rfl rfl

/-! ## The fault registers (R42, R262) -/

/-- A word is being executed; fault word and detail are recorded with a fault only, and the fault word is the
word being executed. -/
def FaultRegsOk (s : State) : Prop :=
  s.opWord.isSome = true ∧ (s.fault = .none → s.faultWord = none ∧ s.faultInfo = 0) ∧
    (s.fault ≠ .none → s.faultWord = s.opWord)

/-- Fault entry records the fault registers consistently. -/
theorem raise_faultRegsOk {s : State} (hw : s.opWord.isSome = true) {c : FaultCode} (hc : c ≠ .none)
    (n : BitVec 32) : FaultRegsOk (raise c n s) :=
  ⟨hw, fun h => absurd h hc, fun _ => rfl⟩

theorem transacts_faultRegsOk {s t : State} (h : FaultRegsOk s) (ht : Transacts s t) : FaultRegsOk t := by
  cases ht with
  | accepted x _ _ => exact h
  | refused x _ _ => exact raise_faultRegsOk (by exact h.1) (by decide) _

theorem effect_faultRegsOk {k : Kind} {s t : State} (hn : s.fault = .none) (he : Effect k s t)
    (h : FaultRegsOk s) : FaultRegsOk t := by
  cases he with
  | fault _ c n hc _ => exact raise_faultRegsOk h.1 hc n
  | command _ d b hd => exact transacts_faultRegsOk h (busCmd_transacts hd b)
  | data _ d p hd => exact transacts_faultRegsOk h (busData_transacts hn hd p)
  | _ => exact h

/-! ## The bus log and `shown` (R37, R100, R259) -/

/-- The clauses of `Inv` on the bus log. -/
def LogOk (s : State) : Prop :=
  (∀ x, x ∈ s.buslog → framed x = true) ∧
  (∀ x, x ∈ s.buslog.dropLast → x.outcome = .ok) ∧
  (s.fault ≠ .bus → ∀ x, x ∈ s.buslog → x.outcome = .ok) ∧
  (s.fault = .bus →
    ∃ x, s.buslog.getLast? = some x ∧ x.outcome = .fail ∧ s.faultInfo = infoOf (s.buslog.length - 1)) ∧
  s.shown = lastShown s.buslog

theorem lastShown_append (log : List Transaction) (x : Transaction) :
    lastShown (log ++ [x]) = (payloadOf x).or (lastShown log) := by simp [lastShown]

/-- A refused transaction shows nothing (R37). -/
theorem payloadOf_fail {x : Transaction} (h : x.outcome = .fail) : payloadOf x = none := by
  unfold payloadOf
  split
  · simp [h]
  · rfl

/-- A fault other than `F_BUS` leaves the log as it is, every transaction of it ok. -/
theorem raise_logOk {s : State} (hn : s.fault = .none) (h : LogOk s) {c : FaultCode} (hc : c ≠ .bus)
    (n : BitVec 32) : LogOk (raise c n s) := by
  obtain ⟨hframed, hlast, hok, _, hshown⟩ := h
  exact ⟨hframed, hlast, fun _ => hok (by simp [hn]), fun h => absurd h hc, hshown⟩

theorem transacts_logOk {s t : State} (hn : s.fault = .none) (h : LogOk s) (ht : Transacts s t) : LogOk t := by
  obtain ⟨hframed, _, hok, _, hshown⟩ := h
  replace hok := hok (by simp [hn])
  cases ht with
  | accepted x hx hxok =>
    refine ⟨?_, ?_, fun _ => ?_, fun hf => ?_, ?_⟩
    · simpa [or_imp, forall_and] using ⟨hframed, hx⟩
    · simpa using hok
    · simpa [or_imp, forall_and] using ⟨hok, hxok⟩
    · simp [hn] at hf
    · simp [lastShown_append, hshown]
  | refused x hx hxfail =>
    refine ⟨?_, ?_, fun hf => absurd rfl hf, fun _ => ⟨x, ?_, hxfail, ?_⟩, ?_⟩
    · simpa [or_imp, forall_and] using ⟨hframed, hx⟩
    · simpa using hok
    · simp
    · simp
    · simp [lastShown_append, payloadOf_fail hxfail, hshown]

theorem effect_logOk {k : Kind} {s t : State} (hn : s.fault = .none) (he : Effect k s t) (h : LogOk s) :
    LogOk t := by
  cases he with
  | fault _ c n _ hc => exact raise_logOk hn h hc n
  | command _ d b hd => exact transacts_logOk hn h (busCmd_transacts hd b)
  | data _ d p hd => exact transacts_logOk hn h (busData_transacts hn hd p)
  | _ => exact h

/-! ## The framebuffer's shape (R51) -/

/-- The framebuffer is canonical and inside its size. -/
def FbOk (s : State) : Prop := ∀ d, s.surf = some d → fbWf (s.fbSize d) d.fb

theorem transacts_fbOk {s t : State} (h : FbOk s) (ht : Transacts s t) : FbOk t := by
  cases ht <;> exact h

theorem effect_fbOk {k : Kind} {s t : State} (hn : s.fault = .none) (he : Effect k s t) (h : FbOk s) :
    FbOk t := by
  cases he with
  | pixels _ d fb hd hwf _ => intro d' hd'; cases hd'; exact hwf (h d hd)
  | command _ d b hd => exact transacts_fbOk h (busCmd_transacts hd b)
  | data _ d p hd => exact transacts_fbOk h (busData_transacts hn hd p)
  | release => intro d' hd'; cases hd'
  | allocate _ a f _ => intro d' hd'; cases hd'; exact ⟨.nil, fun _ _ => rfl⟩
  | _ => exact h

/-! ## What the bring-up has set up (R123, R130, R137) -/

/-- While alive and not faulted: every framebuffer byte defined, contrast and orientation commanded. -/
def BroughtUp (s : State) : Prop :=
  ∀ d, s.surf = some d → s.fault = .none →
    fbDefined (s.fbSize d) d.fb ∧ s.shContrast.isSome = true ∧ s.shOrient.isSome = true

/-- While alive and not faulted: READY or OFF. -/
def Powered (s : State) : Prop := s.surf.isSome = true → s.fault = .none → s.pstate ≠ .uninit

theorem broughtUp_of_fault {s : State} (h : s.fault ≠ .none) : BroughtUp s := fun _ _ hn => absurd hn h

theorem powered_of_fault {s : State} (h : s.fault ≠ .none) : Powered s := fun _ hn => absurd hn h

theorem transacts_broughtUp {s t : State} (h : BroughtUp s) (ht : Transacts s t) : BroughtUp t := by
  cases ht with
  | accepted x _ _ => exact h
  | refused x _ _ => exact broughtUp_of_fault (by simp)

theorem effect_broughtUp {k : Kind} {s t : State} (hn : s.fault = .none) (hk : k ≠ .allocate)
    (he : Effect k s t) (h : BroughtUp s) : BroughtUp t := by
  cases he with
  | fault _ c n hc _ => exact broughtUp_of_fault (by simpa using hc)
  | pixels _ d fb hd _ hdef =>
    intro d' hd' _
    cases hd'
    obtain ⟨hfb, hshadow⟩ := h d hd hn
    exact ⟨hdef hfb, hshadow⟩
  | command _ d b hd => exact transacts_broughtUp h (busCmd_transacts hd b)
  | data _ d p hd => exact transacts_broughtUp h (busData_transacts hn hd p)
  | contrast _ v =>
    intro d hd _
    obtain ⟨hfb, _, horient⟩ := h d hd hn
    exact ⟨hfb, rfl, horient⟩
  | orient _ e =>
    intro d hd _
    obtain ⟨hfb, hcontrast, _⟩ := h d hd hn
    exact ⟨hfb, hcontrast, rfl⟩
  | release => intro d' hd'; cases hd'
  | allocate => exact absurd rfl hk
  | refuse => exact absurd rfl hk
  | _ => exact h

theorem transacts_powered {s t : State} (h : Powered s) (ht : Transacts s t) : Powered t := by
  cases ht with
  | accepted x _ _ => exact h
  | refused x _ _ => exact powered_of_fault (by simp)

/-- POWER leads to READY or OFF (R136, R137). -/
theorem powerTarget_ne_uninit (e : PowerArg) : powerTarget e ≠ .uninit := by cases e <;> decide

theorem effect_powered {k : Kind} {s t : State} (hn : s.fault = .none) (hk : k ≠ .allocate)
    (he : Effect k s t) (h : Powered s) : Powered t := by
  cases he with
  | fault _ c n hc _ => exact powered_of_fault (by simpa using hc)
  | pixels _ d fb hd _ _ => exact fun _ _ => h (by simp [hd]) hn
  | command _ d b hd => exact transacts_powered h (busCmd_transacts hd b)
  | data _ d p hd => exact transacts_powered h (busData_transacts hn hd p)
  | power _ e => exact fun _ _ => powerTarget_ne_uninit e
  | release => intro hs; cases hs
  | allocate => exact absurd rfl hk
  | refuse => exact absurd rfl hk
  | _ => exact h

/-- Chains of effects without an allocation keep what the bring-up has set up. -/
theorem effects_broughtUp {K : Kind → Bool} (hK : K .allocate = false) {s t : State} (he : Effects K s t)
    (h : BroughtUp s) : BroughtUp t :=
  he.keeps (fun _ _ _ hn hk => effect_broughtUp hn (ne_of_apply_ne K (by simp [hK, hk]))) h

theorem effects_powered {K : Kind → Bool} (hK : K .allocate = false) {s t : State} (he : Effects K s t)
    (h : Powered s) : Powered t :=
  he.keeps (fun _ _ _ hn hk => effect_powered hn (ne_of_apply_ne K (by simp [hK, hk]))) h

/-! ## CONSTRUCT (R121, R122, R123) -/

/-- Groups 7 and 8 of the bring-up, once contrast and orientation are commanded: the clear defines every
framebuffer byte and the flush keeps that. -/
theorem clearAndFlush_broughtUp {s : State} (hn : s.fault = .none) (hc : s.shContrast.isSome = true)
    (ho : s.shOrient.isSome = true) (d : Surface) (b : Byte) (payload : List Byte) :
    BroughtUp (andThen (fbFill d (List.replicate (s.fbSize d) b) s) (flushBytes d payload)) := by
  have hfill : BroughtUp (fbFill d (List.replicate (s.fbSize d) b) s) := by
    intro d' hd' _
    cases hd'
    have hdef := fbDefined_ofBytes (List.replicate (s.fbSize d) b)
    rw [List.length_replicate] at hdef
    exact ⟨hdef, hc, ho⟩
  rw [andThen_none (by exact hn)]
  exact effects_broughtUp (K := kindsOf .flush) rfl (flushBytes_effects rfl rfl rfl payload) hfill

/-- The bring-up from an empty shadow ends in a fault, or with contrast and orientation commanded and every
framebuffer byte defined: either the transport accepts groups 1 to 6, or its first refusal is recorded. -/
theorem bringUp_broughtUp {s : State} {d : Surface} (hn : s.fault = .none) (hd : s.surf = some d)
    (hc : s.shContrast = none) (ho : s.shOrient = none) : BroughtUp (bringUp d s) := by
  have hs : s = midway s d.devaddr [] none none := by
    cases s; simp_all [midway]
  rw [bringUp, hs]
  obtain hok | ⟨m, hm, hf⟩ := busOk_or_busFailsAt s (bringUpBytes s.cfg d.fam).length
  · rw [bringUpCommands_ok hn hd d.fam hok]
    exact clearAndFlush_broughtUp (by exact hn) rfl rfl d _ _
  · rw [bringUpCommands_fail hn hd d.fam hm hf]
    exact broughtUp_of_fault (by simp [midwayFailed])

/-- CONSTRUCT on a block that is not alive ends in a fault, or brought up and READY. -/
theorem constructBody_broughtUp_powered {s : State} (hn : s.fault = .none) (hs : s.surf = none)
    (a : DevAddr) (f : Family) : BroughtUp (constructBody a f s) ∧ Powered (constructBody a f s) := by
  rw [constructBody, if_neg (by simp [State.alive, hs])]
  by_cases ha : s.allocAnswer = .ok
  · rw [if_pos ha]
    have hup := bringUp_broughtUp (d := ⟨f, a, []⟩)
      (s := allocated a f { s with pstate := .uninit, allocCount := s.allocCount + 1 }) hn rfl rfl rfl
    by_cases hf : (bringUp ⟨f, a, []⟩
        (allocated a f { s with pstate := .uninit, allocCount := s.allocCount + 1 })).fault = .none
    · rw [andThen_none hf]
      exact ⟨hup, fun _ _ => by simp⟩
    · rw [andThen_fault hf]
      exact ⟨hup, powered_of_fault hf⟩
  · rw [if_neg ha]
    exact ⟨broughtUp_of_fault (by simp), powered_of_fault (by simp)⟩

/-! ## Every operation -/

/-- CONSTRUCT alone allocates (R121). -/
theorem kindsOf_allocate (i : Instr) : kindsOf i .allocate = isConstruct i := by cases i <;> rfl

/-- Every operation keeps what the bring-up has set up and the power state: CONSTRUCT by establishing them, on
a live block by its fault (R254), the others because they do not allocate. -/
theorem exec_broughtUp_powered {s t : State} {i : Instr} (hup : BroughtUp s) (hpow : Powered s)
    (h : exec i s = .next t) : BroughtUp t ∧ Powered t := by
  obtain ⟨hn, ⟨d, hd, rfl⟩ | ⟨_, _, rfl⟩ | ⟨hs, a, f, _, rfl⟩⟩ := exec_cases h
  · cases hi : isConstruct i with
    | true =>
      cases i <;> cases hi
      exact ⟨broughtUp_of_fault (by simp [body]), powered_of_fault (by simp [body])⟩
    | false =>
      have hK := (kindsOf_allocate i).trans hi
      have he := body_effects hn hd i
      exact ⟨effects_broughtUp hK he hup, effects_powered hK he hpow⟩
  · exact ⟨broughtUp_of_fault (by simp), powered_of_fault (by simp)⟩
  · exact constructBody_broughtUp_powered hn hs a f

/-! ## The invariant -/

/-- `Inv` of a state in which a word is being executed, from its groups. -/
theorem inv_of_groups {s : State} (hcfg : configOk s.cfg = true) (hxm : xmWf s.xm) (hfb : FbOk s)
    (hup : BroughtUp s) (hpow : Powered s) (hreg : FaultRegsOk s) (hlog : LogOk s) : Inv s := by
  obtain ⟨hword, hnone, hsome⟩ := hreg
  obtain ⟨hframed, hinit, hok, hfail, hshown⟩ := hlog
  exact {
    cfgOk := hcfg
    xmOk := hxm
    fbOk := hfb
    fbFull := fun d hd hn => (hup d hd hn).1
    powered := hpow
    commanded := fun hs hn => by
      obtain ⟨d, hd⟩ := Option.isSome_iff_exists.1 hs
      exact (hup d hd hn).2
    noFault := hnone
    faulted := fun hf => ⟨hsome hf, hsome hf ▸ hword⟩
    logFramed := hframed
    logOk := hinit
    logLast := hok
    logFail := hfail
    shownOk := hshown }

theorem inv_logOk {s : State} (h : Inv s) : LogOk s :=
  ⟨h.logFramed, h.logOk, h.logLast, h.logFail, h.shownOk⟩

theorem inv_broughtUp {s : State} (h : Inv s) : BroughtUp s := fun d hd hn =>
  ⟨h.fbFull d hd hn, h.commanded (by simp [hd]) hn⟩

/-- A chain of effects of an operation keeps `Inv` if it leaves the inputs alone and ends brought up. -/
theorem effects_keep_inv {K : Kind → Bool} {s t : State} (h : Inv s) (hw : s.opWord.isSome = true)
    (he : Effects K s t) (hcfg : t.cfg = s.cfg) (hxm : t.xm = s.xm) (hup : BroughtUp t)
    (hpow : Powered t) : Inv t := by
  have hfb : FbOk t := he.keeps (fun _ _ _ hn _ => effect_fbOk hn) h.fbOk
  have hlog : LogOk t := he.keeps (fun _ _ _ hn _ => effect_logOk hn) (inv_logOk h)
  have hreg : FaultRegsOk t := he.keeps (fun _ _ _ hn _ => effect_faultRegsOk hn)
    ⟨hw, h.noFault, fun hf => (h.faulted hf).1⟩
  exact inv_of_groups (hcfg ▸ h.cfgOk) (hxm ▸ h.xmOk) hfb hup hpow hreg hlog

theorem exec_keeps_inv {s t : State} {i : Instr} (h : Inv s) (hw : s.opWord.isSome = true)
    (he : exec i s = .next t) : Inv t := by
  obtain ⟨hcfg, hxm, _⟩ := exec_keeps_inputs he
  obtain ⟨hup, hpow⟩ := exec_broughtUp_powered (inv_broughtUp h) h.powered he
  exact effects_keep_inv h hw (exec_effects he).2 hcfg hxm hup hpow

theorem raise_illegal_keeps_inv {s : State} (h : Inv s) (hw : s.opWord.isSome = true)
    (hn : s.fault = .none) : Inv (raise .illegal 0 s) :=
  effects_keep_inv (K := fun _ => true) h hw (raise_effects rfl hn (by decide) (by decide) 0) rfl rfl
    (broughtUp_of_fault (by simp)) (powered_of_fault (by simp))

/-- The index moves only where no fault is recorded, so the fault word stays the word it met (R21, R42). -/
theorem retire_keeps_inv {s : State} (h : Inv s) : Inv s.retire := by
  by_cases hn : s.fault = .none
  · rw [State.retire, if_pos hn]
    exact { h with faulted := fun hf => absurd hn hf }
  · rwa [State.retire, if_neg hn]

/-- Settles O51: an operation is a chain of effects, each of which keeps the clauses on the fault registers, the
bus log and the framebuffer's shape; the clauses on a live block are kept by every effect but the allocation,
which the bring-up follows. -/
theorem stepKeepsInvariant : Obligations.StepKeepsInvariant := by
  intro s t h hst
  obtain ⟨hn, w, hw, ⟨i, u, _, hu, rfl⟩ | ⟨_, _, rfl⟩⟩ := step_cases hst
  · exact retire_keeps_inv (exec_keeps_inv h (by simp [hw]) hu)
  · exact raise_illegal_keeps_inv h (by simp [hw]) hn

end Sys2Proof.Proofs
end

section
/-! PROOF. What every step keeps of the state record (10_state.md): no operation reads the shadow (R32), the host's
inputs stay (R12, R38, R59), the bus log is only extended (R36, R62, R100), and a step is the operation its word
decodes to (R21, R120). -/

namespace Sys2Proof.Proofs

open Sys2Proof Sys2Proof.Machine Sys2Proof.Laws

/-! ## The answers of a step, one equation per case (R120) -/

theorem step_stuck {s : State} (hn : s.fault ≠ .none) : step s = .fault .stuck := by simp [step, hn]

theorem step_noWord {s : State} (hn : s.fault = .none) (hw : s.opWord = none) : step s = .fault .noWord := by
  simp [step, hn, hw]

theorem step_illegal {s : State} (hn : s.fault = .none) {w : Word} (hw : s.opWord = some w) {r : Reject}
    (hd : decode w = .error r) : step s = .next (raise .illegal 0 s) := by
  simp [step, hn, hw, runWord, hd]

theorem step_exec {s t : State} (hn : s.fault = .none) {w : Word} (hw : s.opWord = some w) {i : Instr}
    (hd : decode w = .ok i) (he : exec i s = .next t) : step s = .next t.retire := by
  simp [step, hn, hw, runWord, hd, he, retireOutcome]

/-! ## Retiring a word moves the index and the words only (R21) -/

@[simp] theorem retire_cfg (s : State) : s.retire.cfg = s.cfg := by
  unfold State.retire; split <;> rfl

@[simp] theorem retire_xm (s : State) : s.retire.xm = s.xm := by
  unfold State.retire; split <;> rfl

@[simp] theorem retire_surf (s : State) : s.retire.surf = s.surf := by
  unfold State.retire; split <;> rfl

@[simp] theorem retire_buslog (s : State) : s.retire.buslog = s.buslog := by
  unfold State.retire; split <;> rfl

/-- Settles O7: an operation answers a next state with the words and the index as they were, and retiring it
moves both exactly when no fault was recorded. -/
theorem stepRunsTheDecodedOperation : Obligations.StepRunsTheDecodedOperation := by
  intro s w rest i hn hp hd
  obtain ⟨t, ht⟩ := exec_next hn i
  obtain ⟨_, _, hpending, hindex, _, _⟩ := exec_keeps_inputs ht
  refine ⟨t, ht, hpending, hindex, ?_⟩
  have hretire : t.retire = if t.fault = .none then { t with pending := rest, opIndex := s.opIndex + 1 } else t := by
    simp [State.retire, hpending, hindex, hp]
  rw [step_exec hn (by simp [State.opWord, hp]) hd ht, hretire]

/-- Settles O55: `exec` changes neither, nor do retiring a word and the fault entry of an illegal one. -/
theorem externalMemoryIsNeverWritten : Obligations.ExternalMemoryIsNeverWritten := by
  intro s t hst
  obtain ⟨_, w, _, ⟨i, u, _, hu, rfl⟩ | ⟨r, _, rfl⟩⟩ := step_cases hst
  · obtain ⟨hcfg, hxm, _⟩ := exec_keeps_inputs hu
    exact ⟨by simpa using hxm, by simpa using hcfg⟩
  · exact ⟨rfl, rfl⟩

/-! ## The bus log (R36, R62, R100) -/

/-- `t`'s log is `s`'s with one more transaction, framed and to the device `a`; it was ok unless a fault is
recorded. -/
def Appends (s t : State) (a : DevAddr) : Prop :=
  ∃ x, t.buslog = s.buslog ++ [x] ∧ framed x = true ∧ x.addr = a ∧ (t.fault = .none → x.outcome = .ok)

theorem busSend_appends {s : State} {d : Surface} (hd : s.surf = some d) {bytes : List Byte}
    (hf : ∀ o, framed ⟨d.devaddr, bytes, o⟩ = true) : Appends s (busSend bytes s) d.devaddr := by
  obtain ⟨_, e⟩ | ⟨_, e⟩ := busSend_cases hd bytes
  · rw [e]; exact ⟨_, rfl, hf _, rfl, fun _ => rfl⟩
  · rw [e]; exact ⟨_, rfl, hf _, rfl, fun h => by simp at h⟩

theorem busData_appends {s : State} {d : Surface} (hd : s.surf = some d) (p : List Byte) :
    Appends s (busData p s) d.devaddr := by
  have hsend : Appends s (busSend (0x40 :: p) s) d.devaddr := busSend_appends hd fun _ => rfl
  rw [busData]
  by_cases hn : (busSend (0x40 :: p) s).fault = .none
  · rw [andThen_none hn]; exact hsend
  · rw [andThen_fault hn]; exact hsend

theorem busData_surf (s : State) (p : List Byte) : (busData p s).surf = s.surf :=
  andThen_rel (R := fun s t : State => t.surf = s.surf) (fun h1 h2 => h2.trans h1) (busSend_surf s _) fun _ => rfl

/-- The device address of the constructed surface (R27). -/
def device (s : State) : Option DevAddr := s.surf.map Surface.devaddr

theorem device_eq_some_iff {s : State} {a : DevAddr} :
    device s = some a ↔ ∃ d, s.surf = some d ∧ d.devaddr = a := Option.map_eq_some_iff

/-- An elementary effect leaves the log as it is, or appends one transaction to the surface's device. -/
theorem effect_buslog {k : Kind} {s t : State} (he : Effect k s t) :
    t.buslog = s.buslog ∨ ∃ a, device t = some a ∧ Appends s t a := by
  cases he with
  | command _ d b hd =>
    exact .inr ⟨d.devaddr, device_eq_some_iff.2 ⟨d, by rw [busCmd, busSend_surf, hd], rfl⟩,
      busSend_appends hd fun _ => rfl⟩
  | data _ d p hd =>
    exact .inr ⟨d.devaddr, device_eq_some_iff.2 ⟨d, by rw [busData_surf, hd], rfl⟩, busData_appends hd p⟩
  | _ => exact .inl rfl

/-- Only the release of the surface takes the device away. -/
theorem effect_device {k : Kind} {s t : State} (hk : k ≠ .release) (he : Effect k s t) {a : DevAddr}
    (h : device s = some a) : device t = some a := by
  cases he with
  | pixels _ d fb hd _ _ => simpa [device, hd] using h
  | command _ d b hd => rwa [device, busCmd, busSend_surf]
  | data _ d p hd => rwa [device, busData_surf]
  | release => exact absurd rfl hk
  | allocate _ b f hs => simp [device, hs] at h
  | _ => exact h

/-- `t`'s log extends `s`'s by framed transactions to `t`'s device, all but the last ok, and the last as well
while no fault is recorded. -/
def LogExtends (s t : State) : Prop :=
  ∃ l, t.buslog = s.buslog ++ l ∧ (∀ x ∈ l, framed x = true ∧ device t = some x.addr) ∧
    (∀ x ∈ l.dropLast, x.outcome = .ok) ∧ (t.fault = .none → ∀ x ∈ l, x.outcome = .ok)

theorem logExtends_of_buslog_eq {s t : State} (h : t.buslog = s.buslog) : LogExtends s t :=
  ⟨[], by simp [h], by simp, by simp, by simp⟩

theorem effect_logExtends {k : Kind} {s m t : State} (hn : m.fault = .none) (hk : k ≠ .release)
    (he : Effect k m t) (h : LogExtends s m) : LogExtends s t := by
  obtain ⟨l, hl, hnew, _, hok⟩ := h
  replace hok := hok hn
  have hnew' : ∀ x ∈ l, framed x = true ∧ device t = some x.addr := fun x hx =>
    ⟨(hnew x hx).1, effect_device hk he (hnew x hx).2⟩
  obtain hsame | ⟨a, ha, x, hlog, hx, rfl, hxok⟩ := effect_buslog he
  · exact ⟨l, hsame.trans hl, hnew', fun y hy => hok y (List.mem_of_mem_dropLast hy), fun _ => hok⟩
  · refine ⟨l ++ [x], by simp [hlog, hl], ?_, by simpa using hok, fun ht => ?_⟩
    · exact List.forall_mem_append.2 ⟨hnew', List.forall_mem_singleton.2 ⟨hx, ha⟩⟩
    · exact List.forall_mem_append.2 ⟨hok, List.forall_mem_singleton.2 (hxok ht)⟩

/-- A chain of effects without a transaction leaves the log as it is. -/
theorem effects_buslog {K : Kind → Bool} (hc : K .command = false) (hd : K .data = false) {s t : State}
    (he : Effects K s t) : t.buslog = s.buslog :=
  he.rel (R := fun s t => t.buslog = s.buslog) (fun _ => rfl) (fun h1 h2 => h2.trans h1) fun k s t _ hk he => by
    cases he with
    | command => simp [hc] at hk
    | data => simp [hd] at hk
    | _ => rfl

theorem kindsOf_command (i : Instr) : kindsOf i .command = emits i := by cases i <;> rfl

/-- Only operations that emit transactions send data (R65, R102). -/
theorem kindsOf_data_and_not_emits (i : Instr) : (kindsOf i .data && !emits i) = false := by cases i <;> rfl

/-- No operation that emits transactions releases the surface (R65, R124). -/
theorem kindsOf_release_and_emits (i : Instr) : (kindsOf i .release && emits i) = false := by cases i <;> rfl

/-- Every operation extends the log: one that emits nothing leaves it, and the others keep their device. -/
theorem exec_logExtends {s t : State} {i : Instr} (h : exec i s = .next t) : LogExtends s t := by
  have he := (exec_effects h).2
  cases hi : emits i with
  | false =>
    have hdata : kindsOf i .data = false := by simpa [hi] using kindsOf_data_and_not_emits i
    exact logExtends_of_buslog_eq (effects_buslog ((kindsOf_command i).trans hi) hdata he)
  | true =>
    have hrelease : kindsOf i .release = false := by simpa [hi] using kindsOf_release_and_emits i
    exact he.keeps
      (fun _ _ _ hn hk => effect_logExtends hn (ne_of_apply_ne (kindsOf i) (by simp [hrelease, hk])))
      (logExtends_of_buslog_eq rfl)

/-- Settles O56: an operation is a chain of effects, each of which appends at most one transaction, and none
after a fault. -/
theorem busLogOnlyGrows : Obligations.BusLogOnlyGrows := by
  intro s t hst
  obtain ⟨_, w, _, ⟨i, u, _, hu, rfl⟩ | ⟨r, _, rfl⟩⟩ := step_cases hst
  · obtain ⟨l, hl, hnew, hinit, _⟩ := exec_logExtends hu
    refine ⟨l, by rw [retire_buslog, hl], fun x hx => ?_, hinit⟩
    obtain ⟨hframed, hdev⟩ := hnew x hx
    obtain ⟨d, hd, ha⟩ := device_eq_some_iff.1 hdev
    exact ⟨hframed, d, by rw [retire_surf, hd], ha.symm⟩
  · exact ⟨[], by simp⟩

/-! ## The fields that no operation reads (R32, R268) -/

/-- The fields that no operation reads, blanked: the shadow (R32) if `sh`, the power state (R268) if `pw`. -/
def blank (sh pw : Bool) (s : State) : State :=
  { s with
    pstate := if pw then .uninit else s.pstate
    shContrast := if sh then none else s.shContrast
    shInvert := if sh then none else s.shInvert
    shOrient := if sh then none else s.shOrient }

theorem blank_shadow : blank true false = eraseShadow := rfl

section
variable {sh pw : Bool}

@[simp] theorem blank_surf (s : State) : (blank sh pw s).surf = s.surf := rfl
@[simp] theorem blank_font (s : State) : (blank sh pw s).font = s.font := rfl
@[simp] theorem blank_fault (s : State) : (blank sh pw s).fault = s.fault := rfl
@[simp] theorem blank_opWord (s : State) : (blank sh pw s).opWord = s.opWord := rfl

theorem blank_blank (s : State) : blank sh pw (blank sh pw s) = blank sh pw s := by
  cases sh <;> cases pw <;> rfl

/-- States that agree but for the blanked fields have recorded the same fault. -/
theorem fault_eq_of_agree {s t : State} (h : blank sh pw s = blank sh pw t) : s.fault = t.fault := by
  simpa using congrArg State.fault h

theorem surf_eq_of_agree {s t : State} (h : blank sh pw s = blank sh pw t) : s.surf = t.surf := by
  simpa using congrArg State.surf h

theorem opWord_eq_of_agree {s t : State} (h : blank sh pw s = blank sh pw t) : s.opWord = t.opWord := by
  simpa using congrArg State.opWord h

/-- `f` does not read the blanked fields: blanking them first changes `f`'s effect in these fields at most. -/
def Ignores (sh pw : Bool) (f : State → State) : Prop :=
  ∀ s, blank sh pw (f s) = blank sh pw (f (blank sh pw s))

/-- What neither reads nor writes the blanked fields. -/
theorem ignores_of_commutes {f : State → State} (h : ∀ s, blank sh pw (f s) = f (blank sh pw s)) :
    Ignores sh pw f := fun s => by rw [h, h, blank_blank]

/-- From states that agree but for the blanked fields, to states that do. -/
theorem Ignores.agree {f : State → State} (hf : Ignores sh pw f) {s t : State}
    (h : blank sh pw s = blank sh pw t) : blank sh pw (f s) = blank sh pw (f t) := by
  rw [hf s, h, ← hf t]

/-! ### Sequencing -/

/-- A conditional whose condition does not read the blanked fields. -/
theorem agree_ite {p q : Prop} [Decidable p] [Decidable q] {a b a' b' : State} (hpq : p ↔ q)
    (ha : blank sh pw a = blank sh pw a') (hb : blank sh pw b = blank sh pw b') :
    blank sh pw (if p then a else b) = blank sh pw (if q then a' else b') := by
  by_cases hp : p
  · rwa [if_pos hp, if_pos (hpq.1 hp)]
  · rwa [if_neg hp, if_neg (hp ∘ hpq.2)]

theorem ignores_id : Ignores sh pw id := fun s => (blank_blank s).symm

theorem Ignores.comp {f g : State → State} (hg : Ignores sh pw g) (hf : Ignores sh pw f) :
    Ignores sh pw fun s => g (f s) := fun s => hg.agree (hf s)

theorem Ignores.andThen {f g : State → State} (hf : Ignores sh pw f) (hg : Ignores sh pw g) :
    Ignores sh pw fun s => Machine.andThen (f s) g := by
  intro s
  dsimp only
  have hfault := fault_eq_of_agree (hf s)
  by_cases hn : (f s).fault = .none
  · rw [andThen_none hn, andThen_none (hfault ▸ hn)]
    exact hg.comp hf s
  · rw [andThen_fault hn, andThen_fault (hfault ▸ hn)]
    exact hf s

theorem forEach_ignores {α : Type} {f : α → State → State} (hf : ∀ a, Ignores sh pw (f a)) (as : List α) :
    Ignores sh pw (forEach f as) := by
  induction as with
  | nil => exact ignores_id
  | cons a as ih => exact ignores_id.andThen (ih.comp (hf a))

/-! ### The shared operations -/

theorem raise_ignores (c : FaultCode) (n : BitVec 32) : Ignores sh pw (raise c n) :=
  ignores_of_commutes fun _ => rfl

theorem setRes_ignores (v : BitVec 32) : Ignores sh pw (setRes v) := ignores_of_commutes fun _ => rfl

theorem withFb_ignores (d : Surface) (fb : Memory) : Ignores sh pw (·.withFb d fb) :=
  ignores_of_commutes fun _ => rfl

theorem fbFill_ignores (d : Surface) (bytes : List Byte) : Ignores sh pw (fbFill d bytes) :=
  withFb_ignores d _

theorem fbWrite_ignores (d : Surface) (i : Nat) (v : Byte) : Ignores sh pw (fbWrite d i v) := fun s =>
  agree_ite Iff.rfl (withFb_ignores d _ s) (raise_ignores _ _ s)

theorem plot_ignores (x y : Int) (c : Colour) : Ignores sh pw (plot x y c) := by
  intro s
  simp only [plot, blank_surf]
  cases s.surf with
  | none => exact ignores_id s
  | some d =>
    exact agree_ite Iff.rfl (agree_ite Iff.rfl (fbWrite_ignores d _ _ s) (raise_ignores _ _ s)) (ignores_id s)

theorem plotAll_ignores (c : Colour) (ps : List (Int × Int)) : Ignores sh pw (plotAll c ps) :=
  forEach_ignores (fun _ => plot_ignores _ _ c) ps

theorem withMem_ignores (a n : Nat) {k : List Byte → State → State} (hk : ∀ bs, Ignores sh pw (k bs)) :
    Ignores sh pw (withMem a n k) := by
  intro s
  cases h : memRead s.xm a n with
  | ok bs => rw [withMem_ok h, withMem_ok (s := blank sh pw s) h]; exact hk bs s
  | error info => rw [withMem_error h, withMem_error (s := blank sh pw s) h]; exact raise_ignores _ _ s

theorem busSend_ignores (bytes : List Byte) : Ignores sh pw (busSend bytes) := by
  intro s
  simp only [busSend, blank_surf]
  cases s.surf with
  | none => exact ignores_id s
  | some d =>
    have hlog : Ignores sh pw fun t =>
        { t with surf := some d, buslog := s.buslog ++ [⟨d.devaddr, bytes, s.busAnswer s.buslog.length⟩] } :=
      ignores_of_commutes fun _ => rfl
    exact agree_ite Iff.rfl (hlog s) ((raise_ignores _ _).comp hlog s)

theorem busCmds_ignores (bs : List Byte) : Ignores sh pw (busCmds bs) :=
  forEach_ignores (fun _ => busSend_ignores _) bs

/-- A command byte that the parameters give. -/
theorem busCmd_cfg_ignores (b : Config → Byte) : Ignores sh pw fun s => busCmd (b s.cfg) s := fun s =>
  busSend_ignores [0x00, b s.cfg] s

/-- Command bytes that the parameters give. -/
theorem busCmds_cfg_ignores (bs : Config → List Byte) : Ignores sh pw fun s => busCmds (bs s.cfg) s := fun s =>
  busCmds_ignores (bs s.cfg) s

theorem busData_ignores (payload : List Byte) : Ignores sh pw (busData payload) :=
  (busSend_ignores _).andThen (ignores_of_commutes fun _ => rfl)

theorem flushBytes_ignores (d : Surface) (payload : List Byte) : Ignores sh pw (flushBytes d payload) :=
  (busCmds_cfg_ignores (flushWinOf · d.fam)).andThen (busData_ignores payload)

/-! ### Glyphs -/

theorem withGlyphParams_ignores {k : Nat → Nat → Nat → State → State}
    (hk : ∀ f H W, Ignores sh pw (k f H W)) : Ignores sh pw (withGlyphParams k) := by
  intro s
  simp only [withGlyphParams, blank_font]
  cases s.font with
  | none => exact raise_ignores _ _ s
  | some f => exact withMem_ignores _ _ (fun bs => hk _ _ _) s

theorem drawGlyph_ignores (x y : Int) (ch : Nat) (c : Colour) : Ignores sh pw (drawGlyph x y ch c) := by
  have hcol (H base col : Nat) : Ignores sh pw (drawColumn x y c H base col) :=
    withMem_ignores _ _ fun bs => plotAll_ignores c _
  exact fun s => agree_ite Iff.rfl
    (withGlyphParams_ignores (fun f H W => forEach_ignores (hcol H _) _) s) (ignores_id s)

theorem drawString_ignores (y : Int) (c : Colour) (n : Nat) (cx : Int) (a : Nat) :
    Ignores sh pw (drawString y c n cx a) := by
  induction n generalizing cx a with
  | zero => exact ignores_id
  | succ n ih =>
    exact withMem_ignores _ _ fun bs =>
      (drawGlyph_ignores cx y _ c).andThen (withGlyphParams_ignores fun f H W => ih _ _)

/-! ### The writes of the blanked fields -/

theorem setContrast_ignores (v : Option Byte) : Ignores sh pw fun s => { s with shContrast := v } := fun _ => by
  cases sh <;> cases pw <;> rfl

theorem setInvert_ignores (v : Option InvertMode) : Ignores sh pw fun s => { s with shInvert := v } := fun _ => by
  cases sh <;> cases pw <;> rfl

theorem setOrient_ignores (v : Option Orientation) : Ignores sh pw fun s => { s with shOrient := v } := fun _ => by
  cases sh <;> cases pw <;> rfl

theorem setPower_ignores (p : PowerState) : Ignores sh pw fun s => { s with pstate := p } := fun _ => by
  cases sh <;> cases pw <;> rfl

/-! ### Every operation -/

theorem body_ignores (i : Instr) (d : Surface) : Ignores sh pw (body i d) := by
  intro s
  cases i with
  | construct => exact raise_ignores _ _ s
  | destruct => exact ignores_of_commutes (f := fun s => { s with surf := none }) (fun _ => rfl) s
  | setpix x y c => exact plot_ignores x y c s
  | clear c => exact agree_ite Iff.rfl (raise_ignores _ _ s) (fbFill_ignores d _ s)
  | flush => exact flushBytes_ignores d (fbBytesOf s d) s
  | flushx a => exact withMem_ignores _ (s.fbSize d) (fun bs => flushBytes_ignores d bs) s
  | loadbmp a => exact withMem_ignores _ (s.fbSize d) (fun bs => fbFill_ignores d bs) s
  | contrast v => exact (busCmds_cfg_ignores fun cfg => [cfg.cmd.contrast, v]).andThen (setContrast_ignores _) s
  | invert e => exact (busCmd_cfg_ignores (invertByte ·.cmd e)).andThen (setInvert_ignores _) s
  | orient e => exact (busCmds_cfg_ignores (orientBytes ·.cmd e)).andThen (setOrient_ignores _) s
  | power e => exact (busCmd_cfg_ignores (powerByte ·.cmd e)).andThen (setPower_ignores _) s
  | getbufsz => exact setRes_ignores (BitVec.ofNat 32 (s.fbSize d)) s
  | getw => exact setRes_ignores (BitVec.ofNat 32 (s.geom d).width) s
  | geth => exact setRes_ignores (BitVec.ofNat 32 (s.geom d).height) s
  | rdfb idx => exact agree_ite Iff.rfl (setRes_ignores _ s) (raise_ignores _ _ s)
  | line x0 y0 x1 y1 c => exact plotAll_ignores c _ s
  | hline x y w c => exact plotAll_ignores c _ s
  | vline x y h c => exact plotAll_ignores c _ s
  | rect x y w h c => exact plotAll_ignores c _ s
  | frect x y w h c => exact plotAll_ignores c _ s
  | pbar x y w h p c => exact plotAll_ignores c _ s
  | char x y ch c => exact drawGlyph_ignores x y ch c s
  | string x y a len c => exact drawString_ignores y c len x _ s
  | setfont a => exact ignores_of_commutes (f := fun s => { s with font := some a }) (fun _ => rfl) s
  | getfont =>
    simp only [body, blank_font]
    cases s.font with
    | some f => exact setRes_ignores f s
    | none => exact raise_ignores _ _ s

theorem bringUpCommands_ignores (f : Family) : Ignores sh pw (bringUpCommands f) := by
  refine (busCmd_cfg_ignores (·.cmd.displayOff)).andThen ?_
  refine (busCmds_cfg_ignores (·.cmd.addrModeSeq)).andThen ?_
  refine (busCmds_cfg_ignores fun cfg => [cfg.cmd.contrast, 0xFF]).andThen ?_
  refine (setContrast_ignores _).andThen ?_
  refine (busCmds_cfg_ignores (·.cmd.orientNormal)).andThen ?_
  refine (setOrient_ignores _).andThen ?_
  exact (busCmds_cfg_ignores (bringupOf · f)).andThen (busCmd_cfg_ignores (·.cmd.displayOn))

theorem bringUp_ignores (d : Surface) : Ignores sh pw (bringUp d) :=
  (bringUpCommands_ignores d.fam).andThen fun s =>
    (fbFill_ignores d (List.replicate (s.fbSize d) 0x00)).andThen (flushBytes_ignores d _) s

/-- CONSTRUCT writes the shadow and the power state and reads neither (R121). -/
theorem constructBody_ignores (a : DevAddr) (f : Family) : Ignores sh pw (constructBody a f) := by
  have hdraw : Ignores sh pw fun s => { s with pstate := .uninit, allocCount := s.allocCount + 1 } := fun _ => by
    cases sh <;> cases pw <;> rfl
  have halloc : Ignores sh pw (allocated a f) := fun _ => by cases sh <;> cases pw <;> rfl
  have hup : Ignores sh pw fun s => Machine.andThen
      (bringUp ⟨f, a, []⟩ (allocated a f { s with pstate := .uninit, allocCount := s.allocCount + 1 }))
      fun s => { s with pstate := .ready } :=
    ((bringUp_ignores _).comp (halloc.comp hdraw)).andThen (setPower_ignores _)
  exact fun s => agree_ite Iff.rfl (raise_ignores _ _ s)
    (agree_ite Iff.rfl (hup s) ((raise_ignores _ _).comp hdraw s))

/-! ### Every step -/

theorem retire_ignores : Ignores sh pw State.retire := fun s =>
  agree_ite Iff.rfl
    (ignores_of_commutes (f := fun s => { s with pending := s.pending.tail, opIndex := s.opIndex + 1 })
      (fun _ => rfl) s)
    (ignores_id s)

/-- An operation on two blocks without a fault that agree but for the blanked fields. -/
theorem exec_agree {s t : State} (hn : s.fault = .none) (h : blank sh pw s = blank sh pw t) (i : Instr) :
    ∃ u v, exec i s = .next u ∧ exec i t = .next v ∧ blank sh pw u = blank sh pw v := by
  have hn' : t.fault = .none := fault_eq_of_agree h ▸ hn
  cases hd : s.surf with
  | some d =>
    have hd' : t.surf = some d := surf_eq_of_agree h ▸ hd
    exact ⟨_, _, exec_live ⟨hn, hd⟩ i, exec_live ⟨hn', hd'⟩ i, (body_ignores i d).agree h⟩
  | none =>
    have hd' : t.surf = none := surf_eq_of_agree h ▸ hd
    cases hi : isConstruct i with
    | false => exact ⟨_, _, exec_dead hn hd hi, exec_dead hn' hd' hi, (raise_ignores _ _).agree h⟩
    | true =>
      cases i <;> cases hi
      exact ⟨_, _, exec_construct hn _ _, exec_construct hn' _ _, (constructBody_ignores _ _).agree h⟩

/-- Blocks that agree but for the blanked fields take steps that agree but for them. -/
theorem step_agree {s t : State} (h : blank sh pw s = blank sh pw t) :
    agreeUpTo (blank sh pw) (step s) (step t) := by
  have hf := fault_eq_of_agree h
  have ho := opWord_eq_of_agree h
  by_cases hn : s.fault = .none
  · cases hw : s.opWord with
    | none =>
      rw [step_noWord hn hw, step_noWord (hf ▸ hn) (ho ▸ hw)]
      exact rfl
    | some w =>
      cases hd : decode w with
      | error r =>
        rw [step_illegal hn hw hd, step_illegal (hf ▸ hn) (ho ▸ hw) hd]
        exact (raise_ignores _ _).agree h
      | ok i =>
        obtain ⟨u, v, hu, hv, huv⟩ := exec_agree hn h i
        rw [step_exec hn hw hd hu, step_exec (hf ▸ hn) (ho ▸ hw) hd hv]
        exact retire_ignores.agree huv
  · rw [step_stuck hn, step_stuck (hf ▸ hn)]
    exact rfl

end

/-- Settles O58: the operations are built from parts that ignore the shadow, so states that differ only in it
step to states that do. -/
theorem shadowIsNeverRead : Obligations.ShadowIsNeverRead := by
  intro s c v o
  rw [← blank_shadow]
  exact step_agree rfl

end Sys2Proof.Proofs
end

section
/-! PROOF. Memories, access and side effects (20_memory.md): every operation of an unfaulted block answers a next
state (R64), which operations reach the bus (R65), what a second pixel-set on the same pixel does (R65), the host's
moves and XM (R59), sources in XM that are not wholly defined (R60), and the read-back of a loaded bitmap (R74). -/

namespace Sys2Proof.Proofs

open Sys2Proof Sys2Proof.Machine Sys2Proof.Laws

/-- Settles O11: on a live block it is the operation's body, on another CONSTRUCT's or the entry of `F_STATE`. -/
theorem everyOperationAnswersNext : Obligations.EveryOperationAnswersNext := fun _ i hn => exec_next hn i

/-! ## Which operations emit and which change what is shown (R65, R297) -/

/-- An operation that emits no transactions leaves the log as it is (R65). -/
theorem exec_buslog_of_not_emits {s t : State} {i : Instr} (hi : emits i = false) (h : exec i s = .next t) :
    t.buslog = s.buslog := by
  have hdata : kindsOf i .data = false := by simpa [hi] using kindsOf_data_and_not_emits i
  exact effects_buslog ((kindsOf_command i).trans hi) hdata (exec_effects h).2

/-- A command transaction shows nothing (R37, R101). -/
theorem busCmd_shown (b : Byte) (s : State) : (busCmd b s).shown = s.shown := by
  cases hd : s.surf with
  | none => rw [busCmd, busSend_none hd]
  | some d =>
    obtain ⟨_, e⟩ | ⟨_, e⟩ := busSend_cases hd [0x00, b]
    · rw [busCmd, e]
    · rw [busCmd, e, raise_shown]

/-- A chain of effects without a data transaction leaves what is shown as it is (R37). -/
theorem effects_shown {K : Kind → Bool} (hK : K .data = false) {s t : State} (he : Effects K s t) :
    t.shown = s.shown :=
  he.rel (R := fun s t => t.shown = s.shown) (fun _ => rfl) (fun h1 h2 => h2.trans h1) fun k s t _ hk he => by
    cases he with
    | command _ d b _ => exact busCmd_shown b s
    | data => simp [hK] at hk
    | _ => rfl

/-- The operations that send data transactions (R102, R121, R130, R131). -/
theorem kindsOf_data_iff (i : Instr) :
    kindsOf i .data = true ↔ isConstruct i = true ∨ i = .flush ∨ ∃ a, i = .flushx a := by
  cases i <;> simp [kindsOf, isConstruct]

/-- Settles O57: an operation is a chain of effects, of which only transactions reach the log and only data
transactions change what is shown. -/
theorem onlyEmittersReachTheBus : Obligations.OnlyEmittersReachTheBus := by
  intro s t i h
  refine ⟨fun hi => exec_buslog_of_not_emits hi h, fun hshown => (kindsOf_data_iff i).1 ?_⟩
  by_contra hdata
  exact hshown (effects_shown (by simpa using hdata) (exec_effects h).2)

/-! ## The pixel-set twice (R65, R125) -/

theorem applyColour_toggle_toggle (k : Nat) (v : Byte) :
    applyColour .toggle k (applyColour .toggle k v) = v := by simp [applyColour]

theorem applyColour_idem {c : Colour} (hc : c = .set ∨ c = .clear) (k : Nat) (v : Byte) :
    applyColour c k (applyColour c k v) = applyColour c k v := by
  obtain rfl | rfl := hc
  · simp [applyColour, BitVec.or_assoc]
  · simp [applyColour, BitVec.and_assoc]

/-- A pixel inside the bounds and the buffer: its byte is written, with the colour applied to its bit (R126). -/
theorem plot_inside {s : State} {d : Surface} (hd : s.surf = some d) {x y : Int}
    (hb : inBounds (s.geom d) x y = true) (ha : (pixelAddr (s.geom d) x y).1 < s.fbSize d) {v : Byte}
    (hv : d.fb.read (pixelAddr (s.geom d) x y).1 = some v) (c : Colour) :
    plot x y c s = s.withFb d
      (d.fb.write (pixelAddr (s.geom d) x y).1 (applyColour c (pixelAddr (s.geom d) x y).2 v)) := by
  simp [plot, hd, hb, ha, fbWrite_in ha, fbRead_eq hv]

/-- Two pixel-sets of one pixel, the first without a fault: it has no effect, or both write one byte, each
applying the colour to it once. -/
theorem plot_plot {s : State} {d : Surface} (h : Ready s d) (x y : Int) (c : Colour)
    (hn : (plot x y c s).fault = .none) :
    plot x y c s = s ∨ ∃ a k v, d.fb.read a = some v ∧
      plot x y c s = s.withFb d (d.fb.write a (applyColour c k v)) ∧
      plot x y c (plot x y c s) = s.withFb d (d.fb.write a (applyColour c k (applyColour c k v))) := by
  obtain ⟨⟨_, hd⟩, ⟨hwf, _⟩, hdef⟩ := h
  obtain ⟨_, hskip⟩ | ⟨hb, ha, _⟩ | ⟨_, _, hpast⟩ := plot_cases hd x y c
  · exact .inl hskip
  · obtain ⟨v, hv⟩ := Option.isSome_iff_exists.1 (hdef _ ha)
    have hfirst := plot_inside hd hb ha hv c
    refine .inr ⟨_, _, v, hv, hfirst, ?_⟩
    have hsecond (w : Byte) := plot_inside (withFb_surf s d (d.fb.write (pixelAddr (s.geom d) x y).1 w)) hb ha
      (read_write_same d.fb _ w) c
    rw [hfirst, hsecond]
    exact congrArg (s.withFb d) (write_write hwf _ _ _)
  · simp [hpast] at hn

theorem plot_toggle_toggle {s : State} {d : Surface} (h : Ready s d) {x y : Int}
    (hn : (plot x y .toggle s).fault = .none) : plot x y .toggle (plot x y .toggle s) = s := by
  obtain hskip | ⟨a, k, v, hv, _, htwice⟩ := plot_plot h x y .toggle hn
  · rw [hskip, hskip]
  · obtain ⟨⟨_, hd⟩, ⟨hwf, _⟩, _⟩ := h
    rw [htwice, applyColour_toggle_toggle, write_read_self hwf hv, withFb_self s d hd]

theorem plot_idem {s : State} {d : Surface} (h : Ready s d) {x y : Int} {c : Colour}
    (hc : c = .set ∨ c = .clear) (hn : (plot x y c s).fault = .none) :
    plot x y c (plot x y c s) = plot x y c s := by
  obtain hskip | ⟨a, k, v, _, honce, htwice⟩ := plot_plot h x y c hn
  · rw [hskip, hskip]
  · rw [htwice, applyColour_idem hc, honce]

/-- The pixel-set takes no surface away (R126). -/
theorem plot_surf_exists (x y : Int) (c : Colour) {s : State} {d : Surface} (hd : s.surf = some d) :
    ∃ d', (plot x y c s).surf = some d' := by
  obtain ⟨_, e⟩ | ⟨_, _, e⟩ | ⟨_, _, e⟩ := plot_cases hd x y c
  · exact ⟨d, by rw [e, hd]⟩
  · exact ⟨_, by rw [e, withFb_surf]⟩
  · exact ⟨d, by rw [e, raise_surf, hd]⟩

/-- SETPIX on a live block is the pixel-set (R126), and so is a second one after it, if it raised no fault. -/
theorem exec_setpix_setpix {s t : State} {d : Surface} (h : Live s d) {x y : Int} {c : Colour}
    (he : exec (.setpix x y c) s = .next t) (hn : t.fault = .none) :
    t = plot x y c s ∧ exec (.setpix x y c) t = .next (plot x y c t) := by
  rw [exec_live h] at he
  cases he
  obtain ⟨_, hd⟩ := h
  obtain ⟨d', hd'⟩ := plot_surf_exists x y c hd
  exact ⟨rfl, exec_live ⟨hn, hd'⟩ _⟩

/-- Settles O18: both pixel-sets write one byte, TOGGLE undoes itself in it and SET and CLEAR are idempotent. -/
theorem setpixTwice : Obligations.SetpixTwice := by
  intro s d x y t h
  refine ⟨fun he hn => ?_, fun c hc he hn => ?_⟩
  · obtain ⟨rfl, hsecond⟩ := exec_setpix_setpix h.1 he hn
    rw [hsecond, plot_toggle_toggle h hn]
  · obtain ⟨rfl, hsecond⟩ := exec_setpix_setpix h.1 he hn
    rw [hsecond, plot_idem h hc hn]

/-! ## The host's moves (R59, R275, R290) -/

/-- A byte of XM changed. `xmWf` is `fbWf` at the size of XM. -/
theorem xmWf_write {xm : Memory} (h : xmWf xm) (a : XAddr) (v : Byte) : xmWf (xm.write a.toNat v) :=
  fbWf_write h a.isLt v

theorem xmWf_erase {xm : Memory} (h : xmWf xm) (a : Nat) : xmWf (xm.erase a) := by
  obtain ⟨hwf, htop⟩ := h
  refine ⟨erase_wf hwf a, fun i hi => ?_⟩
  rw [read_erase, htop i hi, ite_self]

/-- The block reset meets `Inv` for every parameter table and XM that the spec allows (R290). -/
theorem resetWith_inv {cfg : Config} {xm : Memory} (hcfg : configOk cfg = true) (hxm : xmWf xm)
    (busScript allocScript : List Answer) : Inv (State.resetWith cfg xm busScript allocScript) where
  cfgOk := hcfg
  xmOk := hxm
  fbOk := by simp
  fbFull := by simp
  powered := by simp
  commanded := by simp
  noFault := by simp
  faulted := by simp
  logFramed := by simp
  logOk := by simp
  logLast := by simp
  logFail := by simp
  shownOk := rfl

/-- Words behind the one being executed are not the recorded fault's (R21, R42). -/
theorem issue_keeps_inv {s : State} (h : Inv s) (w : Word) : Inv (hostMove (.issue w) s) := by
  refine { h with faulted := fun hf => ?_ }
  obtain ⟨hword, hsome⟩ := h.faulted hf
  have hhead : (s.pending ++ [w]).head? = s.pending.head? :=
    List.head?_append_of_ne_nil _ fun hnil => by simp [hword, State.opWord, hnil] at hsome
  exact ⟨hword.trans hhead.symm, hsome⟩

/-- Settles O53: a word handed over and an XM byte changed each leave the clauses on everything else, and the block
reset meets every clause anew. -/
theorem hostMovesKeepInvariant : Obligations.HostMovesKeepInvariant := by
  intro s m h
  match m with
  | .issue w => exact issue_keeps_inv h w
  | .setXm a (some v) => exact { h with xmOk := xmWf_write h.xmOk a v }
  | .setXm a none => exact { h with xmOk := xmWf_erase h.xmOk a.toNat }
  | .blockReset => exact resetWith_inv h.cfgOk h.xmOk _ _

/-! ## Sources in XM that are not wholly defined (R60, R257) -/

theorem firstUndefined_eq_some {xm : Memory} {a n q : Nat} (hlo : a ≤ q) (hhi : q < a + n) (htop : q < 2 ^ 32)
    (hq : xm.read q = none) (hfirst : ∀ q', a ≤ q' → q' < q → xm.read q' ≠ none) :
    firstUndefined xm a n = some q := by
  obtain ⟨i, rfl⟩ := Nat.exists_eq_add_of_le hlo
  have hi : (List.range n).find? (fun j => decide (a + j < 2 ^ 32) && (xm.read (a + j)).isNone) = some i := by
    refine List.find?_range_eq_some.2 ⟨by simpa [hq] using htop, List.mem_range.2 (by omega), fun j hj => ?_⟩
    simp [Option.isSome_iff_ne_none.2 (hfirst (a + j) (by omega) (by omega))]
  rw [firstUndefined, List.find?_map]
  exact congrArg _ hi

theorem firstUndefined_eq_none {xm : Memory} {a n : Nat}
    (h : ∀ q, a ≤ q → q < 2 ^ 32 → xm.read q ≠ none) : firstUndefined xm a n = none := by
  simp only [firstUndefined, List.find?_eq_none, List.mem_map]
  rintro _ ⟨i, _, rfl⟩ hi
  simp only [Bool.and_eq_true, decide_eq_true_eq, Option.isNone_iff_eq_none] at hi
  obtain ⟨htop, hnone⟩ := hi
  exact h (a + i) (Nat.le_add_right a i) htop hnone

/-- A read that meets an undefined byte records the first one, or that it passes the top of XM (R60, R252; log
entry 10). -/
theorem memRead_undefined {xm : Memory} {a n q : Nat} (h : firstUndefined xm a n = some q) :
    ∃ info, memRead xm a n = .error info ∧
      (info = BitVec.ofNat 32 q ∨ (2 ^ 32 < a + n ∧ info = 0xFFFFFFFF)) := by
  by_cases htop : 2 ^ 32 < a + n
  · cases hfree : Config.topReportedFirst a with
    | true => exact ⟨_, by simp only [memRead, if_pos htop, h, hfree, if_true], .inr ⟨htop, rfl⟩⟩
    | false => exact ⟨_, by simp only [memRead, if_pos htop, h, hfree, Bool.false_eq_true, if_false], .inl rfl⟩
  · exact ⟨_, by rw [memRead, if_neg htop, h], .inl rfl⟩

theorem memRead_pastTop {xm : Memory} {a n : Nat} (h : firstUndefined xm a n = none) (htop : 2 ^ 32 < a + n) :
    memRead xm a n = .error 0xFFFFFFFF := by
  rw [memRead, if_pos htop, h]

/-- FLUSHX and LOADBMP read their source whole before any effect (R131, R132, R263). -/
theorem exec_source_error {s : State} {d : Surface} (h : Live s d) {addr : XAddr} {i : Instr}
    (hi : i = .flushx addr ∨ i = .loadbmp addr) {info : BitVec 32}
    (he : memRead s.xm addr.toNat (s.fbSize d) = .error info) : exec i s = .next (raise .extRead info s) := by
  obtain rfl | rfl := hi <;> exact (exec_live h _).trans (congrArg _ (withMem_error he _))

/-- Settles O25: the read of the source is an error with the detail of R252, and the operation ends there. -/
theorem shortSourceRaisesExtRead : Obligations.ShortSourceRaisesExtRead := by
  intro s d addr i h hi
  refine ⟨fun q hhi hlo htop hq hfirst => ?_, fun htop hdef => ?_⟩
  · obtain ⟨info, he, hinfo⟩ := memRead_undefined (firstUndefined_eq_some hlo hhi htop hq hfirst)
    exact ⟨info, exec_source_error h hi he, hinfo⟩
  · exact exec_source_error h hi (memRead_pastTop (firstUndefined_eq_none hdef) htop)

/-! ## The read-back of a loaded bitmap (R74) -/

theorem exec_loadbmp {s : State} {d : Surface} (h : Live s d) {addr : XAddr} {bytes : List Byte}
    (hl : bytes.length = s.fbSize d) (hb : xmHolds s.xm addr.toNat bytes) :
    exec (.loadbmp addr) s = .next (fbFill d bytes s) := by
  have hread : memRead s.xm addr.toNat (s.fbSize d) = .ok bytes := hl ▸ memRead_holds addr.isLt hb
  exact (exec_live h _).trans (congrArg _ (withMem_ok hread _))

theorem exec_rdfb {s : State} {d : Surface} (h : Live s d) {i : Nat} {b : Byte} (hi : i < s.fbSize d)
    (hb : d.fb.read i = some b) : exec (.rdfb i) s = .next (setRes (b.zeroExtend 32) s) := by
  rw [exec_live h]
  simp only [body, if_pos hi, fbRead_eq hb]

/-- Settles O24: LOADBMP lays the bitmap out in the framebuffer, where RDFB reads it byte by byte. -/
theorem loadbmpThenReadBack : Obligations.LoadbmpThenReadBack := by
  intro s d addr bytes i b h hl hb hi
  have hlive : Live (fbFill d bytes s) { d with fb := Memory.ofBytes bytes } := ⟨h.1, rfl⟩
  have hsize : i < s.fbSize d := hl ▸ (List.getElem?_eq_some_iff.1 hi).1
  have hread : (Memory.ofBytes bytes).read i = some b := (read_ofBytes bytes i).trans hi
  exact ⟨_, _, exec_loadbmp h hl hb, exec_rdfb hlive hsize hread, rfl, h.1⟩

end Sys2Proof.Proofs
end

section
/-! PROOF. The operation word (30_encoding.md, part A): the bytes of a word (R80), decoding and encoding are inverse
to each other (R81 to R88, R93), and the decoder accepts exactly the words of the opcode table (R89, R90). -/

namespace Sys2Proof.Proofs

open Sys2Proof Sys2Proof.Machine Sys2Proof.Laws

/-! ## Bytes (R80) -/

/-- Settles O4: the reading of 16 bytes has byte `k` at bits 8k+7..8k, and those bits determine a word. -/
theorem wordBytesAreLittleEndian : Obligations.WordBytesAreLittleEndian := by
  intro bs w
  constructor
  · intro h
    have hlen : bs.length = 16 := (wordOfBytes_isSome bs).1 (by simp [h])
    refine ⟨hlen, fun k hk => ?_⟩
    rw [wordOfBytes_byte h k]
    simp [hlen, hk]
  · rintro ⟨hlen, hbytes⟩
    obtain ⟨v, hv⟩ := Option.isSome_iff_exists.1 ((wordOfBytes_isSome bs).2 hlen)
    rw [hv, Option.some_inj]
    exact word_ext_bytes fun k hk => by rw [wordOfBytes_byte hv, hbytes k hk, Option.getD_some]

/-! ## Decoding an encoded operation -/

/-- The fields of a well-formed operation spell it (R82 to R88). -/
theorem decodeFields_fieldsOf {i : Instr} (h : i.wellFormed = true) : decodeFields (fieldsOf i) = .ok i :=
  match i with
  | .construct a f => FieldsRoundTrip.construct a f h
  | .destruct => FieldsRoundTrip.destruct h
  | .setpix x y c => FieldsRoundTrip.setpix x y c h
  | .clear c => FieldsRoundTrip.clear c h
  | .flush => FieldsRoundTrip.flush h
  | .flushx a => FieldsRoundTrip.flushx a h
  | .loadbmp a => FieldsRoundTrip.loadbmp a h
  | .contrast v => FieldsRoundTrip.contrast v h
  | .invert e => FieldsRoundTrip.invert e h
  | .orient e => FieldsRoundTrip.orient e h
  | .power e => FieldsRoundTrip.power e h
  | .getbufsz => FieldsRoundTrip.getbufsz h
  | .getw => FieldsRoundTrip.getw h
  | .geth => FieldsRoundTrip.geth h
  | .rdfb n => FieldsRoundTrip.rdfb n h
  | .line x0 y0 x1 y1 c => FieldsRoundTrip.line x0 y0 x1 y1 c h
  | .hline x y w c => FieldsRoundTrip.hline x y w c h
  | .vline x y n c => FieldsRoundTrip.vline x y n c h
  | .rect x y w n c => FieldsRoundTrip.rect x y w n c h
  | .frect x y w n c => FieldsRoundTrip.frect x y w n c h
  | .pbar x y w n p c => FieldsRoundTrip.pbar x y w n p c h
  | .char x y n c => FieldsRoundTrip.char x y n c h
  | .string x y a n c => FieldsRoundTrip.string x y a n c h
  | .setfont a => FieldsRoundTrip.setfont a h
  | .getfont => FieldsRoundTrip.getfont h

theorem decode_encode {i : Instr} (h : i.wellFormed = true) : decode (encode i) = .ok i := by
  rw [decode, encode, split_join, decodeFields_fieldsOf h]

/-- Settles O1: the bytes of a word read back give the word, its fields are the operation's, and they spell it. -/
theorem decodeOfEncodeIsIdentity : Obligations.DecodeOfEncodeIsIdentity := fun _ h =>
  (decodeBytes_bytesOfWord _).trans (decode_encode h)

/-- Settles O5: each word is decoded. -/
theorem writtenOutWordsDecode : Obligations.WrittenOutWordsDecode := by
  unfold Obligations.WrittenOutWordsDecode
  decide

/-! ## What the decoder answers -/

/-- Fields decode when their code is assigned, their reserved bits are clear and their operands are read. -/
theorem decodeFields_ok {f : Fields} {i : Instr} : decodeFields f = .ok i ↔
    ∃ fmt, formatOf f.opc = some fmt ∧ f.reservedClear fmt = true ∧ operands f = .ok i := by
  unfold decodeFields
  cases formatOf f.opc with
  | none => simp
  | some fmt => cases hr : f.reservedClear fmt <;> simp [hr]

theorem withMod_ok {α : Type} {o : Option α} {why : Reject} {k : α → Instr} {i : Instr} :
    withMod o why k = .ok i ↔ ∃ v, o = some v ∧ k v = i := by
  cases o <;> simp [withMod]

theorem withMod_ok_exists {α : Type} {o : Option α} {why : Reject} {k : α → Instr} :
    (∃ i, withMod o why k = .ok i) ↔ ∃ v, o = some v := by
  cases o <;> simp [withMod]

/-- A signed field, a string length or read-back index, and a character code hold values in range (R84). -/
theorem operands_wellFormed (f : Fields) : ∀ i, operands f = .ok i → i.wellFormed = true := by
  have hlen (v : BitVec 16) : v.toNat < 65536 := v.isLt
  unfold operands
  split <;> simp [withMod_ok, Instr.wellFormed, fitsS16_sext16, fitsU16, fitsU8, hlen, Nat.mod_lt]

/-! ## Fields partly used (R82) -/

theorem high_clear_iff {n : Nat} (k : Nat) (x : BitVec n) :
    x.extractLsb' k (n - k) = 0 ↔ ∀ j, k ≤ j → x.getLsbD j = false := by
  constructor
  · intro h j hk
    by_cases hj : j < n
    · simpa [show j - k < n - k by omega, hk] using congrArg (·.getLsbD (j - k)) h
    · exact BitVec.getLsbD_of_ge x j (by omega)
  · intro h
    ext j hj
    simpa using h (k + j) (by omega)

/-- A field whose high part is clear is its low part. -/
theorem zeroExtend_of_high_clear {n k : Nat} (x : BitVec n) (h : x.extractLsb' k (n - k) = 0) :
    (x.extractLsb' 0 k).zeroExtend n = x := by
  ext j hj
  by_cases hk : j < k
  · simp [hk, hj]
  · simpa [hk, hj] using ((high_clear_iff k x).1 h j (by omega)).symm

theorem high_clear_iff_and_mask {n : Nat} (k : Nat) (x : BitVec n) :
    x.extractLsb' k (n - k) = 0 ↔ x &&& (BitVec.allOnes n <<< k) = 0 := by
  rw [high_clear_iff]
  constructor
  · intro h
    ext j hj
    by_cases hk : j < k
    · simp [hk]
    · simpa [hj, hk] using h j (by omega)
  · intro h j hk
    by_cases hj : j < n
    · simpa [hj, hk, show ¬ j < k by omega] using congrArg (·.getLsbD j) h
    · exact BitVec.getLsbD_of_ge x j (by omega)

/-! ## Encoding a decoded word -/

/-- The fields with every bit that a format does not use cleared (R82). -/
def usedFields (f : Fields) : Format → Fields
  | .N => bareFields f.opc
  | .M => { bareFields f.opc with mod := f.mod }
  | .I => { bareFields f.opc with
      mod := (f.mod.extractLsb' 0 7).zeroExtend 8, a := (f.a.extractLsb' 0 1).zeroExtend 16 }
  | .P => { bareFields f.opc with mod := f.mod, a := f.a, b := f.b }
  | .Q => { bareFields f.opc with a := f.a }
  | .L | .R => { f with e := 0, addr := 0 }
  | .S => { f with d := 0, e := 0, addr := 0 }
  | .G => { f with addr := 0 }
  | .K => { f with c := (f.c.extractLsb' 0 8).zeroExtend 16, d := 0, e := 0, addr := 0 }
  | .T => { f with d := 0, e := 0 }
  | .X => { bareFields f.opc with addr := f.addr }

theorem usedFields_of_reservedClear {f : Fields} {fmt : Format} (h : f.reservedClear fmt = true) :
    usedFields f fmt = f := by
  obtain ⟨opc, mod, a, b, c, d, e, addr⟩ := f
  cases fmt <;> simp only [Fields.reservedClear, Bool.and_eq_true, beq_iff_eq] at h
  case I => simp [usedFields, bareFields, h, zeroExtend_of_high_clear mod, zeroExtend_of_high_clear a]
  case K => simp [usedFields, h, zeroExtend_of_high_clear c]
  all_goals simp [usedFields, bareFields, h]

theorem colourOf_eq_some {m : Byte} {c : Colour} : colourOf m = some c ↔ colourCode c = m :=
  ⟨code_of_colourOf, fun h => h ▸ colourOf_code c⟩
theorem invertOf_eq_some {m : Byte} {e : InvertMode} : invertOf m = some e ↔ invertCode e = m :=
  ⟨code_of_invertOf, fun h => h ▸ invertOf_code e⟩
theorem orientOf_eq_some {m : Byte} {e : Orientation} : orientOf m = some e ↔ orientCode e = m :=
  ⟨code_of_orientOf, fun h => h ▸ orientOf_code e⟩
theorem powerOf_eq_some {m : Byte} {e : PowerArg} : powerOf m = some e ↔ powerCode e = m :=
  ⟨code_of_powerOf, fun h => h ▸ powerOf_code e⟩

/-- An operation's fields are those its operands were read from: each operand coding is undone (R84 to R88). -/
theorem fieldsOf_operands {f : Fields} {fmt : Format} (hfmt : formatOf f.opc = some fmt) :
    ∀ i, operands f = .ok i → fieldsOf i = usedFields f fmt := by
  unfold operands
  split
  case h_26 => simp
  all_goals
    rename_i hopc
    obtain rfl : _ = fmt := by simpa [formatOf, hopc] using hfmt
    have hcode := (BitVec.toNat_eq_nat.1 hopc).2
    simp +contextual [withMod_ok, fieldsOf, bareFields, usedFields, hcode, colourOf_eq_some, invertOf_eq_some,
      orientOf_eq_some, powerOf_eq_some, code_of_familyOf, -BitVec.extractLsb'_toNat]

/-- Settles O2: the operands are in range, and the operation's fields are the word's, whose unused bits are 0. -/
theorem encodeOfDecodeIsIdentity : Obligations.EncodeOfDecodeIsIdentity := by
  intro w i h
  obtain ⟨fmt, hfmt, hr, hi⟩ := decodeFields_ok.1 h
  refine ⟨operands_wellFormed _ i hi, ?_⟩
  rw [encode, fieldsOf_operands hfmt i hi, usedFields_of_reservedClear hr, join_split]

/-! ## MOD as an operand (R85, R86) -/

/-- The bits of MOD that are 0 in every value of the operand it is: a colour leaves two bits, an enum value one. -/
def modMask (opc : Byte) : Byte :=
  match opc.toNat with
  | 0x03 | 0x04 | 0x10 | 0x11 | 0x12 | 0x13 | 0x14 | 0x15 | 0x18 | 0x19 => 0xFC
  | 0x09 | 0x0A | 0x0B => 0xFE
  | _ => 0

/-- MOD names a value under its mask; of the four values that a colour's mask leaves, 3 is none. -/
def modNames (mask m : Byte) : Prop := m &&& mask = 0 ∧ (mask = 0xFC → m.extractLsb' 0 2 ≠ 3)

theorem colourOf_some_iff (m : Byte) : (∃ c, colourOf m = some c) ↔ modNames 0xFC m := by
  simp only [← Option.isSome_iff_exists, modNames]; revert m; decide
theorem invertOf_some_iff (m : Byte) : (∃ e, invertOf m = some e) ↔ modNames 0xFE m := by
  simp only [← Option.isSome_iff_exists, modNames]; revert m; decide
theorem orientOf_some_iff (m : Byte) : (∃ e, orientOf m = some e) ↔ modNames 0xFE m := by
  simp only [← Option.isSome_iff_exists, modNames]; revert m; decide
theorem powerOf_some_iff (m : Byte) : (∃ e, powerOf m = some e) ↔ modNames 0xFE m := by
  simp only [← Option.isSome_iff_exists, modNames]; revert m; decide
theorem modNames_zero (m : Byte) : modNames 0 m := by simp [modNames]

/-- The operands of an assigned operation code are read unless MOD names no value. -/
theorem operands_ok_exists {f : Fields} {fmt : Format} (hfmt : formatOf f.opc = some fmt) :
    (∃ i, operands f = .ok i) ↔ modNames (modMask f.opc) f.mod := by
  unfold operands
  split
  case h_26 => simp [formatOf, *] at hfmt
  all_goals
    rename_i hopc
    simp only [modMask, hopc, withMod_ok_exists, colourOf_some_iff, invertOf_some_iff, orientOf_some_iff,
      powerOf_some_iff, modNames_zero, Except.ok.injEq, exists_eq']

theorem decode_ok_exists (w : Word) : (∃ i, decode w = .ok i) ↔ ∃ fmt, formatOf (splitWord w).opc = some fmt ∧
    (splitWord w).reservedClear fmt = true ∧ modNames (modMask (splitWord w).opc) (splitWord w).mod := by
  simp only [decode, decodeFields_ok]
  constructor
  · rintro ⟨i, fmt, hfmt, hr, hi⟩
    exact ⟨fmt, hfmt, hr, (operands_ok_exists hfmt).1 ⟨i, hi⟩⟩
  · rintro ⟨fmt, hfmt, hr, hmod⟩
    obtain ⟨i, hi⟩ := (operands_ok_exists hfmt).2 hmod
    exact ⟨i, fmt, hfmt, hr, hi⟩

/-! ## The opcode table (R83, R89, R90) -/

/-- The operation code and the reserved bits of a format, as a mask (R82). -/
def reservedMask : Format → Fields
  | .N => ⟨.allOnes 8, .allOnes 8, .allOnes 16, .allOnes 16, .allOnes 16, .allOnes 16, .allOnes 16, .allOnes 32⟩
  | .M => ⟨.allOnes 8, 0, .allOnes 16, .allOnes 16, .allOnes 16, .allOnes 16, .allOnes 16, .allOnes 32⟩
  | .I => ⟨.allOnes 8, 0x80, 0xFFFE, .allOnes 16, .allOnes 16, .allOnes 16, .allOnes 16, .allOnes 32⟩
  | .P => ⟨.allOnes 8, 0, 0, 0, .allOnes 16, .allOnes 16, .allOnes 16, .allOnes 32⟩
  | .Q => ⟨.allOnes 8, .allOnes 8, 0, .allOnes 16, .allOnes 16, .allOnes 16, .allOnes 16, .allOnes 32⟩
  | .L | .R => ⟨.allOnes 8, 0, 0, 0, 0, 0, .allOnes 16, .allOnes 32⟩
  | .S => ⟨.allOnes 8, 0, 0, 0, 0, .allOnes 16, .allOnes 16, .allOnes 32⟩
  | .G => ⟨.allOnes 8, 0, 0, 0, 0, 0, 0, .allOnes 32⟩
  | .K => ⟨.allOnes 8, 0, 0, 0, 0xFF00, .allOnes 16, .allOnes 16, .allOnes 32⟩
  | .T => ⟨.allOnes 8, 0, 0, 0, 0, .allOnes 16, .allOnes 16, 0⟩
  | .X => ⟨.allOnes 8, .allOnes 8, .allOnes 16, .allOnes 16, .allOnes 16, .allOnes 16, .allOnes 16, 0⟩

theorem reservedClear_iff (f : Fields) (fmt : Format) :
    f.reservedClear fmt = true ↔ Fields.and f (reservedMask fmt) = bareFields f.opc := by
  have hmod : f.mod.extractLsb' 7 1 = 0#1 ↔ f.mod &&& 0x80#8 = 0#8 := high_clear_iff_and_mask 7 f.mod
  have ha : f.a.extractLsb' 1 15 = 0#15 ↔ f.a &&& 0xFFFE#16 = 0#16 := high_clear_iff_and_mask 1 f.a
  have hc : f.c.extractLsb' 8 8 = 0#8 ↔ f.c &&& 0xFF00#16 = 0#16 := high_clear_iff_and_mask 8 f.c
  cases fmt <;>
    simp only [Fields.reservedClear, Bool.and_eq_true, beq_iff_eq, Fields.and, reservedMask, bareFields,
      Fields.mk.injEq, BitVec.and_allOnes, BitVec.and_zero, BitVec.ofNat_eq_ofNat, true_and, and_true, and_assoc,
      hmod, ha, hc]

/-- The mask of an operation code's row: the reserved bits of its format and those of MOD as an operand. -/
def rowMask (opc : Byte) (fmt : Format) : Fields :=
  { reservedMask fmt with mod := (reservedMask fmt).mod ||| modMask opc }

/-- The operation code of a row. -/
def rowOpc (r : TableRow) : Byte := (splitWord r.value).opc

/-- The table against the formats: each row is its operation code under the code's mask. -/
theorem opcodeTable_row : ∀ r ∈ opcodeTable, splitWord r.value = bareFields (rowOpc r) ∧
    (formatOf (rowOpc r)).map (rowMask (rowOpc r)) = some (splitWord r.mask) ∧
    r.colour = decide (modMask (rowOpc r) = 0xFC) := by decide

/-- Every assigned operation code has a row (R90). -/
theorem exists_row : ∀ opc : Byte, formatOf opc ≠ none → ∃ r ∈ opcodeTable, rowOpc r = opc := by decide

theorem and_rowMask_iff (f : Fields) (opc : Byte) (fmt : Format) :
    Fields.and f (rowMask opc fmt) = bareFields opc ↔
      f.opc = opc ∧ f.reservedClear fmt = true ∧ f.mod &&& modMask opc = 0 := by
  have hopc : (reservedMask fmt).opc = .allOnes 8 := by cases fmt <;> rfl
  rw [reservedClear_iff]
  simp only [Fields.and, rowMask, bareFields, Fields.mk.injEq, hopc, BitVec.and_allOnes, BitVec.and_or_distrib_left,
    BitVec.ofNat_eq_ofNat, BitVec.or_eq_zero_iff]
  tauto

theorem splitWord_mod_low (w : Word) : (splitWord w).mod.extractLsb' 0 2 = w.extractLsb' 8 2 := by
  ext j hj
  simp [splitWord, show j < 8 by omega]

/-- A row of the table describes the words of its operation code that decode. -/
theorem holds_iff {r : TableRow} (hr : r ∈ opcodeTable) (w : Word) :
    r.holds w ↔ (splitWord w).opc = rowOpc r ∧ ∃ i, decode w = .ok i := by
  obtain ⟨hvalue, hmask, hcolour⟩ := opcodeTable_row r hr
  obtain ⟨fmt, hfmt, hmask⟩ := Option.map_eq_some_iff.1 hmask
  have hword : w &&& r.mask = r.value ↔
      Fields.and (splitWord w) (rowMask (rowOpc r) fmt) = bareFields (rowOpc r) := by
    rw [hmask, ← hvalue, ← joinFields_mask, join_split]
  rw [TableRow.holds, hword, and_rowMask_iff, decode_ok_exists, and_assoc, hcolour, decide_eq_true_eq,
    ← splitWord_mod_low]
  refine and_congr_right fun hopc => ?_
  simp [hopc, hfmt, modNames, and_assoc]

/-- Settles O3: every assigned operation code has a row, and a row describes the words of its code that decode. -/
theorem decodeAcceptsExactlyTheTable : Obligations.DecodeAcceptsExactlyTheTable := by
  intro w
  constructor
  · intro hdec
    obtain ⟨fmt, hfmt, -, -⟩ := (decode_ok_exists w).1 hdec
    obtain ⟨r, hr, hopc⟩ := exists_row (splitWord w).opc (by simp [hfmt])
    exact ⟨r, hr, (holds_iff hr w).2 ⟨hopc.symm, hdec⟩⟩
  · rintro ⟨r, hr, hholds⟩
    exact ((holds_iff hr w).1 hholds).2

end Sys2Proof.Proofs
end

section
/-! PROOF. The assembler (R94, R95): a line gives the operation of its mnemonic with its operands, all in range. -/

namespace Sys2Proof.Proofs

open Sys2Proof Sys2Proof.Machine Sys2Proof.Laws

/-! ## What assembles is well formed -/

theorem asmS16_eq_some {cs : List Char} {v : Int} :
    asmS16 cs = some v ↔ numberOf cs = some v ∧ fitsS16 v = true := Option.filter_eq_some_iff

theorem forall_bind_some {α β : Type} {o : Option α} {k : α → Option β} {P : β → Prop} :
    (∀ b, (o >>= k) = some b → P b) ↔ ∀ a, o = some a → ∀ b, k a = some b → P b := by
  cases o <;> simp

/-- Each operand was read into its field's range (R84, R94). -/
theorem assembleParts_wellFormed (m : String) (ops : List (List Char)) :
    ∀ i, assembleParts m ops = some i → i.wellFormed = true := by
  have hlen (v : BitVec 16) : v.toNat < 65536 := v.isLt
  have hcode (v : BitVec 8) : v.toNat < 256 := v.isLt
  unfold assembleParts
  split <;>
    simp +contextual only [forall_bind_some, Option.pure_def, Option.some.injEq, forall_eq', asmS16_eq_some,
      Instr.wellFormed, fitsU16, fitsU8, hlen, hcode, decide_true, Bool.and_true, implies_true, reduceCtorEq,
      false_implies]

/-- The word of a line that assembles decodes to the line's operation (R93, R94). -/
theorem decode_of_assemble {line : String} {w : Word} (h : assemble line = some w) :
    ∃ i, assembleOp line = some i ∧ i.wellFormed = true ∧ decode w = .ok i := by
  obtain ⟨i, hi, rfl⟩ := Option.map_eq_some_iff.1 h
  have hwf : i.wellFormed = true := assembleParts_wellFormed _ _ i hi
  exact ⟨i, hi, hwf, decode_encode hwf⟩

/-! ## The operands of each mnemonic (R94) -/

section
variable (x y w h p a n v c : List Char)

theorem assembleParts_construct : assembleParts "CONSTRUCT" [a, v] =
    (do return .construct (← asmBits 7 a) (familyOf (← asmBits 1 v))) := rfl
theorem assembleParts_contrast : assembleParts "CONTRAST" [v] = (do return .contrast (← asmBits 8 v)) := rfl
theorem assembleParts_rdfb : assembleParts "RDFB" [n] = (do return .rdfb (← asmBits 16 n).toNat) := rfl
theorem assembleParts_flushx : assembleParts "FLUSHX" [a] = (do return .flushx (← asmBits 32 a)) := rfl
theorem assembleParts_loadbmp : assembleParts "LOADBMP" [a] = (do return .loadbmp (← asmBits 32 a)) := rfl
theorem assembleParts_setfont : assembleParts "SETFONT" [a] = (do return .setfont (← asmBits 32 a)) := rfl
theorem assembleParts_setpix : assembleParts "SETPIX" [x, y, c] =
    (do return .setpix (← asmS16 x) (← asmS16 y) (← asmColour c)) := rfl
theorem assembleParts_hline : assembleParts "HLINE" [x, y, w, c] =
    (do return .hline (← asmS16 x) (← asmS16 y) (← asmS16 w) (← asmColour c)) := rfl
theorem assembleParts_vline : assembleParts "VLINE" [x, y, h, c] =
    (do return .vline (← asmS16 x) (← asmS16 y) (← asmS16 h) (← asmColour c)) := rfl
theorem assembleParts_line : assembleParts "LINE" [x, y, w, h, c] =
    (do return .line (← asmS16 x) (← asmS16 y) (← asmS16 w) (← asmS16 h) (← asmColour c)) := rfl
theorem assembleParts_rect : assembleParts "RECT" [x, y, w, h, c] =
    (do return .rect (← asmS16 x) (← asmS16 y) (← asmS16 w) (← asmS16 h) (← asmColour c)) := rfl
theorem assembleParts_frect : assembleParts "FRECT" [x, y, w, h, c] =
    (do return .frect (← asmS16 x) (← asmS16 y) (← asmS16 w) (← asmS16 h) (← asmColour c)) := rfl
theorem assembleParts_pbar : assembleParts "PBAR" [x, y, w, h, p, c] =
    (do return .pbar (← asmS16 x) (← asmS16 y) (← asmS16 w) (← asmS16 h) (← asmS16 p) (← asmColour c)) := rfl
theorem assembleParts_char : assembleParts "CHAR" [x, y, v, c] =
    (do return .char (← asmS16 x) (← asmS16 y) (← asmChar v).toNat (← asmColour c)) := rfl
theorem assembleParts_string : assembleParts "STRING" [x, y, a, n, c] =
    (do return .string (← asmS16 x) (← asmS16 y) (← asmBits 32 a) (← asmBits 16 n).toNat (← asmColour c)) := rfl

end

theorem asmColour_bind {β : Type} (c : Colour) (k : Colour → Option β) :
    (asmColour (colourText c).toList >>= k) = k c := by rw [asmColour_colourText]; rfl

theorem toNat_ofInt_of_unsigned {n : Nat} {v : Int} (h : unsigned n v = true) :
    (BitVec.ofInt n v).toNat = v.toNat := by
  simp only [unsigned, Bool.and_eq_true, decide_eq_true_eq] at h
  rw [BitVec.toNat_ofInt, Int.emod_eq_of_lt h.1 (mod_cast h.2)]

theorem familyOf_ofInt_of_unsigned {u : Int} (h : unsigned 1 u = true) :
    familyOf (BitVec.ofInt 1 u) = if u = 0 then .f0 else .f1 := by
  simp only [unsigned, Bool.and_eq_true, decide_eq_true_eq] at h
  obtain rfl | rfl : u = 0 ∨ u = 1 := by omega
  all_goals rfl

/-- Settles O6: a line is cut into its operands' texts, each of which is read as its number or is an assembly error;
what was read lies in its field's range, so the word decodes. In each clause on numbers the conditions of the operands
read in turn join into the one condition of the statement. -/
theorem assembledLinesDecodeToTheirOperation : Obligations.AssembledLinesDecodeToTheirOperation := by
  refine ⟨fun _ _ => decode_of_assemble, by decide, ?_, ?_, ?_⟩
  · intro v u tv tu hv hu
    have ov := oneOperand_numberText hv
    have ou := oneOperand_numberText hu
    refine ⟨?_, ?_, ?_, ?_, ?_, ?_⟩ <;>
      refine (assembleOp_lineText (by simp) (by simp) (List.cons_ne_nil _ _) (by simp [ov, ou])).trans ?_ <;>
      simp only [List.map_cons, List.map_nil, assembleParts_construct, assembleParts_contrast, assembleParts_rdfb,
        assembleParts_flushx, assembleParts_loadbmp, assembleParts_setfont, asmBits_numberText _ hv,
        asmBits_numberText _ hu, bind_ite_none, ← ite_and, Option.pure_def]
    · exact ite_congr rfl (fun h => by rw [familyOf_ofInt_of_unsigned h.2]) fun _ => rfl
    · exact ite_congr rfl (fun h => by rw [toNat_ofInt_of_unsigned h]) fun _ => rfl
  · intro x y w h p tx ty tw th tp c hx hy hw hh hp
    have ox := oneOperand_numberText hx
    have oy := oneOperand_numberText hy
    have ow := oneOperand_numberText hw
    have oh := oneOperand_numberText hh
    have op := oneOperand_numberText hp
    refine ⟨?_, ?_, ?_, ?_, ?_, ?_, ?_⟩ <;>
      refine (assembleOp_lineText (by simp) (by simp) (List.cons_ne_nil _ _)
        (by simp [ox, oy, ow, oh, op, oneOperand_colourText])).trans ?_ <;>
      simp only [List.map_cons, List.map_nil, assembleParts_setpix, assembleParts_hline, assembleParts_vline,
        assembleParts_line, assembleParts_rect, assembleParts_frect, assembleParts_pbar, asmS16_numberText hx,
        asmS16_numberText hy, asmS16_numberText hw, asmS16_numberText hh, asmS16_numberText hp, asmColour_bind,
        bind_ite_none, ← ite_and, Option.pure_def]
  · intro x y a n ch tx ty ta tn tch c hx hy ha hn hch
    have ox := oneOperand_numberText hx
    have oy := oneOperand_numberText hy
    have oa := oneOperand_numberText ha
    have on := oneOperand_numberText hn
    have och := oneOperand_codeText hch
    refine ⟨?_, ?_⟩ <;>
      refine (assembleOp_lineText (by simp) (by simp) (List.cons_ne_nil _ _)
        (by simp [ox, oy, oa, on, och, oneOperand_colourText])).trans ?_ <;>
      simp only [List.map_cons, List.map_nil, assembleParts_char, assembleParts_string, asmS16_numberText hx,
        asmS16_numberText hy, asmBits_numberText _ ha, asmBits_numberText _ hn, asmChar_codeText hch, asmColour_bind,
        bind_ite_none, ← ite_and, Option.pure_def]
    · exact ite_congr rfl (fun ⟨_, _, h⟩ => by rw [toNat_ofInt_of_unsigned h]) fun _ => rfl
    · exact ite_congr rfl (fun ⟨_, _, _, h⟩ => by rw [toNat_ofInt_of_unsigned h]) fun _ => rfl

end Sys2Proof.Proofs
end

section
/-! PROOF. The laws between the drawing operations (R96): a shape after a shape plots the pixels of both in order. -/

namespace Sys2Proof.Proofs

open Sys2Proof Sys2Proof.Machine Sys2Proof.Laws

theorem body_of_shapePixels {i : Instr} {ps : List (Int × Int)} {c : Colour} (h : shapePixels i = some (ps, c))
    (d : Surface) (s : State) : body i d s = plotAll c ps s := by
  cases i <;> simp only [shapePixels, Option.some.injEq, Prod.mk.injEq, reduceCtorEq] at h
  all_goals
    obtain ⟨rfl, rfl⟩ := h
    rfl

theorem exec_shape {s : State} {d : Surface} (h : Live s d) {i : Instr} {ps : List (Int × Int)} {c : Colour}
    (hi : shapePixels i = some (ps, c)) : exec i s = .next (plotAll c ps s) := by
  rw [exec_live h, body_of_shapePixels hi]

theorem plotAll_surf_exists (c : Colour) (ps : List (Int × Int)) {s : State} {d : Surface} (hd : s.surf = some d) :
    ∃ d', (plotAll c ps s).surf = some d' :=
  forEach_rel (R := fun s t => (∃ d, s.surf = some d) → ∃ d, t.surf = some d) (fun _ h => h)
    (fun h1 h2 h => h2 (h1 h)) (fun p _ _ _ ⟨_, h⟩ => plot_surf_exists p.1 p.2 c h) s ⟨d, hd⟩

/-- A shape after pixels already plotted goes on plotting, unless one of them faulted (R262). -/
theorem andExec_shape {s : State} {d : Surface} (h : Live s d) (ps : List (Int × Int)) {i : Instr}
    {qs : List (Int × Int)} {c : Colour} (hi : shapePixels i = some (qs, c)) :
    andExec (.next (plotAll c ps s)) i = .next (plotAll c (ps ++ qs) s) := by
  obtain ⟨d', hd'⟩ := plotAll_surf_exists c ps h.2
  rw [plotAll_append]
  by_cases hn : (plotAll c ps s).fault = .none
  · rw [andThen_none hn, andExec, if_pos hn, exec_shape ⟨hn, hd'⟩ hi]
  · rw [andThen_fault hn, andExec, if_neg hn]

/-- Shapes one after the other plot their pixels in order. -/
theorem foldl_andExec_shape {s : State} {d : Surface} (h : Live s d) {α : Type} {f : α → Instr}
    {P : α → List (Int × Int)} {c : Colour} (hf : ∀ a, shapePixels (f a) = some (P a, c)) (as : List α)
    (ps : List (Int × Int)) :
    as.foldl (fun o a => andExec o (f a)) (.next (plotAll c ps s)) = .next (plotAll c (ps ++ as.flatMap P) s) := by
  induction as generalizing ps with
  | nil => simp
  | cons a as ih => rw [List.foldl_cons, andExec_shape h ps (hf a), ih, List.flatMap_cons, List.append_assoc]

/-- Settles O40: a shape's pixels are those of its parts in order. -/
theorem shapesAreTheirParts : Obligations.ShapesAreTheirParts := by
  intro s d x y w h p c hlive
  refine ⟨?_, ?_, ?_, ?_, ?_⟩
  · rw [exec_shape hlive rfl, exec_shape hlive rfl, hlinePixels]
  · rw [exec_shape hlive rfl, exec_shape hlive rfl, vlinePixels]
  · rw [exec_shape hlive rfl, exec_shape hlive rfl, andExec_shape hlive _ rfl, andExec_shape hlive _ rfl,
      andExec_shape hlive _ rfl, rectPixels]
  · exact (exec_shape hlive rfl).trans (foldl_andExec_shape hlive (fun _ => rfl) _ []).symm
  · rw [exec_shape hlive rfl, exec_shape hlive rfl, andExec_shape hlive _ rfl, pbarPixels]

end Sys2Proof.Proofs
end

section
/-! PROOF. The Display Surface (40_display_surface.md): CONSTRUCT's bring-up with every transaction ok and with one
refused (R121 to R123, R259, R263), DESTRUCT (R124), the pixel-set (R125 to R128, R298) and the shapes over it, the
whole-buffer operations (R129 to R132), the setters and the power state (R133 to R137), and the accessors (R138 to
R140). -/

namespace Sys2Proof.Proofs

open Sys2Proof Sys2Proof.Machine Sys2Proof.Laws

/-! ## The power state (R120, R137, R268, R274) -/

theorem blank_power : blank false true = erasePower := rfl

/-- Settles O59: the operations are built from parts that ignore the power state, so states that differ only in it
step to states that do. -/
theorem powerStateIsNeverRead : Obligations.PowerStateIsNeverRead := by
  intro s p
  rw [← blank_power]
  exact step_agree rfl

/-- A transaction leaves the power state, even one that is refused (R101, R259). -/
theorem transacts_pstate {s t : State} (h : Transacts s t) : t.pstate = s.pstate := by cases h <;> rfl

/-- A chain of effects without an allocation and a switch of power leaves the power state. -/
theorem effects_pstate {K : Kind → Bool} (hp : K .power = false) (ha : K .allocate = false) {s t : State}
    (he : Effects K s t) : t.pstate = s.pstate :=
  he.rel (R := fun s t => t.pstate = s.pstate) (fun _ => rfl) (fun h1 h2 => h2.trans h1) fun k s t hn hk he => by
    cases he with
    | command _ d b hd => exact transacts_pstate (busCmd_transacts hd b)
    | data _ d p hd => exact transacts_pstate (busData_transacts hn hd p)
    | power => simp [hp] at hk
    | allocate => simp [ha] at hk
    | refuse => simp [ha] at hk
    | _ => rfl

/-- The operations that switch power (R121, R136). -/
theorem kindsOf_power_iff (i : Instr) :
    kindsOf i .power = true ↔ isConstruct i = true ∨ ∃ e, i = .power e := by
  cases i <;> simp [kindsOf, isConstruct]

/-- Settles O31: an operation is a chain of effects, of which only the allocation and the switch of power change the
power state. -/
theorem onlyConstructAndPowerMovePower : Obligations.OnlyConstructAndPowerMovePower := by
  intro s t i h hmoved
  by_contra hi
  have hconstruct : isConstruct i = false := by simpa using fun h => hi (.inl h)
  have hpower : kindsOf i .power = false := by simpa using fun h => hi ((kindsOf_power_iff i).1 h)
  exact hmoved (effects_pstate hpower ((kindsOf_allocate i).trans hconstruct) (exec_effects h).2)

/-! ## CONSTRUCT (R121 to R123) -/

/-- The block whose allocation draw was ok, before the first transaction (R121). -/
def afterAllocation (a : DevAddr) (f : Family) (s : State) : State :=
  allocated a f { s with pstate := .uninit, allocCount := s.allocCount + 1 }

theorem exec_construct_ok {s : State} (hn : s.fault = .none) (hs : s.surf = none) (ha : s.allocAnswer = .ok)
    (a : DevAddr) (f : Family) : exec (.construct a f) s =
      .next (andThen (bringUp ⟨f, a, []⟩ (afterAllocation a f s)) fun t => { t with pstate := .ready }) := by
  rw [exec_construct hn, constructBody, if_neg (by simp [State.alive, hs]), if_pos ha, afterAllocation]

theorem midway_nil (s : State) (a : DevAddr) : midway s a [] s.shContrast s.shOrient = s := by
  rw [midway, logged_nil]

/-- The cleared framebuffer's bytes (R122). -/
def zeroBytes (s : State) (d : Surface) : List Byte := List.replicate (s.fbSize d) 0x00

@[simp] theorem length_zeroBytes (s : State) (d : Surface) : (zeroBytes s d).length = s.fbSize d :=
  List.length_replicate

/-- The bring-up after group 7: the transactions of groups 1 to 6, their shadow, and the cleared framebuffer
(R122). -/
def cleared (s : State) (d : Surface) : State :=
  fbFill d (zeroBytes s d) (midway s d.devaddr (cmdBytes (bringUpBytes s.cfg d.fam)) (some 0xFF) (some .normal))

@[simp] theorem length_buslog_cleared (s : State) (d : Surface) :
    (cleared s d).buslog.length = s.buslog.length + (bringUpBytes s.cfg d.fam).length := by
  simp [cleared, fbFill, midway]

section
variable {s : State} {d : Surface} (hn : s.fault = .none) (hd : s.surf = some d)
include hn hd

/-- The bring-up whose groups 1 to 6 are ok is the flush of group 8 on the cleared framebuffer. -/
theorem bringUp_groups_ok (h : busOk s (bringUpBytes s.cfg d.fam).length) :
    bringUp d s = flushBytes d (zeroBytes s d) (cleared s d) := by
  conv_lhs => rw [bringUp, ← midway_nil s d.devaddr, bringUpCommands_ok hn hd d.fam h]
  exact andThen_none (by exact hn) _

/-- The bring-up whose transactions are all ok. -/
theorem bringUp_ok (h : busOk s ((bringUpBytes s.cfg d.fam).length + ((flushWinOf s.cfg d.fam).length + 1))) :
    bringUp d s = { cleared s d with
      buslog := s.buslog ++
        okLog d.devaddr (cmdBytes (bringUpBytes s.cfg d.fam) ++ flushLog s.cfg d.fam (zeroBytes s d))
      shown := some (zeroBytes s d) } := by
  have hflush : busOk (cleared s d) ((flushWinOf s.cfg d.fam).length + 1) := busOk_advance h rfl (by simp)
  rw [bringUp_groups_ok hn hd (busOk_mono h (by omega)), flushBytes_ok (s := cleared s d) hn rfl _ hflush,
    okLog_append, ← List.append_assoc]
  rfl

/-- The bring-up, from an empty shadow, with a transaction of groups 1 to 6 refused: the shadow of the groups before
it (R263). -/
theorem bringUp_commands_fail (hc : s.shContrast = none) (ho : s.shOrient = none) {m : Nat}
    (hm : m < (bringUpBytes s.cfg d.fam).length) (h : busFailsAt s m) :
    bringUp d s = midwayFailed s d.devaddr (cmdBytes (bringUpBytes s.cfg d.fam)) m
      (if m < 1 + s.cfg.cmd.addrModeSeq.length + 2 then none else some 0xFF)
      (if m < 1 + s.cfg.cmd.addrModeSeq.length + 2 + s.cfg.cmd.orientNormal.length then none
      else some .normal) := by
  conv_lhs => rw [bringUp, ← midway_nil s d.devaddr, hc, ho]
  exact bringUpCommands_fail hn hd d.fam hm h _

/-- The bring-up with a transaction of the flush of group 8 refused: the framebuffer is cleared, the flush is not
shown (R263). -/
theorem bringUp_flush_fail {m : Nat} (hm : m < (flushWinOf s.cfg d.fam).length + 1)
    (h : busFailsAt s ((bringUpBytes s.cfg d.fam).length + m)) :
    bringUp d s = raise .bus (infoOf (s.buslog.length + ((bringUpBytes s.cfg d.fam).length + m)))
      { cleared s d with
        buslog := s.buslog ++
          failLog d.devaddr (cmdBytes (bringUpBytes s.cfg d.fam) ++ flushLog s.cfg d.fam (zeroBytes s d))
            ((bringUpBytes s.cfg d.fam).length + m) } := by
  have hflush : busFailsAt (cleared s d) m := by
    refine ⟨busOk_advance h.1 rfl (by simp), ?_⟩
    rw [length_buslog_cleared, Nat.add_assoc]
    exact h.2
  have hlog := failLog_append_right d.devaddr (cmdBytes (bringUpBytes s.cfg d.fam))
    (flushLog s.cfg d.fam (zeroBytes s d)) m
  rw [length_cmdBytes] at hlog
  rw [bringUp_groups_ok hn hd (busOk_mono h.1 (by omega)), flushBytes_fail (s := cleared s d) hn rfl _ hm hflush,
    failed, length_buslog_cleared, hlog, Nat.add_assoc, ← List.append_assoc]
  rfl

end

/-- Settles O12: the block after the allocation goes through the bring-up and is then READY. -/
theorem constructBringsUp : Obligations.ConstructBringsUp := by
  intro s a f zeros hn hs ha hz hok
  refine ⟨Memory.ofBytes zeros, ⟨fbWf_ofBytes zeros, fun i hi => ?_⟩, ?_⟩
  · rw [read_ofBytes, List.getElem?_eq_getElem hi]
    simp [hz]
  · have hok' : busOk (afterAllocation a f s)
        ((bringUpBytes s.cfg f).length + ((flushWinOf s.cfg f).length + 1)) :=
      busOk_mono (s := s) hok (by simp [bringUpBytes]; omega)
    rw [exec_construct_ok hn hs ha, bringUp_ok (s := afterAllocation a f s) (d := ⟨f, a, []⟩) hn rfl hok',
      andThen_none (by exact hn), hz, flushLog, ← List.append_assoc, ← cmdBytes_append]
    rfl

/-- Settles O14: the refused transaction is one of groups 1 to 6, with the shadow of the groups before it, or one of
the flush after the clear. -/
theorem constructBusFailure : Obligations.ConstructBusFailure := by
  intro s a f m zeros bss hn hs ha hz hbss hm hf
  subst hz hbss
  rw [exec_construct_ok hn hs ha]
  by_cases hg : m < (bringUpBytes s.cfg f).length
  · rw [bringUp_commands_fail (s := afterAllocation a f s) (d := ⟨f, a, []⟩) hn rfl rfl rfl hg hf,
      andThen_fault (by simp [midwayFailed]), failLog_append_left _ _ (by simpa using hg), if_pos hg]
    rfl
  · obtain ⟨r, rfl⟩ := Nat.exists_eq_add_of_le (Nat.not_lt.1 hg)
    have hr : r < (flushWinOf s.cfg f).length + 1 := by simp at hm; omega
    have hcontrast : ¬ (bringUpBytes s.cfg f).length + r < 1 + s.cfg.cmd.addrModeSeq.length + 2 := by
      simp [bringUpBytes]; omega
    have horient : ¬ (bringUpBytes s.cfg f).length + r <
        1 + s.cfg.cmd.addrModeSeq.length + 2 + s.cfg.cmd.orientNormal.length := by
      simp [bringUpBytes]; omega
    rw [bringUp_flush_fail (s := afterAllocation a f s) (d := ⟨f, a, []⟩) hn rfl hr hf, andThen_fault (by simp),
      if_neg hg, if_neg hcontrast, if_neg horient]
    rfl

/-- Settles O15: DESTRUCT's body on a live block. -/
theorem destructReleases : Obligations.DestructReleases := fun _ _ h => exec_live h .destruct

/-! ## The pixel-set (R125 to R128, R298) -/

theorem inBounds_iff {g : Geometry} {x y : Int} :
    inBounds g x y = true ↔ 0 ≤ x ∧ x < g.width ∧ 0 ≤ y ∧ y < g.height := by
  simp [inBounds, and_assoc]

/-- The buffer row `r` and byte index `i` that the spec computes in integers (R126, R127). -/
theorem pixelAddr_eq {g : Geometry} {x y : Int} (hx : 0 ≤ x) (hy : 0 ≤ y) {r i : Nat}
    (hr : (r : Int) = if g.quirk then 2 * y + 1 else y) (hi : (i : Int) = x + r / 8 * g.width) :
    pixelAddr g x y = (i, r % 8) := by
  have hrow : bufferRow g y.toNat = r := by
    unfold bufferRow
    split at hr
    · rw [if_pos ‹_›]
      omega
    · rw [if_neg ‹_›]
      omega
  have hbyte : byteIndex g x.toNat r = i := by
    zify [byteIndex]
    rw [Int.toNat_of_nonneg hx, hi]
  rw [pixelAddr, hrow, hbyte, bitIndex]

/-- The pixel-set outside the panel (R128). -/
theorem plot_outside {s : State} {d : Surface} (hd : s.surf = some d) {x y : Int}
    (hb : ¬ inBounds (s.geom d) x y = true) (c : Colour) : plot x y c s = s := by
  simp [plot, hd, hb]

/-- The pixel-set inside the panel and past the buffer (R56, R127). -/
theorem plot_past {s : State} {d : Surface} (hd : s.surf = some d) {x y : Int}
    (hb : inBounds (s.geom d) x y = true) (ha : s.fbSize d ≤ (pixelAddr (s.geom d) x y).1) (c : Colour) :
    plot x y c s = raise .overrun (infoOf (pixelAddr (s.geom d) x y).1) s := by
  simp [plot, hd, hb, ha.not_gt]

/-- Settles O16: the three cases of the pixel-set, at the address of R126 and R127. -/
theorem setpixWritesOneBit : Obligations.SetpixWritesOneBit := by
  intro s d x y c g ⟨hlive, _, hdef⟩ hg
  subst hg
  rw [← inBounds_iff, exec_live hlive]
  refine ⟨fun hout => congrArg _ (plot_outside hlive.2 hout c), fun hin r i k hr hi hk => ?_⟩
  have haddr : pixelAddr (s.geom d) x y = (i, k) := by
    obtain ⟨hx, _, hy, _⟩ := inBounds_iff.1 hin
    rw [hk]
    exact pixelAddr_eq hx hy hr hi
  refine ⟨fun hpast => ?_, fun hfits => ?_⟩
  · have hplot := plot_past hlive.2 hin (by rwa [haddr]) c
    rw [haddr] at hplot
    exact congrArg _ hplot
  · obtain ⟨v, hv⟩ := Option.isSome_iff_exists.1 (hdef i hfits)
    have hplot := plot_inside hlive.2 hin (v := v) (by rwa [haddr]) (by rwa [haddr]) c
    rw [haddr] at hplot
    exact ⟨_, v, applyColour c k v, congrArg _ hplot, hv, read_write_same _ _ _,
      fun j hj => read_write_ne _ _ hj, by cases c <;> rfl⟩

/-! ## The row transform (R127, R298) -/

theorem geometryOk_geomOf {cfg : Config} (h : configOk cfg = true) (f : Family) :
    geometryOk (geomOf cfg f) = true := by
  simp only [configOk, Bool.and_eq_true] at h
  obtain ⟨⟨⟨⟨h0, h1⟩, _⟩, _⟩, _⟩ := h
  cases f
  · exact h0
  · exact h1

theorem geometryOk_iff (g : Geometry) : geometryOk g = true ↔
    g.height % 8 = 0 ∧ 1 ≤ g.width ∧ g.width ≤ 32767 ∧ 8 ≤ g.height ∧ g.height ≤ 32767 ∧ fbBytes g ≤ 65536 := by
  simp [geometryOk, and_assoc]

/-- A column and a whole number of rows of `w` columns before it, in their one-dimensional order. -/
theorem column_add_row_lt_iff {w x q p : Nat} (hx : x < w) : x + q * w < p * w ↔ q < p := by
  rw [← Nat.div_lt_iff_lt_mul (by omega), Nat.add_mul_div_right _ _ (by omega), Nat.div_eq_of_lt hx, Nat.zero_add]

/-- A byte in the panel's columns lies in the buffer exactly when its row lies in the panel's height, which is a whole
number of pages (R11, R12, R54). -/
theorem byteIndex_lt_iff {g : Geometry} (hh : g.height % 8 = 0) {x r : Nat} (hx : x < g.width) :
    byteIndex g x r < fbBytes g ↔ r < g.height := by
  obtain ⟨p, hp⟩ := Nat.dvd_of_mod_eq_zero hh
  have hsize : fbBytes g = p * g.width := by
    rw [fbBytes, hp, show g.width * (8 * p) = p * g.width * 8 by ring, Nat.mul_div_cancel _ (by decide)]
  rw [byteIndex, hsize, column_add_row_lt_iff hx]
  omega

/-- Byte index and bit number determine column and buffer row (R54). -/
theorem byteIndex_bitIndex_inj {g : Geometry} {x r x' r' : Nat} (hx : x < g.width) (hx' : x' < g.width)
    (hbyte : byteIndex g x r = byteIndex g x' r') (hbit : bitIndex r = bitIndex r') : x = x' ∧ r = r' := by
  have hcolumn : x = x' := by
    simpa [byteIndex, Nat.mod_eq_of_lt hx, Nat.mod_eq_of_lt hx'] using congrArg (· % g.width) hbyte
  have hpage : r / 8 = r' / 8 := by
    have hwidth : 0 < g.width := by omega
    simpa [byteIndex, hcolumn, hwidth.ne'] using hbyte
  unfold bitIndex at hbit
  omega

theorem bufferRow_inj {g : Geometry} {y y' : Nat} (h : bufferRow g y = bufferRow g y') : y = y' := by
  unfold bufferRow at h
  split at h <;> omega

/-- Settles O17: on the quirk family the row `2y + 1` is odd, and lies in the panel exactly for `y` in its upper half;
byte and bit determine the row. -/
theorem rowTransformConsequences : Obligations.RowTransformConsequences := by
  intro cfg f g x y x' y' hcfg hg hin hin'
  subst hg
  obtain ⟨hpages, -⟩ := (geometryOk_iff _).1 (geometryOk_geomOf hcfg f)
  obtain ⟨hx, hxw, hy, hyh⟩ := inBounds_iff.1 hin
  obtain ⟨hx', hxw', hy', -⟩ := inBounds_iff.1 hin'
  refine ⟨?_, fun hq => ?_, fun he => ?_⟩
  · rw [pixelAddr, byteIndex_lt_iff hpages (by omega), bufferRow]
    cases (geomOf cfg f).quirk with
    | true => simp; omega
    | false => simp; omega
  · simp only [pixelAddr, bitIndex, bufferRow, hq, if_true]
    omega
  · obtain ⟨hbyte, hbit⟩ := Prod.mk.inj he
    obtain ⟨hcol, hrow⟩ := byteIndex_bitIndex_inj (by omega) (by omega) hbyte hbit
    have := bufferRow_inj hrow
    omega

/-! ## Whole-buffer operations (R129 to R132) -/

/-- One iteration of the loop of byte writes: byte and index (R56). -/
def writeByte (p : Byte × Nat) (s : State) : State :=
  match s.surf with
  | some d => fbWrite d p.2 p.1 s
  | none => s

theorem writeEach_eq (bytes : List Byte) : writeEach bytes = forEach writeByte bytes.zipIdx := rfl

/-- The loop of byte writes, within the buffer: the bytes written, and the framebuffer's own after them. -/
theorem writeEach_withFb {s : State} {d : Surface} (h : Live s d) (hfb : fbWf (s.fbSize d) d.fb) {bytes : List Byte}
    (hl : bytes.length ≤ s.fbSize d) : ∃ fb, writeEach bytes s = s.withFb d fb ∧ fbWf (s.fbSize d) fb ∧
      ∀ i, fb.read i = (bytes[i]?).or (d.fb.read i) := by
  induction bytes using List.reverseRecOn with
  | nil => exact ⟨d.fb, (withFb_self s d h.2).symm, hfb, by simp⟩
  | append_singleton bytes b ih =>
    rw [List.length_append, List.length_singleton] at hl
    obtain ⟨fb, hloop, hwf, hread⟩ := ih (by omega)
    refine ⟨fb.write bytes.length b, ?_, fbWf_write hwf hl b, fun i => ?_⟩
    · rw [writeEach_eq] at hloop ⊢
      rw [List.zipIdx_append, forEach_append, hloop, andThen_none (by exact h.1), Nat.zero_add,
        List.zipIdx_singleton, forEach_cons _ (by exact h.1), forEach_nil]
      exact fbWrite_in (s := s.withFb d fb) (d := { d with fb := fb }) hl b
    · rw [read_write, hread, List.getElem?_append]
      obtain hi | rfl | hi := Nat.lt_trichotomy i bytes.length
      · rw [if_neg hi.ne, if_pos hi]
      · simp
      · simp [hi.ne', hi.not_gt, Nat.sub_ne_zero_of_lt hi]

/-- Settles O20: the loop writes every byte of the buffer, so it leaves the canonical memory of the bytes. -/
theorem fillIsTheLoopOfWrites : Obligations.FillIsTheLoopOfWrites := by
  intro s d bytes h hfb hl
  obtain ⟨fb, hloop, ⟨hwf, hout⟩, hread⟩ := writeEach_withFb h hfb hl.le
  rw [hloop, fbFill]
  refine congrArg _ (memory_ext (ofBytes_wf bytes) hwf fun i => ?_)
  rw [read_ofBytes]
  by_cases hi : i < bytes.length
  · rw [hread, List.getElem?_eq_getElem hi, Option.some_or]
  · rw [hout i (by omega), List.getElem?_eq_none (by omega)]

/-- Settles O21: the flush of the framebuffer's bytes, each of which holds a value. -/
theorem flushSendsTheFramebuffer : Obligations.FlushSendsTheFramebuffer := by
  intro s d ⟨h, _, hdef⟩ hok
  exact ⟨fbBytesOf s d, length_fbBytesOf s d, fun i hi => fbBytesOf_get hi hdef,
    (exec_live h .flush).trans (congrArg _ (flushBytes_ok h.1 h.2 _ hok))⟩

/-- Settles O22: the read of the frame is its bytes, and the flush sends them. -/
theorem flushxSendsTheFrame : Obligations.FlushxSendsTheFrame := by
  intro s d addr bytes h hl hbytes hok
  have hread : memRead s.xm addr.toNat (s.fbSize d) = .ok bytes := hl ▸ memRead_holds addr.isLt hbytes
  exact (exec_live h _).trans (congrArg _ ((withMem_ok hread _).trans (flushBytes_ok h.1 h.2 _ hok)))

/-- Settles O23: LOADBMP fills the buffer, and the framebuffer is then the bytes laid out from address 0. -/
theorem loadbmpCopiesTheBitmap : Obligations.LoadbmpCopiesTheBitmap := by
  intro s d addr bytes h hl hbytes
  exact ⟨Memory.ofBytes bytes, exec_loadbmp h hl hbytes, hl ▸ fbWf_ofBytes bytes, fun i _ => read_ofBytes bytes i⟩

/-! ## Setters and the power state (R133 to R137) -/

/-- One command byte and what follows, when the transaction is ok. -/
theorem andThen_busCmd_ok {s : State} {d : Surface} (h : Live s d) (b : Byte) (hok : busOk s 1) (k : State → State) :
    andThen (busCmd b s) k = k (logged s d.devaddr [[0x00, b]]) := by
  rw [busCmd_eq h.1]
  exact andThen_busCmds_ok (bs := [b]) h.1 h.2 hok k

/-- Settles O28: the commands of the operand, then the shadow's write. -/
theorem orientSendsAndShadows : Obligations.OrientSendsAndShadows := by
  intro s d e bs h hbs hok
  have hbytes : bs = orientBytes s.cfg.cmd e := by cases e <;> exact hbs
  subst hbytes
  simp only [exec_live h, body, andThen_busCmds_ok h.1 h.2 hok]
  rfl

/-- Settles O26: the opcode and the value, then the shadow's write. -/
theorem contrastSendsAndShadows : Obligations.ContrastSendsAndShadows := by
  intro s d v h hok
  have hcmds := andThen_busCmds_ok (bs := [s.cfg.cmd.contrast, v]) h.1 h.2 hok
  simp only [exec_live h, body, hcmds]
  rfl

/-- Settles O27: the command of the operand, then the shadow's write. -/
theorem invertSendsAndShadows : Obligations.InvertSendsAndShadows := by
  intro s d e h hok
  simp only [exec_live h, body, andThen_busCmd_ok h _ hok]
  cases e <;> rfl

/-- Settles O29: the command of the operand, then the power state's write, whatever the power state was. -/
theorem powerSendsAndSwitches : Obligations.PowerSendsAndSwitches := by
  intro s d h hok
  simp only [exec_live h, body, andThen_busCmd_ok h _ hok]
  exact ⟨rfl, rfl⟩

/-! ## Accessors (R138 to R140) -/

/-- Settles O32: the sizes that R11 allows are values of 32 bits. -/
theorem accessorsReturnGeometry : Obligations.AccessorsReturnGeometry := by
  intro s d g hcfg h hg
  subst hg
  obtain ⟨_, _, hw, _, hh, hn⟩ := (geometryOk_iff _).1 (geometryOk_geomOf hcfg d.fam)
  have hfit {n : Nat} (hn : n ≤ 65536) : (BitVec.ofNat 32 n).toNat = n := by
    rw [BitVec.toNat_ofNat, Nat.mod_eq_of_lt (by omega)]
  exact ⟨_, _, _, hfit hn, hfit (by omega), hfit (by omega), exec_live h .getbufsz, exec_live h .getw,
    exec_live h .geth⟩

/-! ## Shapes (R125, R180, R299) -/

/-- Settles O41: a shape is its list of pixels, and pixels that stay in the buffer are all plotted. -/
theorem shapesPaintTheirPixels : Obligations.ShapesPaintTheirPixels := by
  intro s d i ps c ⟨hlive, hwf, hdef⟩ hi hps
  obtain ⟨fb, hplot, hpaint⟩ := plotAll_painted hlive.1 hlive.2 hwf hdef c hps
  exact ⟨fb, by rw [exec_shape hlive hi, hplot, State.withFb], hpaint⟩

end Sys2Proof.Proofs
end

section
/-! PROOF. Lines and rectangles (41_rasterizer_lines.md): the pixels of LINE (R181, R182), HLINE and VLINE (R183,
R184), RECT (R186), FRECT (R187) and PBAR (R188), and what drawing leaves unchanged (R180, R297). -/

namespace Sys2Proof.Proofs

open Sys2Proof Sys2Proof.Machine Sys2Proof.Laws

/-! ## LINE's two swaps (R181) -/

/-- The second swap of LINE (R181): two ends, the one that is not further right first. -/
def leftToRight (p q : Int × Int) : (Int × Int) × (Int × Int) := if p.1 > q.1 then (q, p) else (p, q)

theorem leftToRight_comm {p q : Int × Int} (h : p.1 = q.1 → p = q) : leftToRight q p = leftToRight p q := by
  unfold leftToRight
  rcases lt_trichotomy p.1 q.1 with hlt | heq | hgt
  · rw [if_pos hlt, if_neg hlt.le.not_gt]
  · rw [h heq]
  · rw [if_neg hgt.le.not_gt, if_pos hgt]

theorem leftToRight_cases {p q a b : Int × Int} (h : (a, b) = leftToRight p q) :
    (q.1 < p.1 ∧ a = q ∧ b = p) ∨ (p.1 ≤ q.1 ∧ a = p ∧ b = q) := by
  unfold leftToRight at h
  split at h <;> obtain ⟨rfl, rfl⟩ := Prod.mk.inj h
  · exact .inl ⟨‹_›, rfl, rfl⟩
  · exact .inr ⟨not_lt.1 ‹_›, rfl, rfl⟩

section
variable {x0 y0 x1 y1 : Int} {steep : Bool} (hsteep : steep = decide (|y1 - y0| > |x1 - x0|))
  {a b : Int × Int} (hends : (a, b) = leftToRight (unswap steep (x0, y0)) (unswap steep (x1, y1)))
include hsteep

/-- After the first swap the ends lie at least as far apart along the first axis as along the second. -/
theorem unswap_spans : |(unswap steep (x1, y1)).2 - (unswap steep (x0, y0)).2| ≤
      |(unswap steep (x1, y1)).1 - (unswap steep (x0, y0)).1| ∧
    |(unswap steep (x1, y1)).1 - (unswap steep (x0, y0)).1| = max |x1 - x0| |y1 - y0| := by
  cases steep with
  | true =>
    have hlt := of_decide_eq_true hsteep.symm
    exact ⟨hlt.le, (max_eq_right hlt.le).symm⟩
  | false =>
    have hle := not_lt.1 (of_decide_eq_false hsteep.symm)
    exact ⟨hle, (max_eq_left hle).symm⟩

theorem unswap_eq_of_fst_eq (h : (unswap steep (x0, y0)).1 = (unswap steep (x1, y1)).1) :
    unswap steep (x0, y0) = unswap steep (x1, y1) := by
  have hspan := (unswap_spans hsteep).1
  rw [h, sub_self, abs_zero, abs_nonpos_iff, sub_eq_zero] at hspan
  exact Prod.ext h hspan.symm

include hends

theorem linePixels_eq_lineFrom : linePixels x0 y0 x1 y1 = lineFrom steep a.1 a.2 b.1 b.2 := by
  rw [linePixels, ← hsteep]
  rcases leftToRight_cases hends with ⟨hlt, rfl, rfl⟩ | ⟨hle, rfl, rfl⟩
  · cases steep <;> exact if_pos hlt
  · cases steep <;> exact if_neg hle.not_gt

/-- LINE's loop runs left to right, along the axis in which the ends lie further apart. -/
theorem ends_spans : a.1 ≤ b.1 ∧ |b.2 - a.2| ≤ b.1 - a.1 ∧ b.1 - a.1 = max |x1 - x0| |y1 - y0| := by
  obtain ⟨hspan, hmax⟩ := unswap_spans hsteep
  rcases leftToRight_cases hends with ⟨hlt, rfl, rfl⟩ | ⟨hle, rfl, rfl⟩
  · rw [abs_of_neg (sub_neg_of_lt hlt), neg_sub] at hspan hmax
    exact ⟨hlt.le, (abs_sub_comm _ _).trans_le hspan, hmax⟩
  · rw [abs_of_nonneg (sub_nonneg_of_le hle)] at hspan hmax
    exact ⟨hle, hspan, hmax⟩

end

/-- Settles O34: after the two swaps LINE is its loop, whose error term gives each pixel's place. -/
theorem linePixelsAreBresenham : Obligations.LinePixelsAreBresenham := by
  intro x0 y0 x1 y1 a0 b0 a1 b1 steep p q hsteep hp hq hends
  subst hp hq
  obtain ⟨hle, hspan, hmax⟩ := ends_spans hsteep hends
  rw [linePixels_eq_lineFrom hsteep hends, length_lineFrom]
  refine ⟨by rw [hmax], fun i hi => ?_⟩
  rcases hle.eq_or_lt with heq | hlt
  · obtain rfl : a0 = a1 := heq
    obtain rfl : i = 0 := by omega
    exact ⟨0, by simp [lineFrom_self, unswap], .inl ⟨rfl, rfl⟩⟩
  · exact ⟨_, lineFrom_get hlt hspan hi, .inr ⟨hlt, rfl⟩⟩

theorem linePixels_nodup (x0 y0 x1 y1 : Int) : (linePixels x0 y0 x1 y1).Nodup := by
  obtain ⟨hle, hspan, _⟩ := ends_spans (x0 := x0) (y0 := y0) (x1 := x1) (y1 := y1) rfl rfl
  rw [linePixels_eq_lineFrom rfl rfl]
  exact lineFrom_nodup hle hspan

theorem linePixels_comm (x0 y0 x1 y1 : Int) : linePixels x1 y1 x0 y0 = linePixels x0 y0 x1 y1 := by
  rw [linePixels_eq_lineFrom (x0 := x0) rfl rfl]
  refine linePixels_eq_lineFrom (by rw [abs_sub_comm y0, abs_sub_comm x0]) ?_
  exact (leftToRight_comm (unswap_eq_of_fst_eq rfl)).symm

/-- Settles O35: the loop moves along the major axis in every iteration, and the second swap forgets which end came
first. -/
theorem lineEachPixelOnceEitherWay : Obligations.LineEachPixelOnceEitherWay := fun x0 y0 x1 y1 =>
  ⟨linePixels_nodup x0 y0 x1 y1, linePixels_comm x0 y0 x1 y1⟩

/-! ## HLINE and VLINE (R183, R184) -/

theorem linePixels_horizontal {x0 x1 : Int} (hx : x0 ≤ x1) (y : Int) : linePixels x0 y x1 y =
    (List.range (x1 - x0 + 1).toNat).map fun i : Nat => (x0 + (i : Int), y) := by
  have hends : ((x0, y), (x1, y)) = leftToRight (x0, y) (x1, y) := (if_neg hx.not_gt).symm
  rw [linePixels_eq_lineFrom (steep := false) (by simp) hends, lineFrom_flat hx,
    Int.toNat_add (by omega) (by omega)]
  rfl

theorem linePixels_vertical (x : Int) {y0 y1 : Int} (hy : y0 ≤ y1) : linePixels x y0 x y1 =
    (List.range (y1 - y0 + 1).toNat).map fun i : Nat => (x, y0 + (i : Int)) := by
  rcases hy.eq_or_lt with rfl | hlt
  · simp [linePixels_horizontal]
  · have hends : ((y0, x), (y1, x)) = leftToRight (y0, x) (y1, x) := (if_neg hy.not_gt).symm
    rw [linePixels_eq_lineFrom (steep := true) (by simp; omega) hends, lineFrom_flat hy,
      Int.toNat_add (by omega) (by omega)]
    rfl

/-- Settles O36: a length below 1 is the line from its other end. -/
theorem straightLinePixels : Obligations.StraightLinePixels := by
  intro x y w
  rw [hlinePixels, vlinePixels]
  by_cases hw : w ≥ 1
  · have hspan (v : Int) : v + w - 1 - v + 1 = w := by ring
    simp only [if_pos hw, linePixels_horizontal (show x ≤ x + w - 1 by omega),
      linePixels_vertical x (show y ≤ y + w - 1 by omega), hspan, and_self]
  · have hspan (v : Int) : v - (v + w - 1) + 1 = 2 - w := by ring
    simp only [if_neg hw, linePixels_comm (x + w - 1), linePixels_comm x (y + w - 1),
      linePixels_horizontal (show x + w - 1 ≤ x by omega),
      linePixels_vertical x (show y + w - 1 ≤ y by omega), hspan, and_self]

theorem hlinePixels_eq (x y : Int) {w : Int} (hw : 1 ≤ w) :
    hlinePixels x y w = (List.range w.toNat).map fun i : Nat => (x + (i : Int), y) := by
  simpa only [if_pos hw] using (straightLinePixels x y w).1

theorem vlinePixels_eq (x y : Int) {h : Int} (hh : 1 ≤ h) :
    vlinePixels x y h = (List.range h.toNat).map fun j : Nat => (x, y + (j : Int)) := by
  simpa only [if_pos hh] using (straightLinePixels x y h).2

theorem hlinePixels_nodup (x y w : Int) : (hlinePixels x y w).Nodup := linePixels_nodup _ _ _ _

theorem vlinePixels_nodup (x y h : Int) : (vlinePixels x y h).Nodup := linePixels_nodup _ _ _ _

theorem mem_hlinePixels {x y w px py : Int} (hw : 1 ≤ w) :
    (px, py) ∈ hlinePixels x y w ↔ x ≤ px ∧ px < x + w ∧ py = y := by
  simp only [hlinePixels_eq x y hw, List.mem_map, List.mem_range, Prod.mk.injEq]
  constructor
  · rintro ⟨i, hi, rfl, rfl⟩
    omega
  · rintro ⟨hlo, hhi, rfl⟩
    exact ⟨(px - x).toNat, by omega, by omega, rfl⟩

theorem mem_vlinePixels {x y h px py : Int} (hh : 1 ≤ h) :
    (px, py) ∈ vlinePixels x y h ↔ y ≤ py ∧ py < y + h ∧ px = x := by
  simp only [vlinePixels_eq x y hh, List.mem_map, List.mem_range, Prod.mk.injEq]
  constructor
  · rintro ⟨j, hj, rfl, rfl⟩
    omega
  · rintro ⟨hlo, hhi, rfl⟩
    exact ⟨(py - y).toNat, by omega, rfl, by omega⟩

theorem count_hlinePixels {x y w px py : Int} (hw : 1 ≤ w) :
    (hlinePixels x y w).count (px, py) = if x ≤ px ∧ px < x + w ∧ py = y then 1 else 0 := by
  simp only [(hlinePixels_nodup x y w).count, mem_hlinePixels hw]

theorem count_vlinePixels {x y h px py : Int} (hh : 1 ≤ h) :
    (vlinePixels x y h).count (px, py) = if y ≤ py ∧ py < y + h ∧ px = x then 1 else 0 := by
  simp only [(vlinePixels_nodup x y h).count, mem_vlinePixels hh]

/-! ## Rectangles (R186 to R188) -/

/-- Settles O37: the four edges each reach their pixels once. -/
theorem rectPixelCounts : Obligations.RectPixelCounts := by
  intro x y w h px py hw hh
  simp only [rectPixels, List.count_append, count_hlinePixels hw, count_vlinePixels hh]

theorem mem_frectPixels {x y w h px py : Int} (hh : 1 ≤ h) :
    (px, py) ∈ frectPixels x y w h ↔ x ≤ px ∧ px < x + w ∧ y ≤ py ∧ py < y + h := by
  simp only [frectPixels, List.mem_flatMap, List.mem_range, mem_vlinePixels hh]
  constructor
  · rintro ⟨i, hi, hcol⟩
    omega
  · rintro ⟨hxlo, hxhi, hylo, hyhi⟩
    exact ⟨(px - x).toNat, by omega, hylo, hyhi, by omega⟩

theorem frectPixels_nodup {x y w h : Int} (hh : 1 ≤ h) : (frectPixels x y w h).Nodup := by
  rw [frectPixels, List.nodup_flatMap]
  refine ⟨fun i _ => vlinePixels_nodup _ _ _, List.nodup_range.imp fun {i j} hij => ?_⟩
  rintro ⟨px, py⟩ hi hj
  obtain ⟨_, _, hxi⟩ := (mem_vlinePixels hh).1 hi
  obtain ⟨_, _, hxj⟩ := (mem_vlinePixels hh).1 hj
  omega

/-- Settles O38: the columns are vertical lines, each pixel in one of them, and once. -/
theorem frectPixelsOnce : Obligations.FrectPixelsOnce := by
  intro x y w h
  refine ⟨fun hw => ?_, fun hh => ?_, fun hw hh px py => ?_⟩
  · simp [frectPixels, Int.toNat_of_nonpos hw]
  · simp only [frectPixels, vlinePixels_eq _ y hh]
  · simp only [(frectPixels_nodup hh).count, mem_frectPixels hh]

theorem clamp_eq {v lo hi : Int} (h : lo ≤ hi) : clamp v lo hi = if v < lo then lo else if hi < v then hi else v := by
  unfold clamp
  split_ifs <;> omega

/-- The fill width is the floor of R188. -/
theorem fillWidth_floor (w p : Int) : 100 * fillWidth w p ≤ w * clamp p 0 100 ∧
    w * clamp p 0 100 < 100 * fillWidth w p + 100 := by
  rw [fillWidth, Int.fdiv_eq_ediv_of_nonneg _ (by decide)]
  omega

/-- Settles O39: the fill width is a floor of `w` times a number from 0 to 100, over 100. -/
theorem pbarOutlineThenFill : Obligations.PbarOutlineThenFill := by
  intro x y w h p
  obtain ⟨hlo, hhi⟩ := fillWidth_floor w p
  have hq := clamp_eq (v := p) (show (0 : Int) ≤ 100 by decide)
  generalize clamp p 0 100 = q at hlo hhi hq
  have hbounds : 0 ≤ q ∧ q ≤ 100 := by omega
  refine ⟨q, fillWidth w p, hq, hlo, hhi, rfl, fun hp => ?_, fun hp => ?_, fun hw => ?_, fun hw => ?_⟩
  · obtain rfl : q = 0 := by omega
    omega
  · obtain rfl : q = 100 := by omega
    omega
  · have := mul_nonpos_of_nonpos_of_nonneg hw hbounds.1
    omega
  · have := mul_nonneg hw hbounds.1
    have := mul_le_mul_of_nonneg_left hbounds.2 hw
    omega

/-! ## What drawing leaves unchanged (R180, R297) -/

/-- `t` is `s` but for the framebuffer of its surface `d` and, on a fault, the fault registers. -/
def DrawnFrom (s : State) (d : Surface) (t : State) : Prop :=
  ∃ fb, t.surf = some { d with fb := fb } ∧
    t = { s with surf := t.surf, fault := t.fault, faultWord := t.faultWord, faultInfo := t.faultInfo } ∧
    (t.fault = .none → t.faultWord = s.faultWord ∧ t.faultInfo = s.faultInfo)

theorem kindsOf_of_drawsOnly {i : Instr} (hi : drawsOnly i = true) {k : Kind} (hk : kindsOf i k = true) :
    k = .fault ∨ k = .pixels := by
  cases i <;> simp_all [drawsOnly, kindsOf]

/-- A fault entry and a write of the framebuffer keep everything else. -/
theorem effect_drawnFrom {k : Kind} (hk : k = .fault ∨ k = .pixels) {s m t : State} {d : Surface} (he : Effect k m t)
    (h : DrawnFrom s d m) : DrawnFrom s d t := by
  obtain ⟨fb, hsurf, hm, hregs⟩ := h
  cases he with
  | fault _ c n hc =>
    refine ⟨fb, hsurf, ?_, fun h => absurd h hc⟩
    rw [raise, hm]
  | pixels _ d' fb' hd =>
    obtain rfl := Option.some.inj (hd.symm.trans hsurf)
    refine ⟨fb', rfl, ?_, hregs⟩
    rw [State.withFb, hm]
  | _ => simp at hk

/-- Settles O43: a drawing operation is a chain of fault entries and writes of the framebuffer. -/
theorem drawingChangesOnlyTheFramebuffer : Obligations.DrawingChangesOnlyTheFramebuffer := by
  intro s t d i hi hlive h
  have hstart : DrawnFrom s d s := ⟨d.fb, hlive.2, rfl, fun _ => ⟨rfl, rfl⟩⟩
  exact (exec_effects h).2.keeps (P := DrawnFrom s d)
    (fun _ _ _ _ hk he => effect_drawnFrom (kindsOf_of_drawsOnly hi hk) he) hstart

end Sys2Proof.Proofs
end

section
/-! PROOF. Glyphs, strings and fonts (42_rasterizer_glyphs.md): a glyph's pixels (R222, R224), CHAR and STRING that
complete (R222, R225), that overrun (R255), that meet a byte XM does not hold (R257) and that are skipped (R223,
R225), and the font register (R226, R227). -/

namespace Sys2Proof.Proofs

open Sys2Proof Sys2Proof.Machine Sys2Proof.Laws

/-! ## Drawing that completes and drawing that overruns -/

/-- A drawing operation whose pixels stay in the buffer paints them and changes nothing else. -/
theorem exec_painted {s : State} {d : Surface} (h : Ready s d) {i : Instr} {c : Colour} {ps : List (Int × Int)}
    (hi : body i d s = plotAll c ps s) (hps : noOverrun (s.geom d) ps) :
    ∃ fb, exec i s = .next { s with surf := some { d with fb := fb } } ∧ Painted (s.geom d) c ps d.fb fb := by
  obtain ⟨hlive, hwf, hdef⟩ := h
  obtain ⟨fb, hplot, hpaint⟩ := plotAll_painted hlive.1 hlive.2 hwf hdef c hps
  exact ⟨fb, by rw [exec_live hlive, hi, hplot, State.withFb], hpaint⟩

/-- Settles O42: a shape, or a glyph part-way, plots the pixels up to the overrunning one; the fault entry ends the
operation, so whatever would follow does not run. -/
theorem shapesStopAtTheFirstOverrun : Obligations.ShapesStopAtTheFirstOverrun := by
  intro s d i ps qs p c ⟨hlive, hwf, hdef⟩ hi hps hin hpast
  have hbody : ∃ k, body i d s = andThen (plotAll c (ps ++ p :: qs) s) k := by
    obtain hshape | ⟨_, _, _, _, hcols⟩ := hi
    · exact ⟨id, by rw [body_of_shapePixels hshape, andThen_id]⟩
    · obtain ⟨_, _, _, _, e⟩ := body_of_drawsColumns hlive.1 hcols d
      exact ⟨_, e⟩
  obtain ⟨k, hbody⟩ := hbody
  obtain ⟨fb, hplot, hpaint⟩ := plotAll_overrun (qs := qs) hlive.1 hlive.2 hwf hdef c hps hin hpast
  refine ⟨fb, ?_, hpaint⟩
  rw [exec_live hlive, hbody, hplot, andThen_fault (by simp)]
  rfl

/-! ## A glyph's pixels (R222, R224) -/

/-- The order in which a glyph's pixels are plotted: column by column, each top to bottom (R222). -/
def Precedes (p q : Int × Int) : Prop := p.1 < q.1 ∨ (p.1 = q.1 ∧ p.2 < q.2)

theorem not_precedes_self (p : Int × Int) : ¬ Precedes p p := by simp [Precedes]

theorem mem_columnPixels {x y : Int} {H : Nat} {b : Byte} {p : Int × Int} : p ∈ columnPixels x y H b ↔
    ∃ row : Nat, row < H ∧ row ≤ 7 ∧ b.getLsbD row = true ∧ p = (x, y + (row : Int)) := by
  simp only [columnPixels, List.mem_map, List.mem_filter, List.mem_range, Bool.and_eq_true, decide_eq_true_eq,
    and_assoc, eq_comm (a := p)]

theorem mem_glyphPixels {x y : Int} {H : Nat} {cols : List Byte} {p : Int × Int} : p ∈ glyphPixels x y H cols ↔
    ∃ (col row : Nat) (b : Byte), cols[col]? = some b ∧ row < H ∧ row ≤ 7 ∧ b.getLsbD row = true ∧
      p = (x + (col : Int), y + (row : Int)) := by
  simp only [glyphPixels, List.mem_flatMap, Prod.exists, List.mem_zipIdx_iff_getElem?, mem_columnPixels]
  constructor
  · rintro ⟨b, col, hb, row, hrow⟩
    exact ⟨col, row, b, hb, hrow⟩
  · rintro ⟨col, row, b, hb, hrow⟩
    exact ⟨b, col, hb, row, hrow⟩

theorem columnPixels_ordered (x y : Int) (H : Nat) (b : Byte) : (columnPixels x y H b).Pairwise Precedes := by
  refine List.pairwise_map.2 ((List.pairwise_lt_range.filter _).imp fun {i j} hij => .inr ⟨rfl, ?_⟩)
  show y + (i : Int) < y + (j : Int)
  omega

/-- Each column is in order, and lies to the left of the columns after it. -/
theorem glyphPixels_ordered (x y : Int) (H : Nat) (cols : List Byte) :
    (glyphPixels x y H cols).Pairwise Precedes := by
  rw [glyphPixels_eq, List.pairwise_flatMap]
  refine ⟨fun i _ => columnPixels_ordered _ y H _, List.pairwise_lt_range.imp fun {i j} hij p hp q hq => .inl ?_⟩
  obtain ⟨_, _, _, _, rfl⟩ := mem_columnPixels.1 hp
  obtain ⟨_, _, _, _, rfl⟩ := mem_columnPixels.1 hq
  show x + (i : Int) < x + (j : Int)
  omega

theorem glyphPixels_nodup (x y : Int) (H : Nat) (cols : List Byte) : (glyphPixels x y H cols).Nodup :=
  (glyphPixels_ordered x y H cols).imp fun hpq => by
    rintro rfl
    exact not_precedes_self _ hpq

/-- Settles O45: a glyph's pixels are its set bits, and they are in strict order, so each is there once. -/
theorem glyphPixelsAreSetBits : Obligations.GlyphPixelsAreSetBits := by
  intro x y H cols
  refine ⟨fun col row b hb hrow htop hset => ?_, fun px py hnone => ?_, glyphPixels_ordered x y H cols⟩
  · exact List.count_eq_one_of_mem (glyphPixels_nodup x y H cols)
      (mem_glyphPixels.2 ⟨col, row, b, hb, hrow, htop, hset, rfl⟩)
  · refine List.count_eq_zero.2 fun hmem => hnone ?_
    obtain ⟨col, row, b, hb, hrow, htop, hset, he⟩ := mem_glyphPixels.1 hmem
    exact ⟨col, row, b, hb, hrow, htop, hset, Prod.mk.inj he⟩

/-! ## CHAR and STRING (R222 to R225, R257) -/

/-- Settles O44: CHAR of a supported code plots its glyph's pixels. -/
theorem charDrawsItsGlyph : Obligations.CharDrawsItsGlyph := by
  intro s d x y ch c f H W cols h hlow hhigh hfont hheader hlen hcols hfits
  exact exec_painted h (drawGlyph_eq x y c (printable_iff.2 ⟨hlow, hhigh⟩) hfont hheader hlen hcols) hfits

/-- Settles O49: STRING plots the pixels of its characters' glyphs. -/
theorem stringDrawsItsGlyphs : Obligations.StringDrawsItsGlyphs := by
  intro s d x y addr c f H W str glyph h hfont hstr hfits
  exact exec_painted h (drawString_eq h.1.1 y c hfont x hstr) hfits

/-- Settles O48: the pixels before the read are all plotted, and the read then faults. -/
theorem textStopsAtAnUndefinedByte : Obligations.TextStopsAtAnUndefinedByte := by
  intro s d i c ps a ⟨hlive, hwf, hdef⟩ hreads hfits hundef
  obtain ⟨fb, hplot, hpaint⟩ := plotAll_painted hlive.1 hlive.2 hwf hdef c hfits
  refine ⟨fb, ?_, hpaint⟩
  rw [exec_live hlive, body_of_textReads hlive.1 hreads hundef, hplot, andThen_none (by exact hlive.1)]
  rfl

/-- Settles O46: an unsupported code is no glyph, and the loop over no characters does nothing. -/
theorem skippedTextHasNoEffect : Obligations.SkippedTextHasNoEffect := by
  intro s d x y ch addr c h
  refine ⟨fun hch => ?_, exec_live h _⟩
  have hskip : ¬ printable ch = true := by rw [printable_iff]; omega
  exact (exec_live h _).trans (congrArg _ (if_neg hskip))

/-! ## The font register (R226, R227) -/

/-- Settles O50: SETFONT's body writes the register, and GETFONT's reads it. -/
theorem fontRegisterSetAndGet : Obligations.FontRegisterSetAndGet := by
  intro s d a h
  refine ⟨exec_live h _, fun hfont => ?_⟩
  have hget : body .getfont d s = setRes a s := by simp only [body, hfont]
  rw [exec_live h, hget, setRes]

end Sys2Proof.Proofs
end

section
/-! PROOF. Faults and the outside of the block (60_exceptions.md): each fault code's entry (R250 to R263), a block
that has recorded a fault (R262), and several PMFBs on one transport (R271, R272). -/

namespace Sys2Proof.Proofs

open Sys2Proof Sys2Proof.Machine Sys2Proof.Laws

/-! ## Several PMFBs on one transport (R271, R272) -/

/-- A step's new transactions are all that its log gains (R36). -/
theorem buslog_append_newTransactions {s t : State} (h : step s = .next t) :
    t.buslog = s.buslog ++ newTransactions s t := by
  obtain ⟨l, hl, _⟩ := busLogOnlyGrows s t h
  rw [newTransactions, hl, List.drop_left]

/-- A step of member `j` replaces that member and puts the step's new transactions on the wire as one block. -/
theorem stepAt_next {p q : Platform} {j : Nat} (h : p.stepAt j = some (.next q)) :
    ∃ s t, p.members[j]? = some s ∧ step s = .next t ∧
      q = ⟨p.members.set j t, p.wire ++ (newTransactions s t).map fun x => (j, x)⟩ := by
  unfold Platform.stepAt at h
  cases hs : p.members[j]? with
  | none => simp [hs] at h
  | some s =>
    cases hst : step s with
    | next t => exact ⟨s, t, rfl, hst, by simpa [hs, hst] using h.symm⟩
    | fault f => simp [hs, hst] at h
    | refused r => simp [hs, hst] at h

theorem wireOf_append_same (ms ms' : List State) (wire : List (Nat × Transaction)) (j : Nat) (l : List Transaction) :
    Platform.wireOf ⟨ms', wire ++ l.map fun x => (j, x)⟩ j = Platform.wireOf ⟨ms, wire⟩ j ++ l := by
  simp [Platform.wireOf, List.filter_map, Function.comp_def]

theorem wireOf_append_ne (ms ms' : List State) (wire : List (Nat × Transaction)) {j k : Nat} (hk : k ≠ j)
    (l : List Transaction) :
    Platform.wireOf ⟨ms', wire ++ l.map fun x => (j, x)⟩ k = Platform.wireOf ⟨ms, wire⟩ k := by
  simp [Platform.wireOf, hk.symm]

/-- Settles O60: a step replaces one member and puts what its log gains on the wire under that member's number, so
the wire's part of every other member stays. -/
theorem instancesAreIndependent : Obligations.InstancesAreIndependent := by
  intro p q j h
  obtain ⟨s, t, hs, hst, rfl⟩ := stepAt_next h
  have hj : (p.members.set j t)[j]? = some t :=
    List.getElem?_set_self (List.getElem?_eq_some_iff.1 hs).1
  have hother : ∀ k, k ≠ j → (p.members.set j t)[k]? = p.members[k]? := fun k hk => List.getElem?_set_ne hk.symm
  have hlog := buslog_append_newTransactions hst
  refine ⟨List.length_set, hother, ⟨s, t, _, hs, hst, hj, hlog, rfl⟩, fun hwire k u hu => ?_⟩
  by_cases hk : k = j
  · subst hk
    obtain rfl : t = u := Option.some_inj.1 (hj.symm.trans hu)
    rw [wireOf_append_same p.members, hwire k s hs, hlog]
  · rw [wireOf_append_ne p.members _ _ hk]
    exact hwire k u ((hother k hk).symm.trans hu)

/-! ## The illegal word (R89, R253) and the stuck block (R262) -/

/-- Settles O8: a word that no row describes is an error of the decoder, which the step looks at first. -/
theorem illegalWordRaisesIllegal : Obligations.IllegalWordRaisesIllegal := by
  intro s w rest hn hp hw
  have hword : s.opWord = some w := by rw [State.opWord, hp, List.head?_cons]
  cases hd : decode w with
  | ok i => exact absurd ((decodeAcceptsExactlyTheTable w).1 ⟨i, hd⟩) hw
  | error r => rw [step_illegal hn hword hd, raise, hword]

/-- Settles O9: the step and every operation look at the recorded fault first. -/
theorem faultedBlockIsStuck : Obligations.FaultedBlockIsStuck := fun _ hn => ⟨step_stuck hn, exec_stuck hn⟩

/-! ## The lifecycle and the allocation (R254, R260) -/

theorem eq_construct_of_isConstruct {i : Instr} (h : isConstruct i = true) : ∃ a f, i = .construct a f := by
  cases i
  case construct a f => exact ⟨a, f, rfl⟩
  all_goals cases h

/-- Settles O10: CONSTRUCT's body on a live block, and the common step of the others on one that is not alive. -/
theorem lifecycleMisuseRaisesState : Obligations.LifecycleMisuseRaisesState := by
  intro s i hn hi
  by_cases hs : s.surf = none
  · exact exec_dead hn hs (by simpa [hs] using hi)
  · obtain ⟨d, hd⟩ := Option.ne_none_iff_exists'.1 hs
    obtain ⟨a, f, rfl⟩ := eq_construct_of_isConstruct (hi.2 (by simp [hd]))
    exact exec_live ⟨hn, hd⟩ _

/-- Settles O13: the draw is taken before the first transaction (R121). -/
theorem constructAllocationFailure : Obligations.ConstructAllocationFailure := by
  intro s a f hn hs ha
  rw [exec_construct hn, constructBody, if_neg (by simp [State.alive, hs]), if_neg (by simp [ha])]
  rfl

/-! ## CLEAR with TOGGLE (R129, R256) -/

theorem exec_clear_fill {s : State} {d : Surface} (h : Live s d) {c : Colour} (hc : c ≠ .toggle) :
    exec (.clear c) s = .next (fbFill d (List.replicate (s.fbSize d) (fillByte c)) s) := by
  rw [exec_live h]
  exact congrArg _ (if_neg hc)

/-- Settles O19: TOGGLE's fault entry is all that happens, and the other colours lay out one byte over the buffer. -/
theorem clearFillsTheBuffer : Obligations.ClearFillsTheBuffer := by
  intro s d h
  refine ⟨exec_live h (.clear .toggle), fun c v hcv => ?_⟩
  obtain ⟨hc, rfl⟩ : c ≠ .toggle ∧ fillByte c = v := by obtain ⟨rfl, rfl⟩ | ⟨rfl, rfl⟩ := hcv <;> decide
  have hwf := fbWf_ofBytes (List.replicate (s.fbSize d) (fillByte c))
  rw [List.length_replicate] at hwf
  exact ⟨_, exec_clear_fill h hc, hwf, fun i hi => by rw [read_ofBytes, List.getElem?_replicate_of_lt hi]⟩

/-! ## The refused transaction (R259, R263) -/

section
variable {s : State} {d : Surface} {m : Nat}

/-- One command byte and what follows, when the transaction is refused. -/
theorem andThen_busCmd_fail (h : Live s d) (b : Byte) (hm : m < 1) (hfail : busFailsAt s m) (k : State → State) :
    andThen (busCmd b s) k = failed s d.devaddr (cmdBytes [b]) m := by
  rw [busCmd_eq h.1]
  exact andThen_busCmds_fail h.1 h.2 hm hfail k

/-- A setter, or the flush of the framebuffer's bytes, ends at the transaction that is refused. -/
theorem body_sends_fail {i : Instr} {bss : List (List Byte)} (h : Live s d) (hsends : sends s d i = some bss)
    (hm : m < bss.length) (hfail : busFailsAt s m) : body i d s = failed s d.devaddr bss m := by
  cases i <;> cases hsends <;> simp only [length_cmdBytes, length_flushLog] at hm <;> simp only [body]
  case contrast v => exact andThen_busCmds_fail h.1 h.2 hm hfail _
  case orient e => exact andThen_busCmds_fail h.1 h.2 hm hfail _
  case invert e => exact andThen_busCmd_fail h _ hm hfail _
  case power e => exact andThen_busCmd_fail h _ hm hfail _
  case flush => exact flushBytes_fail h.1 h.2 _ hm hfail

/-- FLUSHX of a frame that XM holds ends at the transaction that is refused. -/
theorem body_flushx_fail {addr : XAddr} {bytes : List Byte} (h : Live s d) (hl : bytes.length = s.fbSize d)
    (hbytes : xmHolds s.xm addr.toNat bytes) (hm : m < (flushLog s.cfg d.fam bytes).length)
    (hfail : busFailsAt s m) :
    body (.flushx addr) d s = failed s d.devaddr (flushLog s.cfg d.fam bytes) m := by
  have hread : memRead s.xm addr.toNat (s.fbSize d) = .ok bytes := hl ▸ memRead_holds addr.isLt hbytes
  exact (withMem_ok hread _).trans (flushBytes_fail h.1 h.2 _ (by simpa using hm) hfail)

end

/-- Settles O30: the operation is its transactions in order, and ends at the one that is refused, with the state
`failed`. -/
theorem busFailureStopsTheOperation : Obligations.BusFailureStopsTheOperation := by
  intro s d i bss m h hi hm hfail
  have hbody : body i d s = failed s d.devaddr bss m := by
    obtain hsends | ⟨addr, bytes, rfl, hl, hbytes, rfl⟩ := hi
    · exact body_sends_fail h hsends hm hfail
    · exact body_flushx_fail h hl hbytes hm hfail
  exact (exec_live h i).trans (congrArg _ hbody)

/-! ## The read-back past the buffer (R141, R261) -/

/-- A detail that fits the 32 bits of `fault_info` is recorded as it is (R42). -/
theorem infoOf_of_lt {n : Nat} (h : n < 2 ^ 32) : infoOf n = BitVec.ofNat 32 n := if_pos h

/-- Settles O33: the byte read is zero-extended, and an index past the buffer is the detail. -/
theorem rdfbReadsOneByte : Obligations.RdfbReadsOneByte := by
  intro s d i h
  refine ⟨fun b hi hb => exec_rdfb h.1 hi hb, fun hpast hi => ?_⟩
  rw [exec_live h.1]
  simp only [body, if_neg hpast.not_gt, infoOf_of_lt (show i < 2 ^ 32 by omega)]
  rfl

/-! ## Text without a font (R258) -/

section
variable {s : State}

/-- GlyphParams without a font (R221). -/
theorem withGlyphParams_noFont (hf : s.font = none) (k : Nat → Nat → Nat → State → State) :
    withGlyphParams k s = raise .fontUnset 0 s := by
  simp only [withGlyphParams, hf]

theorem drawGlyph_noFont (hf : s.font = none) (x y : Int) {ch : Nat} (hch : printable ch = true) (c : Colour) :
    drawGlyph x y ch c s = raise .fontUnset 0 s := by
  rw [drawGlyph, if_pos hch, withGlyphParams_noFont hf]

/-- STRING meets the missing font at its first code: in drawing it if it is supported, else in the advance. -/
theorem drawString_noFont (hn : s.fault = .none) (hf : s.font = none) {addr : XAddr} {b : Byte}
    (hb : s.xm.read addr.toNat = some b) (x y : Int) (c : Colour) (n : Nat) :
    drawString y c (n + 1) x addr.toNat s = raise .fontUnset 0 s := by
  rw [drawString, withMem_one (xmHolds_one.2 ⟨addr.isLt, hb⟩)]
  by_cases hch : printable b.toNat = true
  · exact (congrArg (andThen · _) (drawGlyph_noFont hf x y hch c)).trans (andThen_fault (by simp) _)
  · exact (congrArg (andThen · _) (if_neg hch)).trans ((andThen_none hn _).trans (withGlyphParams_noFont hf _))

end

/-- Settles O47: each of the three needs the font register before it has any effect. -/
theorem noFontRaisesFontUnset : Obligations.NoFontRaisesFontUnset := by
  intro s d i h hf hi
  have hbody : body i d s = raise .fontUnset 0 s := by
    obtain ⟨x, y, ch, c, rfl, hch⟩ | rfl | ⟨x, y, addr, len, c, rfl, hlen, hdef⟩ := hi
    · exact drawGlyph_noFont hf x y (printable_iff.2 hch) c
    · simp only [body, hf]
    · obtain ⟨n, rfl⟩ := Nat.exists_eq_add_of_le' hlen
      obtain ⟨b, hb⟩ := Option.isSome_iff_exists.1 hdef
      exact drawString_noFont h.1 hf hb x y c n
  exact (exec_live h i).trans (congrArg _ hbody)

end Sys2Proof.Proofs
end

section
/-! PROOF. Reset (70_reset_and_hazards.md, section 1): the state the block reset leaves (R290), and that it meets the
invariant with the spec's default parameters (R11). -/

namespace Sys2Proof.Proofs

open Sys2Proof Sys2Proof.Machine Sys2Proof.Laws

/-- The spec's defaults meet the constraints of R11 and R105. The check does not look at FLUSH_WIN_f, which is a free
value (R108). -/
theorem defaultConfig_ok : configOk defaultConfig = true := by decide

/-- An XM with nothing defined in it (R59). -/
theorem xmWf_nil : xmWf [] := ⟨.nil, fun a _ => read_nil a⟩

/-- Settles O52: it is the block reset from legal parameters and an empty XM. -/
theorem resetMeetsInvariant : Obligations.ResetMeetsInvariant := resetWith_inv defaultConfig_ok xmWf_nil [] []

/-- Settles O54: each row of R290 is a field of the block reset; `alive` is the presence of the surface (R25). -/
theorem resetState : Obligations.ResetState := by
  simp [Obligations.ResetState, State.reset, State.alive]

end Sys2Proof.Proofs
end
